-- ==== Sys2Proof/Word.lean ====
section
/-! DEFINITION. The plain word and index types of the ECC CORE block (spec/00_scope.md rule R8: all numbers are unsigned). -/

namespace Sys2Proof

/-- One 32-bit word: a bus word, a command word, a control or status register (20_memory.md R43, 30_encoding.md R65). -/
abbrev Word := BitVec 32

/-- A register index: "unsigned 4-bit register indices 0..15" (30_encoding.md R68). -/
abbrev RegIdx := Fin 16

end Sys2Proof
end

