-- ==== Sys2Proof/Syntax.lean ====
section
/-! DEFINITION. The thirteen commands of 30_encoding.md R71, one constructor per row of spec/opcode_table.json:
the field commands have a `.p` row (M = 0) and a `.n` row (M = 1). -/

namespace Sys2Proof

/-- A decoded command.
Only the fields the command uses are kept: "A field the command does not use is ignored: any value decodes the same command" (30_encoding.md R68).
Which file an index selects (scalar or point) is 30_encoding.md R70. -/
inductive Instr where
  /-- `fadd.p rd, ra, rb` (40_field.md R85, M = 0). -/
  | faddP (rd ra rb : RegIdx)
  /-- `fadd.n rd, ra, rb` (40_field.md R85, M = 1). -/
  | faddN (rd ra rb : RegIdx)
  /-- `fsub.p rd, ra, rb` (40_field.md R86). -/
  | fsubP (rd ra rb : RegIdx)
  /-- `fsub.n rd, ra, rb` (40_field.md R86). -/
  | fsubN (rd ra rb : RegIdx)
  /-- `fmul.p rd, ra, rb` (40_field.md R87). -/
  | fmulP (rd ra rb : RegIdx)
  /-- `fmul.n rd, ra, rb` (40_field.md R87). -/
  | fmulN (rd ra rb : RegIdx)
  /-- `finv.p rd, ra` (40_field.md R88). -/
  | finvP (rd ra : RegIdx)
  /-- `finv.n rd, ra` (40_field.md R88). -/
  | finvN (rd ra : RegIdx)
  /-- `fdiv.p rd, ra, rb` (40_field.md R89). -/
  | fdivP (rd ra rb : RegIdx)
  /-- `fdiv.n rd, ra, rb` (40_field.md R89). -/
  | fdivN (rd ra rb : RegIdx)
  /-- `oncurve pta` (41_curve.md R98). -/
  | oncurve (ra : RegIdx)
  /-- `padd ptd, pta, ptb` (41_curve.md R99). -/
  | padd (rd ra rb : RegIdx)
  /-- `pdbl ptd, pta` (41_curve.md R100). -/
  | pdbl (rd ra : RegIdx)
  /-- `pmul ptd, pta, rb` (41_curve.md R101). -/
  | pmul (rd ra rb : RegIdx)
  /-- `pubkey ptd, ra` (42_ecdsa.md R108). -/
  | pubkey (rd ra : RegIdx)
  /-- `keygen rd, ptd` with one index for both (42_ecdsa.md R109). -/
  | keygen (rd : RegIdx)
  /-- `sign rd, rc, ra, rb` in the field order RD, RA, RB, RC (42_ecdsa.md R112). -/
  | sign (rd ra rb rc : RegIdx)
  /-- `verify ra, rb, rc, ptd` in the field order RD, RA, RB, RC (42_ecdsa.md R114). -/
  | verify (rd ra rb rc : RegIdx)
deriving DecidableEq, Repr

end Sys2Proof
end

