-- ==== Sys2Proof/WellFormed.lean ====
section
/-! DEFINITION. Which instruction terms are commands of the block. -/

namespace Sys2Proof

/-- The one constraint 30_encoding.md R72 puts on operands (item 4): SIGN's two results may not share a register.
Every index is below 16 by its type (30_encoding.md R68). -/
def Instr.wellFormed : Instr → Bool
  | .sign rd _ _ rc => rd != rc
  | .faddP _ _ _ | .faddN _ _ _ | .fsubP _ _ _ | .fsubN _ _ _ | .fmulP _ _ _ | .fmulN _ _ _ => true
  | .finvP _ _ | .finvN _ _ | .fdivP _ _ _ | .fdivN _ _ _ => true
  | .oncurve _ | .padd _ _ _ | .pdbl _ _ | .pmul _ _ _ => true
  | .pubkey _ _ | .keygen _ | .verify _ _ _ _ => true

end Sys2Proof
end

