-- ==== Sys2Proof/Decode.lean ====
section
/-! DEFINITION. Decoding a command word, total on all 32-bit words and rejecting by name (30_encoding.md R65 to R74),
and after it the encoder, written from the same tables (30_encoding.md R65, R71, R78). -/

namespace Sys2Proof

/-- The field of `len` bits from bit `lo` up (00_scope.md R8: `v[hi:lo]` read as an unsigned number). -/
def bitsOf (c : Word) (lo len : Nat) : Nat := c.toNat / 2 ^ lo % 2 ^ len

/-- A 4-bit register index field (30_encoding.md R68). -/
def idxAt (c : Word) (lo : Nat) : RegIdx := Fin.ofNat 16 (bitsOf c lo 4)

/-- Why a word is no command: the four items of 30_encoding.md R72. All of them end the command with ILLEGAL_CMD. -/
inductive DecodeError where
  /-- Item 1: `c[5:0]` is not in the opcode map of R71. -/
  | unknownOp
  /-- Item 2: bit 7 or one of bits 31:24 is set. -/
  | reservedBit
  /-- Item 3: M = 1 on a command that is no field command. -/
  | modulusSelect
  /-- Item 4: SIGN with RD = RC. -/
  | signSameDest
deriving DecidableEq, Repr

/-- A field command in its two forms, by M (30_encoding.md R67). -/
def byModulus (m : Nat) (p n : Instr) : Except DecodeError Instr :=
  .ok (if m = 0 then p else n)

/-- A command that must have M = 0 (30_encoding.md R67, R72 item 3). -/
def plainForm (m : Nat) (i : Instr) : Except DecodeError Instr :=
  if m = 0 then .ok i else .error .modulusSelect

/-- 30_encoding.md R74, total on every word; the opcode map is R71. -/
def decode (c : Word) : Except DecodeError Instr :=
  let op := bitsOf c 0 6
  let m := bitsOf c 6 1
  let rd := idxAt c 8
  let ra := idxAt c 12
  let rb := idxAt c 16
  let rc := idxAt c 20
  if bitsOf c 7 1 = 1 ∨ bitsOf c 24 8 ≠ 0 then .error .reservedBit
  else if op = 0x01 then byModulus m (.faddP rd ra rb) (.faddN rd ra rb)
  else if op = 0x02 then byModulus m (.fsubP rd ra rb) (.fsubN rd ra rb)
  else if op = 0x03 then byModulus m (.fmulP rd ra rb) (.fmulN rd ra rb)
  else if op = 0x04 then byModulus m (.finvP rd ra) (.finvN rd ra)
  else if op = 0x05 then byModulus m (.fdivP rd ra rb) (.fdivN rd ra rb)
  else if op = 0x10 then plainForm m (.oncurve ra)
  else if op = 0x11 then plainForm m (.padd rd ra rb)
  else if op = 0x12 then plainForm m (.pdbl rd ra)
  else if op = 0x13 then plainForm m (.pmul rd ra rb)
  else if op = 0x20 then plainForm m (.pubkey rd ra)
  else if op = 0x21 then plainForm m (.keygen rd)
  else if op = 0x22 then
    if m = 0 ∧ rd = rc then .error .signSameDest else plainForm m (.sign rd ra rb rc)
  else if op = 0x23 then plainForm m (.verify rd ra rb rc)
  else .error .unknownOp

/-- The word whose bus byte lanes 0 to 3 carry the given bytes: "bus byte lane b carries bits [8·b + 7 : 8·b]" (20_memory.md R51). -/
def wordOfLanes (b0 b1 b2 b3 : BitVec 8) : Word :=
  BitVec.ofNat 32 (b0.toNat + b1.toNat * 2 ^ 8 + b2.toNat * 2 ^ 16 + b3.toNat * 2 ^ 24)

/-- The byte on lane `b` of a bus word (20_memory.md R51). -/
def laneOf (c : Word) (b : Nat) : BitVec 8 := BitVec.ofNat 8 (bitsOf c (8 * b) 8)

/-- The command word of an opcode-table row given as a number of `nbits` bits; bits above `nbits` are 0.
The number's bits are laid on the four byte lanes and read back as the CMD write carries them (20_memory.md R51). -/
def tableWord (nbits w : Nat) : Word :=
  let v := w % 2 ^ nbits
  wordOfLanes (BitVec.ofNat 8 v) (BitVec.ofNat 8 (v / 2 ^ 8)) (BitVec.ofNat 8 (v / 2 ^ 16)) (BitVec.ofNat 8 (v / 2 ^ 24))

/-- The instruction the decoder reads from an opcode-table word. -/
def decodeTableWord (nbits w : Nat) : Option Instr := (decode (tableWord nbits w)).toOption

/-- Packing the fields of format C: `OP | M<<6 | RD<<8 | RA<<12 | RB<<16 | RC<<20` (30_encoding.md R78). -/
def packC (op m : Nat) (rd ra rb rc : RegIdx) : Word :=
  BitVec.ofNat 32 (op + m * 2 ^ 6 + rd.val * 2 ^ 8 + ra.val * 2 ^ 12 + rb.val * 2 ^ 16 + rc.val * 2 ^ 20)

/-- The command word of an instruction, unused fields 0 (30_encoding.md R65, R70, R71, R76). -/
def encode : Instr → Word
  | .faddP rd ra rb => packC 0x01 0 rd ra rb 0
  | .faddN rd ra rb => packC 0x01 1 rd ra rb 0
  | .fsubP rd ra rb => packC 0x02 0 rd ra rb 0
  | .fsubN rd ra rb => packC 0x02 1 rd ra rb 0
  | .fmulP rd ra rb => packC 0x03 0 rd ra rb 0
  | .fmulN rd ra rb => packC 0x03 1 rd ra rb 0
  | .finvP rd ra => packC 0x04 0 rd ra 0 0
  | .finvN rd ra => packC 0x04 1 rd ra 0 0
  | .fdivP rd ra rb => packC 0x05 0 rd ra rb 0
  | .fdivN rd ra rb => packC 0x05 1 rd ra rb 0
  | .oncurve ra => packC 0x10 0 0 ra 0 0
  | .padd rd ra rb => packC 0x11 0 rd ra rb 0
  | .pdbl rd ra => packC 0x12 0 rd ra 0 0
  | .pmul rd ra rb => packC 0x13 0 rd ra rb 0
  | .pubkey rd ra => packC 0x20 0 rd ra 0 0
  | .keygen rd => packC 0x21 0 rd 0 0 0
  | .sign rd ra rb rc => packC 0x22 0 rd ra rb rc
  | .verify rd ra rb rc => packC 0x23 0 rd ra rb rc

/-- The assembler's word for an instruction; it rejects what is no command (30_encoding.md R72 item 4, R76). -/
def assemble (i : Instr) : Option Word := if i.wellFormed then some (encode i) else none

/-- `keygen rd, ptd`: "the two indices must be equal, the assembler rejects unequal ones" (30_encoding.md R76). -/
def assembleKeygen (rd ptd : RegIdx) : Option Word := if rd = ptd then assemble (.keygen rd) else none

/-- `r0`..`r15` (30_encoding.md R76). -/
def scalarName (i : RegIdx) : String := "r" ++ toString i.val

/-- `pt0`..`pt15` (30_encoding.md R76). -/
def pointName (i : RegIdx) : String := "pt" ++ toString i.val

/-- A line of assembler text: "operands are separated by commas" (30_encoding.md R76). -/
def asmLine (mnemonic : String) (operands : List String) : String :=
  mnemonic ++ " " ++ String.intercalate ", " operands

/-- The assembler text of an instruction (30_encoding.md R76). -/
def asmText : Instr → String
  | .faddP rd ra rb => asmLine "fadd.p" [scalarName rd, scalarName ra, scalarName rb]
  | .faddN rd ra rb => asmLine "fadd.n" [scalarName rd, scalarName ra, scalarName rb]
  | .fsubP rd ra rb => asmLine "fsub.p" [scalarName rd, scalarName ra, scalarName rb]
  | .fsubN rd ra rb => asmLine "fsub.n" [scalarName rd, scalarName ra, scalarName rb]
  | .fmulP rd ra rb => asmLine "fmul.p" [scalarName rd, scalarName ra, scalarName rb]
  | .fmulN rd ra rb => asmLine "fmul.n" [scalarName rd, scalarName ra, scalarName rb]
  | .finvP rd ra => asmLine "finv.p" [scalarName rd, scalarName ra]
  | .finvN rd ra => asmLine "finv.n" [scalarName rd, scalarName ra]
  | .fdivP rd ra rb => asmLine "fdiv.p" [scalarName rd, scalarName ra, scalarName rb]
  | .fdivN rd ra rb => asmLine "fdiv.n" [scalarName rd, scalarName ra, scalarName rb]
  | .oncurve ra => asmLine "oncurve" [pointName ra]
  | .padd rd ra rb => asmLine "padd" [pointName rd, pointName ra, pointName rb]
  | .pdbl rd ra => asmLine "pdbl" [pointName rd, pointName ra]
  | .pmul rd ra rb => asmLine "pmul" [pointName rd, pointName ra, scalarName rb]
  | .pubkey rd ra => asmLine "pubkey" [pointName rd, scalarName ra]
  | .keygen rd => asmLine "keygen" [scalarName rd, pointName rd]
  | .sign rd ra rb rc => asmLine "sign" [scalarName rd, scalarName rc, scalarName ra, scalarName rb]
  | .verify rd ra rb rc => asmLine "verify" [scalarName ra, scalarName rb, scalarName rc, pointName rd]

/-- The bits of a command word that its command reads: the bits every command fixes (7:0 and 31:24) and the fields of 30_encoding.md R70. -/
def usedMask : Instr → Word
  | .faddP _ _ _ | .faddN _ _ _ | .fsubP _ _ _ | .fsubN _ _ _ | .fmulP _ _ _ | .fmulN _ _ _ => 0xFF0FFFFF
  | .fdivP _ _ _ | .fdivN _ _ _ | .padd _ _ _ | .pmul _ _ _ => 0xFF0FFFFF
  | .finvP _ _ | .finvN _ _ | .pdbl _ _ | .pubkey _ _ => 0xFF00FFFF
  | .oncurve _ => 0xFF00F0FF
  | .keygen _ => 0xFF000FFF
  | .sign _ _ _ _ | .verify _ _ _ _ => 0xFFFFFFFF

end Sys2Proof
end

