-- ==== Sys2Proof/Config.lean ====
section
/-! DEFINITION. What one instance of the block fixes (00_scope.md R6) and the values the spec leaves free (70_reset_and_hazards.md R139). -/

namespace Sys2Proof.Config

/-- The parameters of one instance (00_scope.md R6).
They stand in `State.params`, which no step changes, so a statement about every state is a statement about every instance.
`LATENCY` is not here: no rule depends on it (70_reset_and_hazards.md R147); the schedule of `State` says when the engine moves. -/
structure Params where
  /-- `W`: the width in bits of every big register. -/
  width : Nat
  /-- `MAX_SIGN_ATTEMPTS`: the retry budget of SIGN with the RNG nonce source. -/
  maxSignAttempts : Nat
  /-- `BASE`: the bus address of register offset 0. -/
  base : Nat
deriving DecidableEq, Repr

/-- `NW`, the 32-bit words of a big register (00_scope.md R6). -/
def Params.nw (p : Params) : Nat := p.width / 32

/-- The legal values of the parameter table of 00_scope.md R6. -/
def Params.wf (p : Params) : Bool :=
  p.width % 32 == 0 && decide (32 ≤ p.width) && decide (p.width ≤ 1024) &&
  decide (1 ≤ p.maxSignAttempts) && decide (p.maxSignAttempts ≤ 65535) && p.base % 0x4000 == 0

/-- The default instance: W = 256, MAX_SIGN_ATTEMPTS = 256 (00_scope.md R6).
DESIGN CHOICE (log entry 3): BASE = 0, since the spec leaves BASE to the platform. -/
def Params.default : Params := ⟨256, 256, 0⟩

/-- The size in bytes of the register window (20_memory.md R41: "a 16 KiB register window"). -/
def windowSize : Nat := 0x4000

/-- The constant of the ID register (10_state.md R24). -/
def idWord : Word := 0x45434331

/-- FREE VALUE (log entry 5): whether the n-th transaction that overlaps a reset is answered OKAY.
70_reset_and_hazards.md R139 calls that outcome unspecified. -/
opaque freeOkay : Nat → Bool

/-- FREE VALUE (log entry 5): the word the n-th read that overlaps a reset returns.
70_reset_and_hazards.md R139: "a read returns an unspecified value. A model admits any value for such a read". -/
opaque freeReadWord : Nat → Word

end Sys2Proof.Config
end

