-- ==== Sys2Proof/Machine/State.lean ====
section
/-! DEFINITION. Everything the spec gives the block to hold (10_state.md R16), as plain data, and its reset value (R39).
The model's own fields (not the spec's) are `params`, `response`, `schedule`, `freeCount` and `rngRequests`; their docstrings say so. -/

namespace Sys2Proof.Machine

open Sys2Proof.Config

/-- "`Point` is a closed sum type with exactly two variants" (00_scope.md R10). -/
inductive Point where
  | identity
  | coord (x y : Nat)
deriving DecidableEq, Repr

/-- A point register's three fields INF, X and Y (10_state.md R21). The host writes them independently. -/
structure PointReg where
  inf : Bool
  x : Nat
  y : Nat
deriving DecidableEq, Repr

/-- The error codes 1 to 7 of 60_exceptions.md R117. Code 0 (NONE) is `none` in `Status.errcode`; codes 8 to 15 do not exist (R118). -/
inductive CmdError where
  | illegalCmd
  | badModulus
  | badOrder
  | pointRange
  | nonceRange
  | divByZero
  | signFail
deriving DecidableEq, Repr

/-- The configuration registers (10_state.md R22, R23), each W bits wide but GEN_INF (1 bit). -/
structure ConfigRegs where
  /-- P_MOD, the field modulus p. -/
  p : Nat
  /-- N_ORD, the generator's order n. -/
  n : Nat
  /-- CURVE_A. -/
  a : Nat
  /-- CURVE_B. -/
  b : Nat
  gx : Nat
  gy : Nat
  genInf : Bool
  /-- K_IN, the host nonce. -/
  kin : Nat
deriving DecidableEq, Repr

/-- CTRL (10_state.md R26); its reserved bits read 0 and hold nothing. -/
structure Ctrl where
  /-- NONCE_SRC: false = the RNG port, true = K_IN. -/
  nonceSrc : Bool
  doneIe : Bool
  errIe : Bool
deriving DecidableEq, Repr

/-- The stored fields of STATUS (10_state.md R27). BUSY is not stored twice: it is the engine's state (R32). -/
structure Status where
  done : Bool
  err : Bool
  result : Bool
  wdrop : Bool
  errcode : Option CmdError
  attempts : BitVec 16
deriving DecidableEq, Repr

/-- The snapshot S taken at acceptance (10_state.md R33). The command word c stands beside it in `Running`. -/
structure Snapshot where
  r : Vector Nat 16
  pt : Vector PointReg 16
  p : Nat
  n : Nat
  a : Nat
  b : Nat
  gen : Point
  kin : Nat
  nonceSrc : Bool
deriving DecidableEq, Repr

/-- The scalar-multiplication accumulators, the source's "`result`, `addend`, remaining scalar" (10_state.md R36, 41_curve.md R97). -/
structure MulLoop where
  result : Point
  addend : Point
  rem : Nat
deriving DecidableEq, Repr

/-- How far a command's scalar multiplications have come (10_state.md R36).
PMUL, PUBKEY, KEYGEN and a SIGN attempt make one; VERIFY makes two (42_ecdsa.md R113). -/
inductive MulProgress where
  /-- No multiplication begun. -/
  | notBegun
  /-- In the loop of the first. -/
  | first (loop : MulLoop)
  /-- The first is finished with this point. -/
  | firstDone (point : Point)
  /-- The first is finished with this point, and the second is in its loop. -/
  | second (point : Point) (loop : MulLoop)
deriving DecidableEq, Repr

/-- Where a command stands with its RNG nonce (20_memory.md R44; "an RNG request in flight", 10_state.md R36). -/
inductive NonceState where
  /-- No request issued for the coming key or signing attempt. -/
  | unasked
  /-- A request is in flight: the engine waits. -/
  | requested
  /-- The RNG has answered k, used for exactly one key or one signing attempt. -/
  | answered (k : Nat)
deriving DecidableEq, Repr

/-- The internal progress of a running command (10_state.md R32, R36). -/
structure Progress where
  /-- The attempt counter of SIGN: how many attempts were rejected so far (42_ecdsa.md R111). -/
  rejected : Nat
  nonce : NonceState
  mul : MulProgress
deriving DecidableEq, Repr

/-- Progress `start` (10_state.md R33). -/
def Progress.start : Progress := ⟨0, .unasked, .notBegun⟩

/-- The engine's `BUSY(c, S, progress)` (10_state.md R32). -/
structure Running where
  word : Word
  snap : Snapshot
  progress : Progress
deriving DecidableEq, Repr

/-- "The engine is in one of two states" (10_state.md R32). -/
inductive Engine where
  | idle
  | busy (run : Running)
deriving DecidableEq, Repr

/-- The width of a bus read; the block accepts only 32-bit ones (20_memory.md R43, R52). -/
inductive ReadWidth where
  | byte
  | half
  | word
deriving DecidableEq, Repr

/-- One bus transaction at a bus address (20_memory.md R43); a write carries its byte enables. -/
inductive BusTxn where
  | read (addr : Nat) (width : ReadWidth)
  | write (addr : Nat) (enables : BitVec 4) (value : Word)
deriving DecidableEq, Repr

/-- The block's answer to a bus transaction (20_memory.md R43). -/
inductive Response where
  | okayRead (value : Word)
  | okayWrite
  | error
deriving DecidableEq, Repr

/-- One atomic event of an agent (10_state.md R15; 20_memory.md R56: every one is ordered against the others). -/
inductive Event where
  /-- A bus master performs a transaction. -/
  | host (txn : BusTxn)
  /-- The engine does one internal iteration of its running command; nothing is visible on the bus (10_state.md R36). -/
  | work
  /-- The engine carries its command on: to completion (10_state.md R35) or to its next RNG request (20_memory.md R44). -/
  | run
  /-- The RNG port presents k, its answer to the engine's request of the given number (20_memory.md R44).
  Requests are numbered in the order the engine issues them (log entry 16), so that an answer to a request that a reset abandoned
  is none to a later request (70_reset_and_hazards.md R138). -/
  | rng (request k : Nat)
  /-- `rst` is asserted and released (70_reset_and_hazards.md R137). -/
  | reset
  /-- The same, overlapped by a bus transaction (70_reset_and_hazards.md R139). -/
  | resetDuring (txn : BusTxn)
deriving DecidableEq, Repr

/-- The state of the block and, in the model's own fields, of its surroundings. -/
structure State where
  /-- Model's own: the instance's parameters (00_scope.md R6). No step changes them. -/
  params : Params
  /-- R0 to R15, each a number below 2^W (10_state.md R17). -/
  r : Vector Nat 16
  /-- PT0 to PT15 (10_state.md R20, R21). -/
  pt : Vector PointReg 16
  cfg : ConfigRegs
  ctrl : Ctrl
  status : Status
  /-- LASTCMD (10_state.md R30). -/
  lastcmd : Word
  engine : Engine
  /-- Model's own: what the block answered to the last bus transaction; `none` before any. -/
  response : Option Response
  /-- Model's own (log entry 1): the events to come, in the order they take effect. Empty: only the engine moves. -/
  schedule : List Event
  /-- Model's own (log entry 5): how many free values were used. -/
  freeCount : Nat
  /-- Model's own (log entry 16): how many RNG requests the engine has issued, which is the number of the request in flight.
  A reset leaves it, so that no number is given twice. -/
  rngRequests : Nat
deriving DecidableEq, Repr

/-- Why a step stops. -/
inductive Fault where
  /-- Raised by a meaning applied to a state whose engine is IDLE: there is no command to complete (10_state.md R32).
  `step` never applies one so. Safe. -/
  | noCommandRunning
  /-- Raised by a bus transaction whose address lies outside the 16 KiB window at BASE (20_memory.md R41): it is not the block's. Safe. -/
  | addressOutsideWindow
deriving DecidableEq, Repr

/-- What the model gives no meaning to. -/
inductive Refusal where
  /-- Raised by an arm of `exec` for a command that has no meaning yet. Safe. (No arm raises it.) -/
  | notModelled (mnemonic : String)
  /-- Raised by an RNG answer outside [1, n-1] to a request in flight: 93_implementation_defined.md U9,
  "`refuse`: no such answer is admitted". Safe. -/
  | rngAnswerOutOfRange
deriving DecidableEq, Repr

/-- The reset state of an instance (10_state.md R39, 70_reset_and_hazards.md R137). -/
def State.resetOf (p : Params) : State where
  params := p
  r := Vector.replicate 16 0
  pt := Vector.replicate 16 ⟨false, 0, 0⟩
  cfg := ⟨0, 0, 0, 0, 0, 0, false, 0⟩
  ctrl := ⟨false, false, false⟩
  status := ⟨false, false, false, false, none, 0⟩
  lastcmd := 0
  engine := .idle
  response := none
  schedule := []
  freeCount := 0
  rngRequests := 0

/-- The default instance (00_scope.md R6) right after reset, with nothing scheduled. -/
def State.reset : State := State.resetOf Params.default

end Sys2Proof.Machine
end

