-- ==== Sys2Proof/Machine/Flags.lean ====
section
/-! DEFINITION. The flags: what acceptance, completion and the host's acknowledgement do to STATUS,
the 32-bit words of STATUS, CTRL and PARAM, and the irq line. -/

namespace Sys2Proof.Machine

open Sys2Proof.Config

/-- The ERRCODE value of an error (60_exceptions.md R117). -/
def CmdError.code : CmdError → Nat
  | .illegalCmd => 1
  | .badModulus => 2
  | .badOrder => 3
  | .pointRange => 4
  | .nonceRange => 5
  | .divByZero => 6
  | .signFail => 7

/-- ERRCODE as a number; 0 is NONE (60_exceptions.md R117). -/
def Status.errcodeNat (st : Status) : Nat :=
  match st.errcode with
  | none => 0
  | some e => e.code

/-- STATUS.BUSY (10_state.md R32: IDLE is BUSY = 0). -/
def Engine.isBusy : Engine → Bool
  | .idle => false
  | .busy _ => true

/-- STATUS.BUSY of a state. -/
def State.busy (s : State) : Bool := s.engine.isBusy

/-- A one-bit field of a register word. -/
def bitAt (b : Bool) (pos : Nat) : Nat := if b then 2 ^ pos else 0

/-- The STATUS word (10_state.md R27): BUSY, DONE, ERR, RESULT, WDROP in bits 4:0, ERRCODE in 11:8, ATTEMPTS in 31:16, the rest 0. -/
def State.statusWord (s : State) : Word :=
  BitVec.ofNat 32 (bitAt s.busy 0 + bitAt s.status.done 1 + bitAt s.status.err 2 + bitAt s.status.result 3 +
    bitAt s.status.wdrop 4 + s.status.errcodeNat * 2 ^ 8 + s.status.attempts.toNat * 2 ^ 16)

/-- The CTRL word (10_state.md R26); bits 31:3 read 0. -/
def Ctrl.word (c : Ctrl) : Word :=
  BitVec.ofNat 32 (bitAt c.nonceSrc 0 + bitAt c.doneIe 1 + bitAt c.errIe 2)

/-- What a host write of `v` leaves in CTRL (10_state.md R26); writes to bits 31:3 are ignored. -/
def Ctrl.ofWord (v : Word) : Ctrl := ⟨v.getLsbD 0, v.getLsbD 1, v.getLsbD 2⟩

/-- The PARAM word `{MAX_SIGN_ATTEMPTS[15:0], W[15:0]}` (10_state.md R25). -/
def paramWord (p : Params) : Word :=
  BitVec.ofNat 32 (p.maxSignAttempts % 2 ^ 16 * 2 ^ 16 + p.width % 2 ^ 16)

/-- Acceptance: "STATUS.DONE <- 0; STATUS.RESULT <- 0; STATUS.ATTEMPTS <- 0" (10_state.md R33). -/
def Status.onAccept (st : Status) : Status :=
  { st with done := false, result := false, attempts := 0 }

/-- Completion without error (10_state.md R35): DONE <- 1, and RESULT and ATTEMPTS where the command writes them (30_encoding.md R70). -/
def Status.onSuccess (st : Status) (result : Option Bool) (attempts : Option Nat) : Status :=
  { st with
    done := true
    result := result.getD st.result
    attempts := (attempts.map (BitVec.ofNat 16)).getD st.attempts }

/-- Completion with an error (10_state.md R35, 60_exceptions.md R120): ERRCODE <- E; ERR <- 1; DONE <- 1; no RESULT.
ATTEMPTS is written only where 42_ecdsa.md R111 says. -/
def Status.onError (st : Status) (e : CmdError) (attempts : Option Nat) : Status :=
  { st with
    done := true
    err := true
    errcode := some e
    attempts := (attempts.map (BitVec.ofNat 16)).getD st.attempts }

/-- A dropped write: STATUS.WDROP <- 1 (10_state.md R33, R37). -/
def Status.onDrop (st : Status) : Status := { st with wdrop := true }

/-- A host write of `v` to STATUS (10_state.md R28), which is also the return from an error (60_exceptions.md R122, R136). -/
def Status.onWrite (st : Status) (v : Word) : Status :=
  { st with
    done := st.done && !v.getLsbD 1
    err := st.err && !v.getLsbD 2
    errcode := if v.getLsbD 2 then none else st.errcode
    wdrop := st.wdrop && !v.getLsbD 4 }

/-- "irq = (STATUS.DONE and CTRL.DONE_IE) or (STATUS.ERR and CTRL.ERR_IE)" (60_exceptions.md R125). -/
def State.irq (s : State) : Bool :=
  (s.status.done && s.ctrl.doneIe) || (s.status.err && s.ctrl.errIe)

end Sys2Proof.Machine
end

