-- ==== Sys2Proof/Machine/Operands.lean ====
section
/-! DEFINITION. Operand forms: how a point register reads and writes as a `Point`, how a command reads its operands
from the snapshot, and the checks made on operands before any arithmetic. -/

namespace Sys2Proof.Machine

/-- Reading a point register as a `Point` (10_state.md R21): INF = 1 is `Identity`, whatever X and Y hold. -/
def PointReg.toPoint (q : PointReg) : Point := if q.inf then .identity else .coord q.x q.y

/-- Writing a `Point` from a command (10_state.md R21): `Identity` writes INF <- 1, X <- 0, Y <- 0. -/
def PointReg.ofPoint : Point → PointReg
  | .identity => ⟨true, 0, 0⟩
  | .coord x y => ⟨false, x, y⟩

/-- The generator as a `Point`, read as R21 reads a point register (10_state.md R23). -/
def ConfigRegs.generator (c : ConfigRegs) : Point := PointReg.toPoint ⟨c.genInf, c.gx, c.gy⟩

/-- The snapshot acceptance takes (10_state.md R33). -/
def State.snapshot (s : State) : Snapshot where
  r := s.r
  pt := s.pt
  p := s.cfg.p
  n := s.cfg.n
  a := s.cfg.a
  b := s.cfg.b
  gen := s.cfg.generator
  kin := s.cfg.kin
  nonceSrc := s.ctrl.nonceSrc

/-- A scalar source operand `S.R[i]` (30_encoding.md R70). -/
def Snapshot.scalar (S : Snapshot) (i : RegIdx) : Nat := S.r[i]

/-- A point source operand `S.PT[i]` (30_encoding.md R70). -/
def Snapshot.point (S : Snapshot) (i : RegIdx) : Point := PointReg.toPoint S.pt[i]

/-- The M bit of a field command (30_encoding.md R67). -/
inductive ModSel where
  /-- M = 0: CFG.p. -/
  | p
  /-- M = 1: CFG.n. -/
  | n
deriving DecidableEq, Repr

/-- The selected modulus (30_encoding.md R67). -/
def Snapshot.modulus (S : Snapshot) : ModSel → Nat
  | .p => S.p
  | .n => S.n

/-- "A field command whose selected `m` is 0 ends with BAD_MODULUS (code 2) before any arithmetic" (40_field.md R79). -/
def Snapshot.checkedModulus (S : Snapshot) (sel : ModSel) : Except CmdError Nat :=
  if S.modulus sel = 0 then .error .badModulus else .ok (S.modulus sel)

/-- `CFG.p ≠ 0`, else BAD_MODULUS (41_curve.md R93). -/
def Snapshot.checkP (S : Snapshot) : Except CmdError Unit :=
  if S.p = 0 then .error .badModulus else .ok ()

/-- `CFG.n ≥ 2`, else BAD_ORDER (42_ecdsa.md R104). -/
def Snapshot.checkN (S : Snapshot) : Except CmdError Unit :=
  if S.n < 2 then .error .badOrder else .ok ()

/-- Whether a point passes the range check of 41_curve.md R92: both coordinates below p; `Identity` always passes. -/
def Point.inRange (p : Nat) : Point → Bool
  | .identity => true
  | .coord x y => decide (x < p) && decide (y < p)

/-- The range check of 41_curve.md R92, else POINT_RANGE. -/
def Snapshot.rangeCheck (S : Snapshot) (P : Point) : Except CmdError Unit :=
  if P.inRange S.p then .ok () else .error .pointRange

/-- The host-nonce check of 42_ecdsa.md R107: with NONCE_SRC = 1, `1 ≤ CFG.kin ≤ n - 1`, else NONCE_RANGE. -/
def Snapshot.nonceCheck (S : Snapshot) : Except CmdError Unit :=
  if S.nonceSrc ∧ ¬ (1 ≤ S.kin ∧ S.kin ≤ S.n - 1) then .error .nonceRange else .ok ()

end Sys2Proof.Machine
end

