-- ==== Sys2Proof/Machine/Ops.lean ====
section
/-! DEFINITION. The named operations on the state: acceptance, the two ways a command ends (commit and error),
the host's acknowledgement, and word access to the registers of the window. -/

namespace Sys2Proof.Machine

open Sys2Proof.Config

/-! ### The command cycle -/

/-- Acceptance of the word c (10_state.md R33, the else branch). -/
def State.accept (s : State) (c : Word) : State :=
  { s with
    lastcmd := c
    status := s.status.onAccept
    engine := .busy ⟨c, s.snapshot, .start⟩ }

/-- What a command writes when it completes without error (30_encoding.md R70): scalar registers, a point register, RESULT, ATTEMPTS. -/
structure Commit where
  scalars : List (RegIdx × Nat) := []
  point : Option (RegIdx × Point) := none
  result : Option Bool := none
  attempts : Option Nat := none
deriving DecidableEq, Repr

/-- `R[rd] <- v; return`. -/
def Commit.scalar (rd : RegIdx) (v : Nat) : Commit := { scalars := [(rd, v)] }

/-- `PT[rd] <- P; return`. -/
def Commit.toPoint (rd : RegIdx) (P : Point) : Commit := { point := some (rd, P) }

/-- `STATUS.RESULT <- b; return`. -/
def Commit.flag (b : Bool) : Commit := { result := some b }

/-- The scalar file after a list of writes, in order. -/
def writeScalars (r : Vector Nat 16) : List (RegIdx × Nat) → Vector Nat 16
  | [] => r
  | (i, v) :: rest => writeScalars (r.set i v) rest

/-- The point file after at most one write (10_state.md R21). -/
def writePoint (pt : Vector PointReg 16) : Option (RegIdx × Point) → Vector PointReg 16
  | none => pt
  | some (i, P) => pt.set i (PointReg.ofPoint P)

/-- Completion on success (10_state.md R35): every destination at once, RESULT and ATTEMPTS with them, DONE <- 1, BUSY <- 0. -/
def State.commit (s : State) (w : Commit) : State :=
  { s with
    r := writeScalars s.r w.scalars
    pt := writePoint s.pt w.point
    status := s.status.onSuccess w.result w.attempts
    engine := .idle }

/-- TAKING AN ERROR: `raise E` (60_exceptions.md R120, 10_state.md R35).
No destination register is written; ERRCODE <- E; ERR <- 1; DONE <- 1; BUSY <- 0; ATTEMPTS as 42_ecdsa.md R111 says. -/
def State.raise (s : State) (e : CmdError) (attempts : Option Nat) : State :=
  { s with status := s.status.onError e attempts, engine := .idle }

/-- THE RETURN FROM AN ERROR and every other host write to STATUS (10_state.md R28; 60_exceptions.md R122, R136). -/
def State.acknowledge (s : State) (v : Word) : State :=
  { s with status := s.status.onWrite v }

/-- A dropped write changes WDROP and nothing else (10_state.md R33, R37). -/
def State.dropWrite (s : State) : State := { s with status := s.status.onDrop }

/-- A host write of c to CMD (10_state.md R33). -/
def State.offerCommand (s : State) (c : Word) : State :=
  if s.busy || s.status.err then s.dropWrite else s.accept c

/-- The engine's progress changed, nothing else. -/
def State.withProgress (s : State) (run : Running) (g : Progress) : State :=
  { s with engine := .busy { run with progress := g } }

/-- The engine issues an RNG request after `rejected` rejected attempts and waits (20_memory.md R44, 42_ecdsa.md R106);
the request gets the next number (log entry 16). -/
def State.requestNonce (s : State) (run : Running) (rejected : Nat) : State :=
  { s.withProgress run ⟨rejected, .requested, .notBegun⟩ with rngRequests := s.rngRequests + 1 }

/-- The RNG port's request output: the bound n of the request in flight (20_memory.md R44). -/
def State.rngRequest (s : State) : Option Nat :=
  match s.engine with
  | .idle => none
  | .busy run => if run.progress.nonce = .requested then some run.snap.n else none

/-- Running a meaning on the command in the engine; an IDLE engine has none (10_state.md R32). -/
def State.withCommand (s : State) (f : Running → Host.Outcome State Fault Refusal) : Host.Outcome State Fault Refusal :=
  match s.engine with
  | .idle => .fault .noCommandRunning
  | .busy run => f run

/-- The end of a command that draws no nonce: commit, or raise with ATTEMPTS left as acceptance set it (10_state.md R35). -/
def State.finish (s : State) : Except CmdError Commit → Host.Outcome State Fault Refusal
  | .ok w => .next (s.commit w)
  | .error e => .next (s.raise e none)

/-! ### The register window -/

/-- The big registers: every W-bit register (20_memory.md R46). -/
inductive BigReg where
  | scalar (i : RegIdx)
  | pMod
  | nOrd
  | curveA
  | curveB
  | gx
  | gy
  | kIn
  | ptX (i : RegIdx)
  | ptY (i : RegIdx)
deriving DecidableEq, Repr

/-- What stands at a word offset of the window (20_memory.md R46). `big b j` is word j, 0 to 31, of b's 0x80-byte slot. -/
inductive Target where
  | id
  | param
  | ctrl
  | status
  | cmd
  | lastcmd
  | genInf
  | big (b : BigReg) (j : Nat)
  | ptInf (i : RegIdx)
  | reserved
deriving DecidableEq, Repr

/-- The control registers, offsets 0x000 to 0x3FF (20_memory.md R46). -/
def controlTarget : Nat → Target
  | 0x000 => .id
  | 0x004 => .param
  | 0x008 => .ctrl
  | 0x00C => .status
  | 0x010 => .cmd
  | 0x014 => .lastcmd
  | 0x018 => .genInf
  | _ => .reserved

/-- The configuration registers, offsets 0xC00 to 0xFFF in slots of 0x80 bytes: word j of the given slot (20_memory.md R46). -/
def configTarget (slot j : Nat) : Target :=
  match slot with
  | 0 => .big .pMod j
  | 1 => .big .nOrd j
  | 2 => .big .curveA j
  | 3 => .big .curveB j
  | 4 => .big .gx j
  | 5 => .big .gy j
  | 6 => .big .kIn j
  | _ => .reserved

/-- The window of point register i, 0x200 bytes, at byte `o` of it (20_memory.md R46). -/
def pointTarget (i : RegIdx) (o : Nat) : Target :=
  if o < 0x80 then .big (.ptX i) (o / 4)
  else if o < 0x100 then .big (.ptY i) ((o - 0x80) / 4)
  else if o = 0x100 then .ptInf i
  else .reserved

/-- The register map of 20_memory.md R46, from a word-aligned offset in the window. -/
def targetOf (off : Nat) : Target :=
  if off < 0x400 then controlTarget off
  else if off < 0xC00 then .big (.scalar (Fin.ofNat 16 ((off - 0x400) / 0x80))) (off % 0x80 / 4)
  else if off < 0x1000 then configTarget ((off - 0xC00) / 0x80) (off % 0x80 / 4)
  else if off < 0x3000 then pointTarget (Fin.ofNat 16 ((off - 0x1000) / 0x200)) (off % 0x200)
  else .reserved

/-- The offset at which a big register's slot starts (20_memory.md R46). -/
def BigReg.slot : BigReg → Nat
  | .scalar i => 0x400 + 0x80 * i.val
  | .pMod => 0xC00
  | .nOrd => 0xC80
  | .curveA => 0xD00
  | .curveB => 0xD80
  | .gx => 0xE00
  | .gy => 0xE80
  | .kIn => 0xF00
  | .ptX i => 0x1000 + 0x200 * i.val
  | .ptY i => 0x1000 + 0x200 * i.val + 0x80

/-- The value a big register holds. -/
def State.readBig (s : State) : BigReg → Nat
  | .scalar i => s.r[i]
  | .pMod => s.cfg.p
  | .nOrd => s.cfg.n
  | .curveA => s.cfg.a
  | .curveB => s.cfg.b
  | .gx => s.cfg.gx
  | .gy => s.cfg.gy
  | .kIn => s.cfg.kin
  | .ptX i => s.pt[i].x
  | .ptY i => s.pt[i].y

/-- A big register given a new value, nothing else changed. -/
def State.writeBig (s : State) (b : BigReg) (v : Nat) : State :=
  match b with
  | .scalar i => { s with r := s.r.set i v }
  | .pMod => { s with cfg := { s.cfg with p := v } }
  | .nOrd => { s with cfg := { s.cfg with n := v } }
  | .curveA => { s with cfg := { s.cfg with a := v } }
  | .curveB => { s with cfg := { s.cfg with b := v } }
  | .gx => { s with cfg := { s.cfg with gx := v } }
  | .gy => { s with cfg := { s.cfg with gy := v } }
  | .kIn => { s with cfg := { s.cfg with kin := v } }
  | .ptX i => { s with pt := s.pt.set i { s.pt[i] with x := v } }
  | .ptY i => { s with pt := s.pt.set i { s.pt[i] with y := v } }

/-- Word j of a big value: `v[32·j + 31 : 32·j]` (20_memory.md R47). -/
def wordSlice (v j : Nat) : Word := BitVec.ofNat 32 (v / 2 ^ (32 * j))

/-- Word j of a big value replaced, the other words unchanged (20_memory.md R47). -/
def setWordSlice (v j : Nat) (w : Word) : Nat :=
  v / 2 ^ (32 * j + 32) * 2 ^ (32 * j + 32) + w.toNat * 2 ^ (32 * j) + v % 2 ^ (32 * j)

/-- The word an accepted read returns (20_memory.md R46 to R50): CMD and reserved offsets read 0, as do words NW to 31 of a slot. -/
def State.readTarget (s : State) : Target → Word
  | .id => idWord
  | .param => paramWord s.params
  | .ctrl => s.ctrl.word
  | .status => s.statusWord
  | .cmd => 0
  | .lastcmd => s.lastcmd
  | .genInf => BitVec.ofNat 32 (bitAt s.cfg.genInf 0)
  | .big b j => if j < s.params.nw then wordSlice (s.readBig b) j else 0
  | .ptInf i => BitVec.ofNat 32 (bitAt s.pt[i].inf 0)
  | .reserved => 0

/-- A write to an operand or configuration register: dropped with WDROP while BUSY (10_state.md R37). -/
def State.unlessBusy (s : State) (t : State) : State := if s.busy then s.dropWrite else t

/-- What an accepted write does (20_memory.md R46 to R50): writes to ID, PARAM, LASTCMD, reserved offsets and words NW to 31 are ignored;
CTRL and STATUS writes always take effect (10_state.md R26, R28). -/
def State.writeTarget (s : State) (t : Target) (v : Word) : State :=
  match t with
  | .id => s
  | .param => s
  | .ctrl => { s with ctrl := Ctrl.ofWord v }
  | .status => s.acknowledge v
  | .cmd => s.offerCommand v
  | .lastcmd => s
  | .genInf => s.unlessBusy { s with cfg := { s.cfg with genInf := v.getLsbD 0 } }
  | .big b j => if j < s.params.nw then s.unlessBusy (s.writeBig b (setWordSlice (s.readBig b) j v)) else s
  | .ptInf i => s.unlessBusy { s with pt := s.pt.set i { s.pt[i] with inf := v.getLsbD 0 } }
  | .reserved => s

/-- The word at a word-aligned offset of the window: the model's read of one word of the register window. -/
def State.readWord (s : State) (off : Nat) : Word := s.readTarget (targetOf off)

end Sys2Proof.Machine
end

