-- ==== Sys2Proof/Machine/Arith.lean ====
section
/-! DEFINITION. The field functions of 40_field.md R80 to R84, on exact natural numbers (00_scope.md R7). -/

namespace Sys2Proof.Machine

/-- The number of bits of k; 0 for 0. -/
def bitLen (k : Nat) : Nat := if k = 0 then 0 else Nat.log2 k + 1

/-- Square and multiply from the low bit: `acc · b^e mod m` when `fuel ≥ bitLen e`. -/
def powModLoop (m : Nat) : Nat → Nat → Nat → Nat → Nat
  | 0, acc, _, _ => acc
  | fuel + 1, acc, b, e =>
    powModLoop m fuel (if e % 2 = 1 then acc * b % m else acc) (b * b % m) (e / 2)

/-- `y^e mod m`, exact modular exponentiation with `y^0 = 1` (00_scope.md R8).
`Sys2Proof.Laws.powMod_eq` proves it equal to `y ^ e % m`; this form runs on moduli of any width. -/
def powMod (y e m : Nat) : Nat := powModLoop m (bitLen e) (1 % m) (y % m) e

/-- `field_add_m(x, y) = (x + y) mod m` (40_field.md R80). -/
def fieldAdd (m x y : Nat) : Nat := (x + y) % m

/-- `field_sub_m(x, y) = (x + (m - (y mod m))) mod m` (40_field.md R81). -/
def fieldSub (m x y : Nat) : Nat := (x + (m - y % m)) % m

/-- `field_mul_m(x, y) = (x · y) mod m` (40_field.md R82). -/
def fieldMul (m x y : Nat) : Nat := x * y % m

/-- `field_inv_m(y)`: DivisionByZero when `y mod m = 0`, else the Fermat power `y^(m-2) mod m`, for composite m too (40_field.md R83). -/
def fieldInv (m y : Nat) : Except CmdError Nat :=
  if y % m = 0 then .error .divByZero else .ok (powMod y (m - 2) m)

/-- `field_div_m(x, y) = field_mul_m(x, field_inv_m(y))` (40_field.md R84). -/
def fieldDiv (m x y : Nat) : Except CmdError Nat := do
  let v ← fieldInv m y
  return fieldMul m x v

end Sys2Proof.Machine
end

