-- ==== Sys2Proof/Machine/Group.lean ====
section
/-! DEFINITION. The curve functions of 41_curve.md R94 to R97, and the scalar-multiplication loop as resumable steps (10_state.md R36). -/

namespace Sys2Proof.Machine

/-- The curve `y² = x³ + ax + b` over FiniteField(p) (41_curve.md R94); only `ecOnCurve` reads b (30_encoding.md R70). -/
structure Curve where
  p : Nat
  a : Nat
  b : Nat
deriving DecidableEq, Repr

/-- The snapshot's curve (41_curve.md: `a = CFG.a`, `b = CFG.b`, p = CFG.p). -/
def Snapshot.curve (S : Snapshot) : Curve := ⟨S.p, S.a, S.b⟩

/-- `ec_on_curve(P)` (41_curve.md R94). -/
def ecOnCurve (c : Curve) : Point → Bool
  | .identity => true
  | .coord x y =>
    let lhs := fieldMul c.p y y
    let rhs := fieldAdd c.p (fieldAdd c.p (fieldMul c.p (fieldMul c.p x x) x) (fieldMul c.p c.a x)) c.b
    lhs == rhs

/-- The tangent's third point: slope `s = (3x² + a) / (2y)`, `x3 = s² - 2x`, `y3 = s·(x - x3) - y` (41_curve.md R95). -/
def tangentPoint (c : Curve) (x y : Nat) : Except CmdError Point := do
  let num := fieldAdd c.p (fieldMul c.p 3 (fieldMul c.p x x)) c.a
  let den := fieldMul c.p 2 y
  let s ← fieldDiv c.p num den
  let x3 := fieldSub c.p (fieldMul c.p s s) (fieldMul c.p 2 x)
  let y3 := fieldSub c.p (fieldMul c.p s (fieldSub c.p x x3)) y
  return .coord x3 y3

/-- `ec_double(P)` (41_curve.md R95). -/
def ecDouble (c : Curve) : Point → Except CmdError Point
  | .identity => .ok .identity
  | .coord x y => if y = 0 then .ok .identity else tangentPoint c x y

/-- The chord's third point: slope `s = (y2-y1)/(x2-x1)`, `x3 = s² - x1 - x2`, `y3 = s·(x1-x3) - y1` (41_curve.md R96). -/
def chordPoint (c : Curve) (x1 y1 x2 y2 : Nat) : Except CmdError Point := do
  let s ← fieldDiv c.p (fieldSub c.p y2 y1) (fieldSub c.p x2 x1)
  let x3 := fieldSub c.p (fieldSub c.p (fieldMul c.p s s) x1) x2
  let y3 := fieldSub c.p (fieldMul c.p s (fieldSub c.p x1 x3)) y1
  return .coord x3 y3

/-- `ec_add(P, Q)` (41_curve.md R96). The argument order matters when p is not prime (R103). -/
def ecAdd (c : Curve) (P Q : Point) : Except CmdError Point :=
  match P with
  | .identity => .ok Q
  | .coord x1 y1 =>
    match Q with
    | .identity => .ok (.coord x1 y1)
    | .coord x2 y2 =>
      if x1 = x2 then
        if y1 = y2 then ecDouble c (.coord x1 y1) else .ok .identity
      else chordPoint c x1 y1 x2 y2

/-- The addition of one iteration: `if e mod 2 = 1 then result <- ec_add(result, addend)`, "result first, as the source" (41_curve.md R97). -/
def mulAddend (c : Curve) (l : MulLoop) : Except CmdError Point :=
  if l.rem % 2 = 1 then ecAdd c l.result l.addend else .ok l.result

/-- One iteration of the loop of `ec_scalar_mult` (41_curve.md R97): the addition, then the doubling, "also after the last add". -/
def mulStep (c : Curve) (l : MulLoop) : Except CmdError MulLoop := do
  let result ← mulAddend c l
  let addend ← ecDouble c l.addend
  return ⟨result, addend, l.rem / 2⟩

/-- The loop of `ec_scalar_mult` "while e > 0" (41_curve.md R97), run at most `fuel` times. -/
def mulRun (c : Curve) : Nat → MulLoop → Except CmdError Point
  | 0, l => .ok l.result
  | fuel + 1, l =>
    if l.rem = 0 then .ok l.result
    else do
      let l' ← mulStep c l
      mulRun c fuel l'

/-- The loop from where it stands to its end; "the loop runs `bitlen(k)` times" (41_curve.md R97). -/
def mulFinish (c : Curve) (l : MulLoop) : Except CmdError Point := mulRun c (bitLen l.rem) l

/-- The loop's accumulators at its start (41_curve.md R97). -/
def MulLoop.start (P : Point) (k : Nat) : MulLoop := ⟨.identity, P, k⟩

/-- `ec_scalar_mult(P, k)` (41_curve.md R97), with its two fast paths. -/
def ecScalarMult (c : Curve) (P : Point) (k : Nat) : Except CmdError Point :=
  if k = 0 then .ok .identity
  else if k = 1 then .ok P
  else mulFinish c (MulLoop.start P k)

/-- A command's first (or only) multiplication k·P, carried on from the progress made (10_state.md R36). -/
def firstMul (c : Curve) (P : Point) (k : Nat) : MulProgress → Except CmdError Point
  | .notBegun => ecScalarMult c P k
  | .first l => mulFinish c l
  | .firstDone R => .ok R
  | .second R _ => .ok R

/-- VERIFY's second multiplication k·P, carried on from the progress made (10_state.md R36, 42_ecdsa.md R113). -/
def secondMul (c : Curve) (P : Point) (k : Nat) : MulProgress → Except CmdError Point
  | .notBegun => ecScalarMult c P k
  | .first _ => ecScalarMult c P k
  | .firstDone _ => ecScalarMult c P k
  | .second _ l => mulFinish c l

/-- One internal iteration of a command whose first multiplication is k·P and whose second, where it has one, is `next` (10_state.md R36).
An iteration that would raise leaves the progress as it is: the error ends the command at completion (10_state.md R35). -/
def mulAdvance (c : Curve) (P : Point) (k : Nat) (next : Option (Point × Nat)) (g : MulProgress) : MulProgress :=
  match g with
  | .notBegun =>
    if k = 0 then .firstDone .identity
    else if k = 1 then .firstDone P
    else .first (MulLoop.start P k)
  | .first l =>
    if l.rem = 0 then .firstDone l.result
    else match mulStep c l with
      | .ok l' => .first l'
      | .error _ => .first l
  | .firstDone R =>
    match next with
    | none => .firstDone R
    | some (Q, j) => if j < 2 then .firstDone R else .second R (MulLoop.start Q j)
  | .second R l =>
    if l.rem = 0 then .second R l
    else match mulStep c l with
      | .ok l' => .second R l'
      | .error _ => .second R l

end Sys2Proof.Machine
end

