-- ==== Sys2Proof/Machine/Curve.lean ====
section
/-! DEFINITION. The elliptic-curve commands (41_curve.md R98 to R101). -/

namespace Sys2Proof.Machine

/-- A point operand: `CFG.p ≠ 0`, then `S.PT[ra]` range-checked (41_curve.md R92, R93). -/
def Snapshot.checkedPoint (S : Snapshot) (ra : RegIdx) : Except CmdError Point := do
  S.checkP
  S.rangeCheck (S.point ra)
  return S.point ra

/-- `oncurve pta` (41_curve.md R98). -/
def execOncurve (ra : RegIdx) (s : State) : Host.Outcome State Fault Refusal :=
  s.withCommand fun run => s.finish do
    let P ← run.snap.checkedPoint ra
    return Commit.flag (ecOnCurve run.snap.curve P)

/-- `padd ptd, pta, ptb` (41_curve.md R99). -/
def execPadd (rd ra rb : RegIdx) (s : State) : Host.Outcome State Fault Refusal :=
  s.withCommand fun run => s.finish do
    let P ← run.snap.checkedPoint ra
    let Q ← run.snap.checkedPoint rb
    let V ← ecAdd run.snap.curve P Q
    return Commit.toPoint rd V

/-- `pdbl ptd, pta` (41_curve.md R100). -/
def execPdbl (rd ra : RegIdx) (s : State) : Host.Outcome State Fault Refusal :=
  s.withCommand fun run => s.finish do
    let P ← run.snap.checkedPoint ra
    let V ← ecDouble run.snap.curve P
    return Commit.toPoint rd V

/-- `pmul ptd, pta, rb` (41_curve.md R101); the multiplication is carried on from the progress made (10_state.md R36). -/
def execPmul (rd ra rb : RegIdx) (s : State) : Host.Outcome State Fault Refusal :=
  s.withCommand fun run => s.finish do
    let P ← run.snap.checkedPoint ra
    let V ← firstMul run.snap.curve P (run.snap.scalar rb) run.progress.mul
    return Commit.toPoint rd V

end Sys2Proof.Machine
end

