-- ==== Sys2Proof/Machine/Ecdsa.lean ====
section
/-! DEFINITION. The ECDSA commands (42_ecdsa.md R104 to R114).
KEYGEN and SIGN with the RNG source run from one RNG request to the next: a meaning answers the state in which the request is in flight,
and goes on from the answered state (20_memory.md R44: the engine "waits until the RNG answers"). -/

namespace Sys2Proof.Machine

/-! ### Preconditions and nonces -/

/-- The generator, range-checked (42_ecdsa.md R104 item 3). -/
def Snapshot.checkedGen (S : Snapshot) : Except CmdError Point := do
  S.rangeCheck S.gen
  return S.gen

/-- PUBKEY's preconditions: p, then the generator; "N_ORD is not read" (42_ecdsa.md R104, R108). -/
def Snapshot.pubkeyChecks (S : Snapshot) : Except CmdError Point := do
  S.checkP
  S.checkedGen

/-- The preconditions of KEYGEN and SIGN in their order (42_ecdsa.md R104, R107): p, n, the generator, the host nonce. -/
def Snapshot.nonceCommandChecks (S : Snapshot) : Except CmdError Point := do
  S.checkP
  S.checkN
  let G ← S.checkedGen
  S.nonceCheck
  return G

/-- What `draw_nonce()` finds (42_ecdsa.md R106). -/
inductive Draw where
  /-- A nonce: K_IN, or the RNG's answer. -/
  | got (k : Nat)
  /-- The RNG has not been asked for this key or attempt. -/
  | ask
  /-- The request is in flight. -/
  | wait
deriving DecidableEq, Repr

/-- `draw_nonce()` (42_ecdsa.md R106): K_IN when NONCE_SRC = 1, else one RNG request and its answer. -/
def Running.draw (run : Running) : Draw :=
  if run.snap.nonceSrc then .got run.snap.kin
  else match run.progress.nonce with
    | .unasked => .ask
    | .requested => .wait
    | .answered k => .got k

/-! ### Keys -/

/-- `pubkey ptd, ra` (42_ecdsa.md R108). -/
def execPubkey (rd ra : RegIdx) (s : State) : Host.Outcome State Fault Refusal :=
  s.withCommand fun run => s.finish do
    let G ← run.snap.pubkeyChecks
    let Q ← firstMul run.snap.curve G (run.snap.scalar ra) run.progress.mul
    return Commit.toPoint rd Q

/-- `keygen rd, ptd` (42_ecdsa.md R109): one draw, no rejection; R[rd] <- d and PT[rd] <- Q. -/
def execKeygen (rd : RegIdx) (s : State) : Host.Outcome State Fault Refusal :=
  s.withCommand fun run =>
    match run.snap.nonceCommandChecks with
    | .error e => .next (s.raise e none)
    | .ok G =>
      match run.draw with
      | .ask => .next (s.requestNonce run 0)
      | .wait => .next s
      | .got d => s.finish do
        let Q ← firstMul run.snap.curve G d run.progress.mul
        return { scalars := [(rd, d)], point := some (rd, Q) }

/-! ### Signing -/

/-- The part of a signing attempt after `Rpt` (42_ecdsa.md R110); `none` is REJECT. -/
def signFromPoint (n z d k : Nat) : Point → Except CmdError (Option (Nat × Nat))
  | .identity => .ok none
  | .coord x _ =>
    let r := x % n
    if r = 0 then .ok none
    else do
      let s ← fieldDiv n (fieldAdd n z (fieldMul n r d)) k
      return if s = 0 then none else some (r, s)

/-- `sign_attempt(z, d, k)` (42_ecdsa.md R110). -/
def signAttempt (c : Curve) (n : Nat) (G : Point) (z d k : Nat) : Except CmdError (Option (Nat × Nat)) := do
  let Rpt ← ecScalarMult c G k
  signFromPoint n z d k Rpt

/-- The retry budget: MAX_SIGN_ATTEMPTS with the RNG, 1 with the host nonce (42_ecdsa.md R111). -/
def signBudget (s : State) (run : Running) : Nat :=
  if run.snap.nonceSrc then 1 else s.params.maxSignAttempts

/-- The t of the current attempt (42_ecdsa.md R111): the host nonce makes only attempt 1. -/
def signTurn (run : Running) : Nat := if run.snap.nonceSrc then 1 else run.progress.rejected + 1

/-- `sign_attempt(H mod n, d, k)` of the running SIGN (42_ecdsa.md R110, R112), its multiplication carried on from the progress made (10_state.md R36). -/
def Running.signOutcome (run : Running) (G : Point) (ra rb : RegIdx) (k : Nat) : Except CmdError (Option (Nat × Nat)) := do
  let Rpt ← firstMul run.snap.curve G k run.progress.mul
  signFromPoint run.snap.n (run.snap.scalar ra % run.snap.n) (run.snap.scalar rb) k Rpt

/-- What follows one attempt (42_ecdsa.md R111): a signature ends the command, a rejection asks for the next nonce while the budget lasts
and then raises SIGN_FAIL. ATTEMPTS is t on success and on DIV_BY_ZERO, the budget on SIGN_FAIL. -/
def signSettle (rd rc : RegIdx) (s : State) (run : Running) : Except CmdError (Option (Nat × Nat)) → Host.Outcome State Fault Refusal
  | .error e => .next (s.raise e (some (signTurn run)))
  | .ok (some (r, v)) => .next (s.commit { scalars := [(rd, r), (rc, v)], attempts := some (signTurn run) })
  | .ok none =>
    if signTurn run < signBudget s run then .next (s.requestNonce run (signTurn run))
    else .next (s.raise .signFail (some (signBudget s run)))

/-- `sign rd, rc, ra, rb` (42_ecdsa.md R111, R112): ATTEMPTS is 0 when a precondition fails; else one attempt with the nonce drawn. -/
def execSign (rd ra rb rc : RegIdx) (s : State) : Host.Outcome State Fault Refusal :=
  s.withCommand fun run =>
    match run.snap.nonceCommandChecks with
    | .error e => .next (s.raise e (some 0))
    | .ok G =>
      match run.draw with
      | .ask => .next (s.requestNonce run run.progress.rejected)
      | .wait => .next s
      | .got k => signSettle rd rc s run (run.signOutcome G ra rb k)

/-! ### Verification -/

/-- The signature range test that comes first (42_ecdsa.md R113): `r = 0 or r >= n or s = 0 or s >= n`. -/
def sigOutOfRange (n r s : Nat) : Bool := r == 0 || decide (n ≤ r) || s == 0 || decide (n ≤ s)

/-- The two multiplications of `ecdsa_verify` (42_ecdsa.md R113): u1·G and u2·Q. -/
structure VerifyPlan where
  gen : Point
  u1 : Nat
  key : Point
  u2 : Nat
deriving DecidableEq, Repr

/-- `ecdsa_verify` up to its multiplications (42_ecdsa.md R113); `none` means the range test failed and the verdict is false. -/
def verifyPlan (S : Snapshot) (H r s : Nat) (Q : Point) : Except CmdError (Option VerifyPlan) :=
  if sigOutOfRange S.n r s then .ok none
  else do
    let G ← S.checkedGen
    S.rangeCheck Q
    let z := H % S.n
    let w ← fieldInv S.n s
    return some ⟨G, fieldMul S.n z w, Q, fieldMul S.n r w⟩

/-- The verdict from the two products (42_ecdsa.md R113): the point sum's x mod n against r. -/
def verifyVerdict (c : Curve) (n r : Nat) (P1 P2 : Point) : Except CmdError Bool := do
  let P ← ecAdd c P1 P2
  return match P with
    | .identity => false
    | .coord x _ => x % n == r

/-- `ecdsa_verify` after its plan (42_ecdsa.md R113), the multiplications carried on from the progress made (10_state.md R36). -/
def verifyOutcome (S : Snapshot) (r : Nat) (g : MulProgress) : Option VerifyPlan → Except CmdError Bool
  | none => .ok false
  | some w => do
    let P1 ← firstMul S.curve w.gen w.u1 g
    let P2 ← secondMul S.curve w.key w.u2 g
    verifyVerdict S.curve S.n r P1 P2

/-- `ecdsa_verify(H, r, s, Q)` (42_ecdsa.md R113). -/
def ecdsaVerify (S : Snapshot) (H r s : Nat) (Q : Point) : Except CmdError Bool := do
  let w ← verifyPlan S H r s Q
  verifyOutcome S r .notBegun w

/-- VERIFY's preconditions and plan (42_ecdsa.md R114): p, n, then `ecdsa_verify`. -/
def verifyStart (rd ra rb rc : RegIdx) (S : Snapshot) : Except CmdError (Option VerifyPlan) := do
  S.checkP
  S.checkN
  verifyPlan S (S.scalar ra) (S.scalar rb) (S.scalar rc) (S.point rd)

/-- `verify ra, rb, rc, ptd` (42_ecdsa.md R114). -/
def execVerify (rd ra rb rc : RegIdx) (s : State) : Host.Outcome State Fault Refusal :=
  s.withCommand fun run => s.finish do
    let w ← verifyStart rd ra rb rc run.snap
    let v ← verifyOutcome run.snap (run.snap.scalar rb) run.progress.mul w
    return Commit.flag v

end Sys2Proof.Machine
end

