-- ==== Sys2Proof/Machine/Field.lean ====
section
/-! DEFINITION. The finite-field commands (40_field.md R85 to R89). -/

namespace Sys2Proof.Machine

/-- A field command: `m` by M, BAD_MODULUS when it is 0, then one value into R[rd] (the shared shape of 40_field.md R85 to R89). -/
def fieldCommand (sel : ModSel) (rd : RegIdx) (value : Nat → Snapshot → Except CmdError Nat) (s : State) :
    Host.Outcome State Fault Refusal :=
  s.withCommand fun run => s.finish do
    let m ← run.snap.checkedModulus sel
    let v ← value m run.snap
    return Commit.scalar rd v

/-- FADD's value `field_add_m(S.R[ra], S.R[rb])` (40_field.md R85). -/
def addValue (ra rb : RegIdx) (m : Nat) (S : Snapshot) : Except CmdError Nat := .ok (fieldAdd m (S.scalar ra) (S.scalar rb))

/-- FSUB's value `field_sub_m(S.R[ra], S.R[rb])` (40_field.md R86). -/
def subValue (ra rb : RegIdx) (m : Nat) (S : Snapshot) : Except CmdError Nat := .ok (fieldSub m (S.scalar ra) (S.scalar rb))

/-- FMUL's value `field_mul_m(S.R[ra], S.R[rb])` (40_field.md R87). -/
def mulValue (ra rb : RegIdx) (m : Nat) (S : Snapshot) : Except CmdError Nat := .ok (fieldMul m (S.scalar ra) (S.scalar rb))

/-- FINV's value `field_inv_m(S.R[ra])` (40_field.md R88). -/
def invValue (ra : RegIdx) (m : Nat) (S : Snapshot) : Except CmdError Nat := fieldInv m (S.scalar ra)

/-- FDIV's value `field_div_m(S.R[ra], S.R[rb])` (40_field.md R89). -/
def divValue (ra rb : RegIdx) (m : Nat) (S : Snapshot) : Except CmdError Nat := fieldDiv m (S.scalar ra) (S.scalar rb)

/-- `fadd.p rd, ra, rb` (40_field.md R85). -/
def execFaddP (rd ra rb : RegIdx) (s : State) : Host.Outcome State Fault Refusal := fieldCommand .p rd (addValue ra rb) s

/-- `fadd.n rd, ra, rb` (40_field.md R85). -/
def execFaddN (rd ra rb : RegIdx) (s : State) : Host.Outcome State Fault Refusal := fieldCommand .n rd (addValue ra rb) s

/-- `fsub.p rd, ra, rb`: ra - rb (40_field.md R86). -/
def execFsubP (rd ra rb : RegIdx) (s : State) : Host.Outcome State Fault Refusal := fieldCommand .p rd (subValue ra rb) s

/-- `fsub.n rd, ra, rb`: ra - rb (40_field.md R86). -/
def execFsubN (rd ra rb : RegIdx) (s : State) : Host.Outcome State Fault Refusal := fieldCommand .n rd (subValue ra rb) s

/-- `fmul.p rd, ra, rb` (40_field.md R87). -/
def execFmulP (rd ra rb : RegIdx) (s : State) : Host.Outcome State Fault Refusal := fieldCommand .p rd (mulValue ra rb) s

/-- `fmul.n rd, ra, rb` (40_field.md R87). -/
def execFmulN (rd ra rb : RegIdx) (s : State) : Host.Outcome State Fault Refusal := fieldCommand .n rd (mulValue ra rb) s

/-- `finv.p rd, ra` (40_field.md R88). -/
def execFinvP (rd ra : RegIdx) (s : State) : Host.Outcome State Fault Refusal := fieldCommand .p rd (invValue ra) s

/-- `finv.n rd, ra` (40_field.md R88). -/
def execFinvN (rd ra : RegIdx) (s : State) : Host.Outcome State Fault Refusal := fieldCommand .n rd (invValue ra) s

/-- `fdiv.p rd, ra, rb`: ra / rb (40_field.md R89). -/
def execFdivP (rd ra rb : RegIdx) (s : State) : Host.Outcome State Fault Refusal := fieldCommand .p rd (divValue ra rb) s

/-- `fdiv.n rd, ra, rb`: ra / rb (40_field.md R89). -/
def execFdivN (rd ra rb : RegIdx) (s : State) : Host.Outcome State Fault Refusal := fieldCommand .n rd (divValue ra rb) s

end Sys2Proof.Machine
end

