-- ==== Sys2Proof/Machine/Dispatch.lean ====
section
/-! DEFINITION. The meaning of every command: one arm per constructor, each one direct call. -/

namespace Sys2Proof.Machine

def exec (i : Instr) (s : State) : Host.Outcome State Fault Refusal :=
  match i with
  | .faddP rd ra rb => Sys2Proof.Machine.execFaddP rd ra rb s
  | .faddN rd ra rb => Sys2Proof.Machine.execFaddN rd ra rb s
  | .fsubP rd ra rb => Sys2Proof.Machine.execFsubP rd ra rb s
  | .fsubN rd ra rb => Sys2Proof.Machine.execFsubN rd ra rb s
  | .fmulP rd ra rb => Sys2Proof.Machine.execFmulP rd ra rb s
  | .fmulN rd ra rb => Sys2Proof.Machine.execFmulN rd ra rb s
  | .finvP rd ra => Sys2Proof.Machine.execFinvP rd ra s
  | .finvN rd ra => Sys2Proof.Machine.execFinvN rd ra s
  | .fdivP rd ra rb => Sys2Proof.Machine.execFdivP rd ra rb s
  | .fdivN rd ra rb => Sys2Proof.Machine.execFdivN rd ra rb s
  | .oncurve ra => Sys2Proof.Machine.execOncurve ra s
  | .padd rd ra rb => Sys2Proof.Machine.execPadd rd ra rb s
  | .pdbl rd ra => Sys2Proof.Machine.execPdbl rd ra s
  | .pmul rd ra rb => Sys2Proof.Machine.execPmul rd ra rb s
  | .pubkey rd ra => Sys2Proof.Machine.execPubkey rd ra s
  | .keygen rd => Sys2Proof.Machine.execKeygen rd s
  | .sign rd ra rb rc => Sys2Proof.Machine.execSign rd ra rb rc s
  | .verify rd ra rb rc => Sys2Proof.Machine.execVerify rd ra rb rc s

end Sys2Proof.Machine
end

