-- ==== Sys2Proof/Machine/Engine.lean ====
section
/-! DEFINITION. What each agent's event does: the engine (10_state.md R32, R35, R36), the RNG (20_memory.md R44),
the host bus (20_memory.md R43) and reset (70_reset_and_hazards.md R137 to R139). -/

namespace Sys2Proof.Machine

open Sys2Proof.Config

/-! ### The engine -/

/-- The scalar multiplications a running command makes, where it makes any and stands before or inside them:
the first k·P, and VERIFY's second (10_state.md R36; 41_curve.md R101; 42_ecdsa.md R108 to R114). -/
def mulOperands (i : Instr) (run : Running) : Option ((Point × Nat) × Option (Point × Nat)) :=
  let S := run.snap
  match i with
  | .pmul _ ra rb =>
    match S.checkedPoint ra with
    | .ok P => some ((P, S.scalar rb), none)
    | .error _ => none
  | .pubkey _ ra =>
    match S.pubkeyChecks with
    | .ok G => some ((G, S.scalar ra), none)
    | .error _ => none
  | .keygen _ | .sign _ _ _ _ =>
    match S.nonceCommandChecks, run.draw with
    | .ok G, .got k => some ((G, k), none)
    | _, _ => none
  | .verify rd ra rb rc =>
    match verifyStart rd ra rb rc S with
    | .ok (some w) => some ((w.gen, w.u1), some (w.key, w.u2))
    | _ => none
  | .faddP _ _ _ | .faddN _ _ _ | .fsubP _ _ _ | .fsubN _ _ _ | .fmulP _ _ _ | .fmulN _ _ _ => none
  | .finvP _ _ | .finvN _ _ | .fdivP _ _ _ | .fdivN _ _ _ => none
  | .oncurve _ | .padd _ _ _ | .pdbl _ _ => none

/-- One internal iteration of the running command i: only its accumulators change (10_state.md R36). -/
def Running.advance (run : Running) (i : Instr) : Running :=
  match mulOperands i run with
  | none => run
  | some ((P, k), next) =>
    { run with progress := { run.progress with mul := mulAdvance run.snap.curve P k next run.progress.mul } }

/-- The event `work`. -/
def State.engineWork (s : State) : State :=
  match s.engine with
  | .idle => s
  | .busy run =>
    match decode run.word with
    | .error _ => s
    | .ok i => { s with engine := .busy (run.advance i) }

/-- The event `run`: an IDLE engine does nothing; an illegal word ends with ILLEGAL_CMD "without reading any operand" (30_encoding.md R72);
any other word is executed. -/
def State.engineRun (s : State) : Host.Outcome State Fault Refusal :=
  match s.engine with
  | .idle => .next s
  | .busy run =>
    match decode run.word with
    | .error _ => .next (s.raise .illegalCmd none)
    | .ok i => exec i s

/-! ### The RNG -/

/-- The event `rng request k`: the answer to the request in flight (20_memory.md R44), which is the last one issued.
An answer to no request or to another one "is ignored and is never used by a later command" (70_reset_and_hazards.md R138).
An answer outside [1, n-1] is refused (93_implementation_defined.md U9). -/
def State.rngAnswer (s : State) (request k : Nat) : Host.Outcome State Fault Refusal :=
  match s.engine with
  | .idle => .next s
  | .busy run =>
    if run.progress.nonce = .requested ∧ request = s.rngRequests then
      if 1 ≤ k ∧ k ≤ run.snap.n - 1 then .next (s.withProgress run { run.progress with nonce := .answered k })
      else .refused .rngAnswerOutOfRange
    else .next s

/-! ### The host bus -/

/-- The window offset of a bus address, where the address is in the window (20_memory.md R41). -/
def windowOffset (p : Params) (addr : Nat) : Option Nat :=
  if p.base ≤ addr ∧ addr < p.base + windowSize then some (addr - p.base) else none

/-- A transaction at a window offset (20_memory.md R43): accepted only when it is a whole aligned word, else the response is ERROR
and no state changes (R52, 60_exceptions.md R124). -/
def State.busAt (s : State) (off : Nat) : BusTxn → State
  | .read _ width =>
    if off % 4 = 0 ∧ width = .word then { s with response := some (.okayRead (s.readWord off)) }
    else { s with response := some .error }
  | .write _ enables value =>
    if off % 4 = 0 ∧ enables = 0xF then { s.writeTarget (targetOf off) value with response := some .okayWrite }
    else { s with response := some .error }

/-- The bus address of a transaction. -/
def BusTxn.addr : BusTxn → Nat
  | .read addr _ => addr
  | .write addr _ _ => addr

/-- The event `host txn`. -/
def State.busTxn (s : State) (t : BusTxn) : Host.Outcome State Fault Refusal :=
  match windowOffset s.params t.addr with
  | none => .fault .addressOutsideWindow
  | some off => .next (s.busAt off t)

/-! ### Reset -/

/-- The event `reset` (70_reset_and_hazards.md R137, R138): every piece of the block's state takes its reset value.
The instance, the events to come and the counts of free values and of RNG requests are not the block's state and stay. -/
def State.resetBlock (s : State) : State :=
  { State.resetOf s.params with schedule := s.schedule, freeCount := s.freeCount, rngRequests := s.rngRequests }

/-- The answer to a transaction that overlaps reset: unspecified (70_reset_and_hazards.md R139). -/
def overlapResponse (n : Nat) : BusTxn → Response
  | .read _ _ => if freeOkay n then .okayRead (freeReadWord n) else .error
  | .write _ _ _ => if freeOkay n then .okayWrite else .error

/-- The event `resetDuring txn`: "after reset the state is the reset state either way" (70_reset_and_hazards.md R139). -/
def State.resetOverlapped (s : State) (t : BusTxn) : Host.Outcome State Fault Refusal :=
  match windowOffset s.params t.addr with
  | none => .fault .addressOutsideWindow
  | some _ =>
    .next { s.resetBlock with response := some (overlapResponse s.freeCount t), freeCount := s.freeCount + 1 }

/-! ### All of them -/

/-- What one event does (20_memory.md R56: one at a time, each completely). -/
def State.perform (s : State) : Event → Host.Outcome State Fault Refusal
  | .host t => s.busTxn t
  | .work => .next s.engineWork
  | .run => s.engineRun
  | .rng request k => s.rngAnswer request k
  | .reset => .next s.resetBlock
  | .resetDuring t => s.resetOverlapped t

end Sys2Proof.Machine
end

