-- ==== Sys2Proof/Machine/Step.lean ====
section
/-! DEFINITION. One step: the next scheduled event, or the engine's own move when nothing is scheduled. -/

namespace Sys2Proof.Machine

/-- One step (log entry 1). The schedule says which agent moves next, so every order of events that 20_memory.md R56 and
60_exceptions.md R128 admit is the run of some state; with nothing scheduled the engine moves on its own (70_reset_and_hazards.md R149). -/
def step (s : State) : Host.Outcome State Fault Refusal :=
  match s.schedule with
  | [] => s.engineRun
  | e :: rest => { s with schedule := rest }.perform e

/-- The state in which the engine has just accepted the given command word (10_state.md R33) and moves next (log entry 2):
the block has no program counter, so this is where an instruction is fetched from. -/
def State.withFetchWord (s : State) (nbits w : Nat) : State :=
  { s.accept (tableWord nbits w) with schedule := .run :: s.schedule }

end Sys2Proof.Machine
end

