-- ==== Sys2Proof/Machine/HostOps.lean ====
section
/-! DEFINITION. The host notation of 30_encoding.md R77 as lists of scheduled events, and the host's digest conversion (42_ecdsa.md R105).
Nothing of the block depends on this file; it says what the spec's programs ask of the bus. -/

namespace Sys2Proof.Machine

open Sys2Proof.Config

/-- `wr OFF, v`: `MemWrite(BASE + OFF, 4, v)`. -/
def hostWrite (p : Params) (off : Nat) (v : Word) : Event := .host (.write (p.base + off) 0xF v)

/-- `rd OFF`: `MemRead(BASE + OFF, 4)`. -/
def hostRead (p : Params) (off : Nat) : Event := .host (.read (p.base + off) .word)

/-- `wbig OFF, v`: "the NW writes MemWrite(BASE + OFF + 4·j, 4, v[32·j+31 : 32·j]) for j = 0..NW-1". -/
def hostWriteBig (p : Params) (off v : Nat) : List Event :=
  (List.range p.nw).map fun j => hostWrite p (off + 4 * j) (wordSlice v j)

/-- `rdbig OFF`: "the NW matching reads". -/
def hostReadBig (p : Params) (off : Nat) : List Event :=
  (List.range p.nw).map fun j => hostRead p (off + 4 * j)

/-- The reads of `rdbig` assembled: `v = Σ_{j=0}^{NW-1} word_j · 2^(32·j)` (20_memory.md R47). -/
def bigOfWords : List Word → Nat
  | [] => 0
  | w :: rest => w.toNat + 2 ^ 32 * bigOfWords rest

/-- The RNG's answers to the requests numbered from `request` on, each followed by the engine's next move. -/
def answerEvents (request : Nat) : List Nat → List Event
  | [] => []
  | k :: rest => .rng request k :: .run :: answerEvents (request + 1) rest

/-- `run <command>`: the CMD write, the engine's moves (with the RNG's answers to its requests, the first of them numbered `request`),
and the STATUS read that finds DONE = 1. -/
def runCmd (p : Params) (c : Word) (request : Nat) (answers : List Nat) : List Event :=
  hostWrite p 0x010 c :: .run :: answerEvents request answers ++ [hostRead p 0x00C]

/-- `ack`: "MemWrite(BASE + 0x00C, 4, 0x16), clearing DONE, ERR and WDROP". -/
def ack (p : Params) : Event := hostWrite p 0x00C 0x16

/-- Whether an event is a bus transaction of the host. -/
def Event.isHost : Event → Bool
  | .host _ => true
  | .resetDuring _ => true
  | .work => false
  | .run => false
  | .rng _ _ => false
  | .reset => false

/-- The end of a host program's run: "the host has performed its last bus transaction and the engine is IDLE"
(70_reset_and_hazards.md R150). Events of the engine, the RNG or reset may still be to come. -/
def State.ended (s : State) : Bool := s.schedule.all (fun e => !e.isHost) && !s.busy

/-- The digest integer `H = Σ h_i · 256^(L-1-i)`, big-endian (42_ecdsa.md R105, 20_memory.md R64). -/
def digestInteger (bytes : List (BitVec 8)) : Nat := bytes.foldl (fun H h => H * 256 + h.toNat) 0

end Sys2Proof.Machine
end

