-- ==== Sys2Proof/Safety.lean ====
section
/-! DEFINITION. The terms claims use: the destinations of a command, the invariant of the block, the spec's signing loop as one function,
and the premises of the mathematical claims (93_implementation_defined.md U2 to U5). -/

namespace Sys2Proof.Machine

open Sys2Proof.Config

/-! ### Destinations -/

/-- The scalar registers a command may write (30_encoding.md R70, `R dst`). -/
def scalarDests : Instr → List RegIdx
  | .faddP rd _ _ | .faddN rd _ _ | .fsubP rd _ _ | .fsubN rd _ _ | .fmulP rd _ _ | .fmulN rd _ _ => [rd]
  | .finvP rd _ | .finvN rd _ | .fdivP rd _ _ | .fdivN rd _ _ => [rd]
  | .oncurve _ | .padd _ _ _ | .pdbl _ _ | .pmul _ _ _ | .pubkey _ _ => []
  | .keygen rd => [rd]
  | .sign rd _ _ rc => [rd, rc]
  | .verify _ _ _ _ => []

/-- The point register a command may write (30_encoding.md R70, `PT dst`). -/
def pointDests : Instr → List RegIdx
  | .faddP _ _ _ | .faddN _ _ _ | .fsubP _ _ _ | .fsubN _ _ _ | .fmulP _ _ _ | .fmulN _ _ _ => []
  | .finvP _ _ | .finvN _ _ | .fdivP _ _ _ | .fdivN _ _ _ => []
  | .oncurve _ => []
  | .padd rd _ _ | .pdbl rd _ | .pmul rd _ _ | .pubkey rd _ | .keygen rd => [rd]
  | .sign _ _ _ _ | .verify _ _ _ _ => []

/-- The commands that write RESULT (30_encoding.md R70). -/
def writesResult : Instr → Bool
  | .oncurve _ | .verify _ _ _ _ => true
  | .faddP _ _ _ | .faddN _ _ _ | .fsubP _ _ _ | .fsubN _ _ _ | .fmulP _ _ _ | .fmulN _ _ _ => false
  | .finvP _ _ | .finvN _ _ | .fdivP _ _ _ | .fdivN _ _ _ => false
  | .padd _ _ _ | .pdbl _ _ | .pmul _ _ _ | .pubkey _ _ | .keygen _ | .sign _ _ _ _ => false

/-- SIGN, the one command that writes ATTEMPTS (30_encoding.md R70). -/
def isSign : Instr → Bool
  | .sign _ _ _ _ => true
  | .faddP _ _ _ | .faddN _ _ _ | .fsubP _ _ _ | .fsubN _ _ _ | .fmulP _ _ _ | .fmulN _ _ _ => false
  | .finvP _ _ | .finvN _ _ | .fdivP _ _ _ | .fdivN _ _ _ => false
  | .oncurve _ | .padd _ _ _ | .pdbl _ _ | .pmul _ _ _ | .pubkey _ _ | .keygen _ | .verify _ _ _ _ => false

/-- The commands that draw a nonce (42_ecdsa.md R106). -/
def drawsNonce : Instr → Bool
  | .keygen _ | .sign _ _ _ _ => true
  | .faddP _ _ _ | .faddN _ _ _ | .fsubP _ _ _ | .fsubN _ _ _ | .fmulP _ _ _ | .fmulN _ _ _ => false
  | .finvP _ _ | .finvN _ _ | .fdivP _ _ _ | .fdivN _ _ _ => false
  | .oncurve _ | .padd _ _ _ | .pdbl _ _ | .pmul _ _ _ | .pubkey _ _ | .verify _ _ _ _ => false

/-- Whether a target of the window holds a destination of the command. -/
def isDestTarget (i : Instr) : Target → Bool
  | .big (.scalar j) _ => (scalarDests i).contains j
  | .big (.ptX j) _ => (pointDests i).contains j
  | .big (.ptY j) _ => (pointDests i).contains j
  | .ptInf j => (pointDests i).contains j
  | .big .pMod _ | .big .nOrd _ | .big .curveA _ | .big .curveB _ | .big .gx _ | .big .gy _ | .big .kIn _ => false
  | .id | .param | .ctrl | .status | .cmd | .lastcmd | .genInf | .reserved => false

/-- The errors a command other than an illegal word can end with (60_exceptions.md R117, column "raised by"). -/
def allowedErrors : Instr → List CmdError
  | .faddP _ _ _ | .faddN _ _ _ | .fsubP _ _ _ | .fsubN _ _ _ | .fmulP _ _ _ | .fmulN _ _ _ => [.badModulus]
  | .finvP _ _ | .finvN _ _ | .fdivP _ _ _ | .fdivN _ _ _ => [.badModulus, .divByZero]
  | .oncurve _ => [.badModulus, .pointRange]
  | .padd _ _ _ | .pdbl _ _ | .pmul _ _ _ | .pubkey _ _ => [.badModulus, .pointRange, .divByZero]
  | .keygen _ => [.badModulus, .badOrder, .pointRange, .nonceRange, .divByZero]
  | .sign _ _ _ _ => [.badModulus, .badOrder, .pointRange, .nonceRange, .divByZero, .signFail]
  | .verify _ _ _ _ => [.badModulus, .badOrder, .pointRange, .divByZero]

/-! ### Encodings -/

/-- A word of format C with this OP and no reserved bit set (30_encoding.md R65, R69). -/
def HasOp (c : Word) (op : Nat) : Prop := bitsOf c 0 6 = op ∧ bitsOf c 7 1 = 0 ∧ bitsOf c 24 8 = 0

/-- A field command's encoding: OP selects it, M = 0 its `.p` form and M = 1 its `.n` form (30_encoding.md R67, R71). -/
def FieldEncodedAs (op : Nat) (p n : Word → Instr) : Prop :=
  ∀ c, HasOp c op → (bitsOf c 6 1 = 0 → decode c = .ok (p c)) ∧ (bitsOf c 6 1 = 1 → decode c = .ok (n c))

/-- Any other command's encoding: OP selects it with M = 0, and M = 1 is illegal (30_encoding.md R67, R71). -/
def PlainEncodedAs (op : Nat) (f : Word → Instr) : Prop :=
  ∀ c, HasOp c op → (bitsOf c 6 1 = 0 → (f c).wellFormed = true → decode c = .ok (f c)) ∧
    (bitsOf c 6 1 = 1 → decode c = .error .modulusSelect)

/-! ### The invariant -/

/-- Every configuration register is below 2^W (10_state.md R22, R23). -/
def ConfigRegs.Fits (c : ConfigRegs) (bound : Nat) : Prop :=
  c.p < bound ∧ c.n < bound ∧ c.a < bound ∧ c.b < bound ∧ c.gx < bound ∧ c.gy < bound ∧ c.kin < bound

/-- Every big register is below 2^W (10_state.md R17, R21, R22; 00_scope.md R7). -/
def State.Fits (s : State) : Prop :=
  (∀ i : RegIdx, s.r[i] < 2 ^ s.params.width) ∧
  (∀ i : RegIdx, s.pt[i].x < 2 ^ s.params.width ∧ s.pt[i].y < 2 ^ s.params.width) ∧
  s.cfg.Fits (2 ^ s.params.width)

/-- The multiplications in progress will end as `ec_scalar_mult` would (10_state.md R34, R36). -/
def MulFaithful (i : Instr) (run : Running) : Prop :=
  match mulOperands i run with
  | none => run.progress.mul = .notBegun
  | some ((P, k), next) =>
    firstMul run.snap.curve P k run.progress.mul = ecScalarMult run.snap.curve P k ∧
    ∀ Q j, next = some (Q, j) → secondMul run.snap.curve Q j run.progress.mul = ecScalarMult run.snap.curve Q j

/-- What holds of the engine and STATUS while a command runs. -/
structure RunningOk (s : State) (run : Running) : Prop where
  /-- LASTCMD is the running command's word (10_state.md R30, R33). -/
  lastcmd : s.lastcmd = run.word
  /-- "S equals the live registers for the whole command except CTRL.NONCE_SRC" (10_state.md R33). -/
  snapshot : run.snap = { s.snapshot with nonceSrc := run.snap.nonceSrc }
  /-- Acceptance needs ERR = 0 and clears DONE, RESULT and ATTEMPTS, and nothing sets them before completion (10_state.md R33, R35). -/
  quiet : s.status.done = false ∧ s.status.err = false ∧ s.status.result = false ∧ s.status.attempts = 0
  /-- An illegal word makes no progress before it ends (30_encoding.md R72). -/
  illegal : ∀ e, decode run.word = .error e → run.progress = .start
  /-- Only KEYGEN and SIGN with the RNG source, their preconditions met, ask for a nonce (20_memory.md R44). -/
  nonce : ∀ i, decode run.word = .ok i → run.progress.nonce ≠ .unasked →
    drawsNonce i = true ∧ run.snap.nonceSrc = false ∧ ∃ G, run.snap.nonceCommandChecks = .ok G
  /-- The RNG's contract (20_memory.md R44). -/
  answer : ∀ k, run.progress.nonce = .answered k → 1 ≤ k ∧ k ≤ run.snap.n - 1
  /-- The attempt counter stays below the budget (42_ecdsa.md R111). -/
  rejected : run.progress.rejected < s.params.maxSignAttempts
  /-- The accumulators are those of the command's multiplications (10_state.md R36). -/
  mul : ∀ i, decode run.word = .ok i → MulFaithful i run

/-- The invariant of the block: every step keeps it and reset has it. -/
structure State.Inv (s : State) : Prop where
  params : s.params.wf = true
  fits : s.Fits
  /-- ERRCODE is "0 when ERR = 0" and a code when ERR = 1 (10_state.md R27, R28). -/
  errcode : s.status.err = s.status.errcode.isSome
  running : ∀ run, s.engine = .busy run → RunningOk s run

/-- The answer to the RNG request of this number is never used from s on: the request was issued, and it is not the one in flight
(70_reset_and_hazards.md R138). -/
def State.Abandoned (s : State) (request : Nat) : Prop :=
  request ≤ s.rngRequests ∧ (s.rngRequest ≠ none → request < s.rngRequests)

/-! ### The signing loop as one function -/

/-- What a SIGN ends with (42_ecdsa.md R111, R112). -/
inductive SignEnd where
  /-- The signature of attempt t. -/
  | signature (r s t : Nat)
  /-- An error in attempt t; SIGN_FAIL after the last. -/
  | failed (e : CmdError) (t : Nat)
  /-- The answers given did not suffice: attempt t waits for its nonce. -/
  | waiting (t : Nat)
deriving DecidableEq, Repr

/-- `sign_loop` of 42_ecdsa.md R111 from attempt t on, over the sequence of nonces the RNG returns. -/
def signLoop (c : Curve) (n : Nat) (G : Point) (z d budget : Nat) : Nat → List Nat → SignEnd
  | t, [] => .waiting t
  | t, k :: ks =>
    match signAttempt c n G z d k with
    | .error e => .failed e t
    | .ok (some (r, s)) => .signature r s t
    | .ok none => if t < budget then signLoop c n G z d budget (t + 1) ks else .failed .signFail budget

/-! ### Premises of the mathematical claims -/

/-- p is an odd prime and the curve is non-singular, `4a³ + 27b² ≢ 0 (mod p)` (41_curve.md R102). -/
def Curve.Good (c : Curve) : Prop :=
  c.p.Prime ∧ c.p % 2 = 1 ∧ (4 * c.a ^ 3 + 27 * c.b ^ 2) % c.p ≠ 0

/-- A point the range check admits (41_curve.md R92) that lies on the curve (41_curve.md R94). -/
def Curve.On (c : Curve) (P : Point) : Prop := P.inRange c.p = true ∧ ecOnCurve c P = true

/-- `negate(Coordinate(x,y)) = Coordinate(x, (p - y) mod p)` (41_curve.md R102, 90_conflicts.md C6). -/
def negate (p : Nat) : Point → Point
  | .identity => .identity
  | .coord x y => .coord x ((p - y) % p)

end Sys2Proof.Machine
end

