-- ==== Sys2Proof/Certificates/Slice0/Obligations.lean ====
section
/-! DEFINITION. The statements for the provers. Each docstring names the rule of spec/ it formalises; a rule's file is named once per part.
`none` is written for "ATTEMPTS not written" in `State.raise`; what `State.raise` does is `Obligations.ErrorsArePrecise`. -/

open Sys2Proof Sys2Proof.Machine Sys2Proof.Config

/-! ### Encoding (30_encoding.md) -/

/-- Decoding the word of a command gives the command back, every operand at every value (R65, R70, R71, R74). -/
def Obligations.DecodeAfterEncode : Prop :=
  ∀ i : Instr, i.wellFormed = true → decode (encode i) = .ok i

/-- A decoded word agrees with the command's own word on every bit the command reads, and any word that agrees with it on those bits
decodes to the same command: "A field the command does not use is ignored: any value decodes the same command" (R68). -/
def Obligations.DecodeReadsExactlyTheUsedBits : Prop :=
  ∀ (c : Word) (i : Instr), decode c = .ok i →
    i.wellFormed = true ∧ c &&& usedMask i = encode i ∧
    ∀ c' : Word, c' &&& usedMask i = c &&& usedMask i → decode c' = .ok i

/-- R72 whole: the four items are exactly the words that do not decode; such a word, offered to an engine that is IDLE with ERR = 0, is accepted
(LASTCMD shows it) and then ends with ILLEGAL_CMD. -/
def Obligations.IllegalWordsEndWithIllegalCmd : Prop :=
  (∀ c : Word, (∃ e, decode c = .error e) ↔
    (bitsOf c 0 6 ∉ [0x01, 0x02, 0x03, 0x04, 0x05, 0x10, 0x11, 0x12, 0x13, 0x20, 0x21, 0x22, 0x23]) ∨
    (bitsOf c 7 1 = 1 ∨ bitsOf c 24 8 ≠ 0) ∨
    (bitsOf c 6 1 = 1 ∧ bitsOf c 0 6 ∉ [0x01, 0x02, 0x03, 0x04, 0x05]) ∨
    (bitsOf c 0 6 = 0x22 ∧ bitsOf c 8 4 = bitsOf c 20 4)) ∧
  (∃ e, decode 0 = .error e) ∧
  ∀ (s : State) (c : Word) (e : DecodeError), decode c = .error e → s.busy = false → s.status.err = false →
    (s.offerCommand c).busy = true ∧ (s.offerCommand c).lastcmd = c ∧
    (s.offerCommand c).engineRun = .next ((s.offerCommand c).raise .illegalCmd none)

/-- R78 whole: the thirteen examples, as assembler text, as instructions and as words. -/
def Obligations.ExampleEncodings : Prop :=
  ∀ x ∈ ([("fadd.p r3, r1, r2", .faddP 3 1 2, 0x00021301), ("fsub.n r4, r5, r6", .fsubN 4 5 6, 0x00065442),
      ("fmul.p r0, r0, r0", .fmulP 0 0 0, 0x00000003), ("finv.p r7, r2", .finvP 7 2, 0x00002704),
      ("fdiv.n r15, r14, r13", .fdivN 15 14 13, 0x000DEF45), ("oncurve pt2", .oncurve 2, 0x00002010),
      ("padd pt2, pt0, pt1", .padd 2 0 1, 0x00010211), ("pdbl pt3, pt3", .pdbl 3 3, 0x00003312),
      ("pmul pt1, pt0, r4", .pmul 1 0 4, 0x00040113), ("pubkey pt1, r0", .pubkey 1 0, 0x00000120),
      ("keygen r3, pt3", .keygen 3, 0x00000321), ("sign r4, r5, r0, r1", .sign 4 0 1 5, 0x00510422),
      ("verify r0, r4, r5, pt1", .verify 1 0 4 5, 0x00540123)] : List (String × Instr × Word)),
    asmText x.2.1 = x.1 ∧ encode x.2.1 = x.2.2 ∧ decode x.2.2 = .ok x.2.1

/-! ### Field functions and commands (40_field.md) -/

/-- R81 whole: no intermediate is negative, and the result is the mathematical difference mod m. -/
def Obligations.FieldSubIsTheDifference : Prop :=
  ∀ m x y : Nat, 1 ≤ m →
    fieldSub m x y = (x + (m - y % m)) % m ∧ 1 ≤ m - y % m ∧ m - y % m ≤ m ∧
    (y % m = 0 → fieldSub m x y = x % m) ∧
    (fieldSub m x y : Int) = ((x : Int) - (y : Int)) % (m : Int) ∧ fieldSub m x y < m

/-- R83 whole: the Fermat power for every modulus, and for a prime one the unique inverse. -/
def Obligations.FieldInvIsTheFermatPower : Prop :=
  ∀ m y : Nat, 1 ≤ m →
    (y % m = 0 → fieldInv m y = .error .divByZero) ∧
    (y % m ≠ 0 → fieldInv m y = .ok (y ^ (m - 2) % m)) ∧
    (m.Prime → y % m ≠ 0 → ∃ v, fieldInv m y = .ok v ∧ 1 ≤ v ∧ v < m ∧ v * y % m = 1 ∧
      ∀ w, 1 ≤ w → w < m → w * y % m = 1 → w = v) ∧
    (m = 2 → y % 2 = 1 → fieldInv m y = .ok 1)

/-- R84 whole: it fails exactly when `y ≡ 0 (mod m)`, whatever x is, and otherwise multiplies by the inverse. -/
def Obligations.FieldDivFailsExactlyOnZero : Prop :=
  ∀ m x y : Nat, 1 ≤ m →
    ((∃ e, fieldDiv m x y = .error e) ↔ y % m = 0) ∧
    (y % m = 0 → fieldDiv m x y = .error .divByZero) ∧
    (y % m ≠ 0 → ∃ v, fieldInv m y = .ok v ∧ fieldDiv m x y = .ok (x * v % m) ∧ x * v % m < m)

/-- The laws of R90: results are below m, the additive inverse for every m ≥ 1, and the round trip for prime m. -/
def Obligations.FieldLaws : Prop :=
  ∀ m x y : Nat, 1 ≤ m →
    fieldAdd m x y < m ∧ fieldSub m x y < m ∧ fieldMul m x y < m ∧
    fieldAdd m x (fieldSub m 0 x) = 0 ∧
    (m.Prime → y % m ≠ 0 → ∃ q, fieldDiv m x y = .ok q ∧ fieldMul m q y = x % m)

/-- FADD, R85 whole: encoding, BAD_MODULUS, and `(x + y) mod m` into R[rd] with nothing else written but DONE and BUSY. -/
def Obligations.FaddCommand : Prop :=
  FieldEncodedAs 0x01 (fun c => .faddP (idxAt c 8) (idxAt c 12) (idxAt c 16)) (fun c => .faddN (idxAt c 8) (idxAt c 12) (idxAt c 16)) ∧
  ∀ (s : State) (run : Running) (rd ra rb : RegIdx), s.engine = .busy run →
    (run.snap.p = 0 → exec (.faddP rd ra rb) s = .next (s.raise .badModulus none)) ∧
    (run.snap.n = 0 → exec (.faddN rd ra rb) s = .next (s.raise .badModulus none)) ∧
    (run.snap.p ≠ 0 → exec (.faddP rd ra rb) s = .next { s with
      r := s.r.set rd ((run.snap.r[ra] + run.snap.r[rb]) % run.snap.p), status := { s.status with done := true }, engine := .idle }) ∧
    (run.snap.n ≠ 0 → exec (.faddN rd ra rb) s = .next { s with
      r := s.r.set rd ((run.snap.r[ra] + run.snap.r[rb]) % run.snap.n), status := { s.status with done := true }, engine := .idle })

/-- FSUB, R86 whole: ra is the minuend. -/
def Obligations.FsubCommand : Prop :=
  FieldEncodedAs 0x02 (fun c => .fsubP (idxAt c 8) (idxAt c 12) (idxAt c 16)) (fun c => .fsubN (idxAt c 8) (idxAt c 12) (idxAt c 16)) ∧
  ∀ (s : State) (run : Running) (rd ra rb : RegIdx), s.engine = .busy run →
    (run.snap.p = 0 → exec (.fsubP rd ra rb) s = .next (s.raise .badModulus none)) ∧
    (run.snap.n = 0 → exec (.fsubN rd ra rb) s = .next (s.raise .badModulus none)) ∧
    (run.snap.p ≠ 0 → exec (.fsubP rd ra rb) s = .next { s with
      r := s.r.set rd ((run.snap.r[ra] + (run.snap.p - run.snap.r[rb] % run.snap.p)) % run.snap.p),
      status := { s.status with done := true }, engine := .idle }) ∧
    (run.snap.n ≠ 0 → exec (.fsubN rd ra rb) s = .next { s with
      r := s.r.set rd ((run.snap.r[ra] + (run.snap.n - run.snap.r[rb] % run.snap.n)) % run.snap.n),
      status := { s.status with done := true }, engine := .idle })

/-- FMUL, R87 whole: the product is exact before the one reduction. -/
def Obligations.FmulCommand : Prop :=
  FieldEncodedAs 0x03 (fun c => .fmulP (idxAt c 8) (idxAt c 12) (idxAt c 16)) (fun c => .fmulN (idxAt c 8) (idxAt c 12) (idxAt c 16)) ∧
  ∀ (s : State) (run : Running) (rd ra rb : RegIdx), s.engine = .busy run →
    (run.snap.p = 0 → exec (.fmulP rd ra rb) s = .next (s.raise .badModulus none)) ∧
    (run.snap.n = 0 → exec (.fmulN rd ra rb) s = .next (s.raise .badModulus none)) ∧
    (run.snap.p ≠ 0 → exec (.fmulP rd ra rb) s = .next { s with
      r := s.r.set rd (run.snap.r[ra] * run.snap.r[rb] % run.snap.p), status := { s.status with done := true }, engine := .idle }) ∧
    (run.snap.n ≠ 0 → exec (.fmulN rd ra rb) s = .next { s with
      r := s.r.set rd (run.snap.r[ra] * run.snap.r[rb] % run.snap.n), status := { s.status with done := true }, engine := .idle })

/-- FINV, R88 whole: BAD_MODULUS, DIV_BY_ZERO, or the Fermat power into R[rd]. -/
def Obligations.FinvCommand : Prop :=
  FieldEncodedAs 0x04 (fun c => .finvP (idxAt c 8) (idxAt c 12)) (fun c => .finvN (idxAt c 8) (idxAt c 12)) ∧
  ∀ (s : State) (run : Running) (rd ra : RegIdx), s.engine = .busy run →
    (run.snap.p = 0 → exec (.finvP rd ra) s = .next (s.raise .badModulus none)) ∧
    (run.snap.n = 0 → exec (.finvN rd ra) s = .next (s.raise .badModulus none)) ∧
    (run.snap.p ≠ 0 → run.snap.r[ra] % run.snap.p = 0 → exec (.finvP rd ra) s = .next (s.raise .divByZero none)) ∧
    (run.snap.n ≠ 0 → run.snap.r[ra] % run.snap.n = 0 → exec (.finvN rd ra) s = .next (s.raise .divByZero none)) ∧
    (run.snap.p ≠ 0 → run.snap.r[ra] % run.snap.p ≠ 0 → exec (.finvP rd ra) s = .next { s with
      r := s.r.set rd (run.snap.r[ra] ^ (run.snap.p - 2) % run.snap.p), status := { s.status with done := true }, engine := .idle }) ∧
    (run.snap.n ≠ 0 → run.snap.r[ra] % run.snap.n ≠ 0 → exec (.finvN rd ra) s = .next { s with
      r := s.r.set rd (run.snap.r[ra] ^ (run.snap.n - 2) % run.snap.n), status := { s.status with done := true }, engine := .idle })

/-- FDIV, R89 whole: rb is the divisor, and the check is on the divisor only. -/
def Obligations.FdivCommand : Prop :=
  FieldEncodedAs 0x05 (fun c => .fdivP (idxAt c 8) (idxAt c 12) (idxAt c 16)) (fun c => .fdivN (idxAt c 8) (idxAt c 12) (idxAt c 16)) ∧
  ∀ (s : State) (run : Running) (rd ra rb : RegIdx), s.engine = .busy run →
    (run.snap.p = 0 → exec (.fdivP rd ra rb) s = .next (s.raise .badModulus none)) ∧
    (run.snap.n = 0 → exec (.fdivN rd ra rb) s = .next (s.raise .badModulus none)) ∧
    (run.snap.p ≠ 0 → run.snap.r[rb] % run.snap.p = 0 → exec (.fdivP rd ra rb) s = .next (s.raise .divByZero none)) ∧
    (run.snap.n ≠ 0 → run.snap.r[rb] % run.snap.n = 0 → exec (.fdivN rd ra rb) s = .next (s.raise .divByZero none)) ∧
    (run.snap.p ≠ 0 → run.snap.r[rb] % run.snap.p ≠ 0 → exec (.fdivP rd ra rb) s = .next { s with
      r := s.r.set rd (run.snap.r[ra] * (run.snap.r[rb] ^ (run.snap.p - 2) % run.snap.p) % run.snap.p),
      status := { s.status with done := true }, engine := .idle }) ∧
    (run.snap.n ≠ 0 → run.snap.r[rb] % run.snap.n ≠ 0 → exec (.fdivN rd ra rb) s = .next { s with
      r := s.r.set rd (run.snap.r[ra] * (run.snap.r[rb] ^ (run.snap.n - 2) % run.snap.n) % run.snap.n),
      status := { s.status with done := true }, engine := .idle })

/-! ### Curve functions and commands (41_curve.md) -/

/-- R94 whole: `Identity` is on the curve; a coordinate pair is, exactly when `y² ≡ x³ + a·x + b (mod p)`. -/
def Obligations.OnCurveIsTheCongruence : Prop :=
  ∀ (c : Curve) (x y : Nat),
    ecOnCurve c .identity = true ∧
    (ecOnCurve c (.coord x y) = true ↔ y ^ 2 % c.p = (x ^ 3 + c.a * x + c.b) % c.p)

/-- Where the curve divisions fail (R95, R96): a doubling exactly at `y ≠ 0` with `2y = p`, an addition only through its doubling branch. -/
def Obligations.CurveDivisionFailures : Prop :=
  (∀ (c : Curve) (x y : Nat), y < c.p →
    ((∃ e, ecDouble c (.coord x y) = .error e) ↔ y ≠ 0 ∧ 2 * y = c.p) ∧
    (y ≠ 0 → 2 * y = c.p → ecDouble c (.coord x y) = .error .divByZero)) ∧
  (∀ (c : Curve) (P Q : Point) (e : CmdError), P.inRange c.p = true → Q.inRange c.p = true → ecAdd c P Q = .error e →
    P = Q ∧ ecDouble c P = .error e)

/-- The loop of R97 for k ≥ 2, turn by turn (the addition, result first, then the doubling, also after the last addition, each failure final),
and "For k ≥ 2 the loop runs bitlen(k) times (at most W)": W turns are enough for every k below 2^W. -/
def Obligations.ScalarMultNeedsAtMostWidthIterations : Prop :=
  (∀ (c : Curve) (P : Point) (k : Nat), 2 ≤ k → ecScalarMult c P k = mulFinish c ⟨.identity, P, k⟩) ∧
  (∀ (c : Curve) (R A : Point), mulFinish c ⟨R, A, 0⟩ = .ok R) ∧
  (∀ (c : Curve) (R A : Point) (e : Nat), 0 < e →
    mulFinish c ⟨R, A, e⟩ = (if e % 2 = 1 then ecAdd c R A else .ok R).bind fun R' =>
      (ecDouble c A).bind fun A' => mulFinish c ⟨R', A', e / 2⟩) ∧
  ∀ (c : Curve) (P : Point) (k width : Nat), 2 ≤ k → k < 2 ^ width →
    bitLen k ≤ width ∧ mulRun c width (MulLoop.start P k) = ecScalarMult c P k

/-- Closure (R102): on a good curve, sums, doubles and multiples of points on it exist and are on it. -/
def Obligations.GoodCurveIsClosed : Prop :=
  ∀ (c : Curve) (P Q : Point) (k : Nat), c.Good → c.On P → c.On Q →
    (∃ V, ecAdd c P Q = .ok V ∧ c.On V) ∧ (∃ V, ecDouble c P = .ok V ∧ c.On V) ∧ (∃ V, ecScalarMult c P k = .ok V ∧ c.On V)

/-- The group laws (R102): the identity laws and the scalar edges k = 0 and k = 1 for every p and every point;
on a good curve the inverse law with `negate`, commutativity and associativity. -/
def Obligations.GroupLaws : Prop :=
  (∀ (c : Curve) (P : Point), ecAdd c .identity P = .ok P ∧ ecAdd c P .identity = .ok P ∧
    ecScalarMult c P 0 = .ok .identity ∧ ecScalarMult c P 1 = .ok P) ∧
  ∀ (c : Curve) (P Q R : Point), c.Good → c.On P → c.On Q → c.On R →
    ecAdd c P (negate c.p P) = .ok .identity ∧ ecAdd c P Q = ecAdd c Q P ∧
    (ecAdd c P Q).bind (fun S => ecAdd c S R) = (ecAdd c Q R).bind (fun T => ecAdd c P T)

/-- Scalar multiplication is "repeated group addition of a point with itself, k times" (00_scope.md R13); with it the edges k = 2 and k = 3 of R102. -/
def Obligations.GoodCurveScalarMultIsRepeatedAddition : Prop :=
  ∀ (c : Curve) (P : Point) (k : Nat), c.Good → c.On P →
    ecScalarMult c P (k + 1) = (ecScalarMult c P k).bind (fun R => ecAdd c R P) ∧
    ecScalarMult c P 2 = ecAdd c P P ∧ ecScalarMult c P 3 = (ecScalarMult c P 2).bind (fun R => ecAdd c R P)

/-- ONCURVE, R98 whole: P is PT[ra] read as 10_state.md R21 says, and the second clause is the range check of R92.
The last two clauses are R98's corner cases. -/
def Obligations.OncurveCommand : Prop :=
  PlainEncodedAs 0x10 (fun c => .oncurve (idxAt c 12)) ∧
  (∀ p x y : Nat, Point.identity.inRange p = true ∧ ((Point.coord x y).inRange p = true ↔ x < p ∧ y < p)) ∧
  ∀ (s : State) (run : Running) (ra : RegIdx) (P : Point), s.engine = .busy run →
    P = (if run.snap.pt[ra].inf then .identity else .coord run.snap.pt[ra].x run.snap.pt[ra].y) →
    (run.snap.p = 0 → exec (.oncurve ra) s = .next (s.raise .badModulus none)) ∧
    (run.snap.p ≠ 0 → P.inRange run.snap.p = false → exec (.oncurve ra) s = .next (s.raise .pointRange none)) ∧
    (run.snap.p ≠ 0 → P.inRange run.snap.p = true → exec (.oncurve ra) s = .next { s with
      status := { s.status with done := true, result := ecOnCurve ⟨run.snap.p, run.snap.a, run.snap.b⟩ P }, engine := .idle }) ∧
    (run.snap.p ≠ 0 → run.snap.pt[ra].inf = true → exec (.oncurve ra) s = .next { s with
      status := { s.status with done := true, result := true }, engine := .idle }) ∧
    (run.snap.p ≠ 0 → run.snap.pt[ra] = ⟨false, 0, 0⟩ → exec (.oncurve ra) s = .next { s with
      status := { s.status with done := true, result := decide (run.snap.b % run.snap.p = 0) }, engine := .idle })

/-- PADD, R99 whole. P and Q are PT[ra] and PT[rb] read, and the result is written, as 10_state.md R21 says.
The second clause is the formulas of `ec_add` (R96) for every pair of points in range, on the curve or not, and every modulus (R103). -/
def Obligations.PaddCommand : Prop :=
  PlainEncodedAs 0x11 (fun c => .padd (idxAt c 8) (idxAt c 12) (idxAt c 16)) ∧
  (∀ (c : Curve) (P : Point) (x1 y1 x2 y2 : Nat), x1 < c.p → y1 < c.p → x2 < c.p → y2 < c.p →
    ecAdd c .identity P = .ok P ∧ ecAdd c P .identity = .ok P ∧
    (x1 = x2 → y1 = y2 → ecAdd c (.coord x1 y1) (.coord x2 y2) = ecDouble c (.coord x1 y1)) ∧
    (x1 = x2 → y1 ≠ y2 → ecAdd c (.coord x1 y1) (.coord x2 y2) = .ok .identity) ∧
    (x1 ≠ x2 → ∃ d w m x3 y3 : Nat, (d : Int) = ((x2 : Int) - x1) % c.p ∧ w = d ^ (c.p - 2) % c.p ∧
      (m : Int) = ((y2 : Int) - y1) * w % c.p ∧ (x3 : Int) = ((m : Int) ^ 2 - x1 - x2) % c.p ∧
      (y3 : Int) = (m * ((x1 : Int) - x3) - y1) % c.p ∧ ecAdd c (.coord x1 y1) (.coord x2 y2) = .ok (.coord x3 y3))) ∧
  ∀ (s : State) (run : Running) (rd ra rb : RegIdx) (P Q : Point), s.engine = .busy run →
    P = (if run.snap.pt[ra].inf then .identity else .coord run.snap.pt[ra].x run.snap.pt[ra].y) →
    Q = (if run.snap.pt[rb].inf then .identity else .coord run.snap.pt[rb].x run.snap.pt[rb].y) →
    (run.snap.p = 0 → exec (.padd rd ra rb) s = .next (s.raise .badModulus none)) ∧
    (run.snap.p ≠ 0 → (P.inRange run.snap.p && Q.inRange run.snap.p) = false →
      exec (.padd rd ra rb) s = .next (s.raise .pointRange none)) ∧
    (run.snap.p ≠ 0 → P.inRange run.snap.p = true → Q.inRange run.snap.p = true →
      (∀ e, ecAdd ⟨run.snap.p, run.snap.a, run.snap.b⟩ P Q = .error e →
        e = .divByZero ∧ run.snap.p % 2 = 0 ∧ P = Q ∧ exec (.padd rd ra rb) s = .next (s.raise .divByZero none)) ∧
      (∀ V, ecAdd ⟨run.snap.p, run.snap.a, run.snap.b⟩ P Q = .ok V →
        exec (.padd rd ra rb) s = .next { s with
          pt := s.pt.set rd (match V with | .identity => ⟨true, 0, 0⟩ | .coord x y => ⟨false, x, y⟩),
          status := { s.status with done := true }, engine := .idle }))

/-- PDBL, R100 whole. P is PT[ra] read, and the result is written, as 10_state.md R21 says.
The second clause is the formulas of `ec_double` (R95) for every point, on the curve or not, and every modulus (R103). -/
def Obligations.PdblCommand : Prop :=
  PlainEncodedAs 0x12 (fun c => .pdbl (idxAt c 8) (idxAt c 12)) ∧
  (∀ (c : Curve) (x y : Nat), 0 < c.p →
    ecDouble c .identity = .ok .identity ∧
    (y = 0 → ecDouble c (.coord x y) = .ok .identity) ∧
    (y ≠ 0 → 2 * y % c.p = 0 → ecDouble c (.coord x y) = .error .divByZero) ∧
    (y ≠ 0 → 2 * y % c.p ≠ 0 → ∃ w m x3 y3 : Nat, w = (2 * y) ^ (c.p - 2) % c.p ∧
      m = (3 * x ^ 2 + c.a) * w % c.p ∧ (x3 : Int) = ((m : Int) ^ 2 - 2 * x) % c.p ∧
      (y3 : Int) = (m * ((x : Int) - x3) - y) % c.p ∧ ecDouble c (.coord x y) = .ok (.coord x3 y3))) ∧
  ∀ (s : State) (run : Running) (rd ra : RegIdx) (P : Point), s.engine = .busy run →
    P = (if run.snap.pt[ra].inf then .identity else .coord run.snap.pt[ra].x run.snap.pt[ra].y) →
    (run.snap.p = 0 → exec (.pdbl rd ra) s = .next (s.raise .badModulus none)) ∧
    (run.snap.p ≠ 0 → P.inRange run.snap.p = false → exec (.pdbl rd ra) s = .next (s.raise .pointRange none)) ∧
    (run.snap.p ≠ 0 → P.inRange run.snap.p = true →
      (∀ x, run.snap.p % 2 = 0 → P = .coord x (run.snap.p / 2) → exec (.pdbl rd ra) s = .next (s.raise .divByZero none)) ∧
      (∀ e, ecDouble ⟨run.snap.p, run.snap.a, run.snap.b⟩ P = .error e →
        e = .divByZero ∧ run.snap.p % 2 = 0 ∧ (∃ x, P = .coord x (run.snap.p / 2)) ∧
        exec (.pdbl rd ra) s = .next (s.raise .divByZero none)) ∧
      (∀ V, ecDouble ⟨run.snap.p, run.snap.a, run.snap.b⟩ P = .ok V →
        exec (.pdbl rd ra) s = .next { s with
          pt := s.pt.set rd (match V with | .identity => ⟨true, 0, 0⟩ | .coord x y => ⟨false, x, y⟩),
          status := { s.status with done := true }, engine := .idle }))

/-- PMUL, R101. P is PT[ra] read, and the result is written, as 10_state.md R21 says.
`MulFaithful` holds when no internal iteration was made and is kept by every one (`Obligations.StepKeepsInvariant`; log entry 9). -/
def Obligations.PmulCommand : Prop :=
  PlainEncodedAs 0x13 (fun c => .pmul (idxAt c 8) (idxAt c 12) (idxAt c 16)) ∧
  ∀ (s : State) (run : Running) (rd ra rb : RegIdx) (P : Point), s.engine = .busy run → MulFaithful (.pmul rd ra rb) run →
    P = (if run.snap.pt[ra].inf then .identity else .coord run.snap.pt[ra].x run.snap.pt[ra].y) →
    (run.snap.p = 0 → exec (.pmul rd ra rb) s = .next (s.raise .badModulus none)) ∧
    (run.snap.p ≠ 0 → P.inRange run.snap.p = false → exec (.pmul rd ra rb) s = .next (s.raise .pointRange none)) ∧
    (run.snap.p ≠ 0 → P.inRange run.snap.p = true →
      (∀ e, ecScalarMult ⟨run.snap.p, run.snap.a, run.snap.b⟩ P run.snap.r[rb] = .error e →
        e = .divByZero ∧ exec (.pmul rd ra rb) s = .next (s.raise .divByZero none)) ∧
      (∀ V, ecScalarMult ⟨run.snap.p, run.snap.a, run.snap.b⟩ P run.snap.r[rb] = .ok V →
        exec (.pmul rd ra rb) s = .next { s with
          pt := s.pt.set rd (match V with | .identity => ⟨true, 0, 0⟩ | .coord x y => ⟨false, x, y⟩),
          status := { s.status with done := true }, engine := .idle }))

/-! ### ECDSA (42_ecdsa.md) -/

/-- PUBKEY, R108: N_ORD is not read, d is neither checked nor reduced. -/
def Obligations.PubkeyCommand : Prop :=
  PlainEncodedAs 0x20 (fun c => .pubkey (idxAt c 8) (idxAt c 12)) ∧
  ∀ (s : State) (run : Running) (rd ra : RegIdx), s.engine = .busy run → MulFaithful (.pubkey rd ra) run →
    (run.snap.p = 0 → exec (.pubkey rd ra) s = .next (s.raise .badModulus none)) ∧
    (run.snap.p ≠ 0 → run.snap.gen.inRange run.snap.p = false → exec (.pubkey rd ra) s = .next (s.raise .pointRange none)) ∧
    (run.snap.p ≠ 0 → run.snap.gen.inRange run.snap.p = true →
      (∀ e, ecScalarMult ⟨run.snap.p, run.snap.a, run.snap.b⟩ run.snap.gen run.snap.r[ra] = .error e →
        e = .divByZero ∧ exec (.pubkey rd ra) s = .next (s.raise .divByZero none)) ∧
      (∀ V, ecScalarMult ⟨run.snap.p, run.snap.a, run.snap.b⟩ run.snap.gen run.snap.r[ra] = .ok V →
        exec (.pubkey rd ra) s = .next { s with
          pt := s.pt.set rd (match V with | .identity => ⟨true, 0, 0⟩ | .coord x y => ⟨false, x, y⟩),
          status := { s.status with done := true }, engine := .idle }))

/-- KEYGEN, R109: the checks in their order, the RNG request (20_memory.md R44; its number is the model's own, log entry 16), and with the nonce d the pair (d, d·G).
With NONCE_SRC = 1 the nonce is K_IN (R106). -/
def Obligations.KeygenCommand : Prop :=
  PlainEncodedAs 0x21 (fun c => .keygen (idxAt c 8)) ∧
  ∀ (s : State) (run : Running) (rd : RegIdx), s.engine = .busy run → MulFaithful (.keygen rd) run →
    (run.snap.p = 0 → exec (.keygen rd) s = .next (s.raise .badModulus none)) ∧
    (run.snap.p ≠ 0 → run.snap.n < 2 → exec (.keygen rd) s = .next (s.raise .badOrder none)) ∧
    (run.snap.p ≠ 0 → 2 ≤ run.snap.n → run.snap.gen.inRange run.snap.p = false → exec (.keygen rd) s = .next (s.raise .pointRange none)) ∧
    (run.snap.p ≠ 0 → 2 ≤ run.snap.n → run.snap.gen.inRange run.snap.p = true → run.snap.nonceSrc = true →
      (run.snap.kin = 0 ∨ run.snap.n ≤ run.snap.kin) → exec (.keygen rd) s = .next (s.raise .nonceRange none)) ∧
    (run.snap.p ≠ 0 → 2 ≤ run.snap.n → run.snap.gen.inRange run.snap.p = true → run.snap.nonceSrc = false →
      run.progress.nonce = .unasked → exec (.keygen rd) s = .next { s with
        rngRequests := s.rngRequests + 1, engine := .busy { run with progress := ⟨0, .requested, .notBegun⟩ } }) ∧
    (run.snap.p ≠ 0 → 2 ≤ run.snap.n → run.snap.gen.inRange run.snap.p = true → run.snap.nonceSrc = false →
      run.progress.nonce = .requested → exec (.keygen rd) s = .next s) ∧
    (∀ d, run.snap.p ≠ 0 → 2 ≤ run.snap.n → run.snap.gen.inRange run.snap.p = true →
      ((run.snap.nonceSrc = true ∧ d = run.snap.kin ∧ 1 ≤ d ∧ d ≤ run.snap.n - 1) ∨
        (run.snap.nonceSrc = false ∧ run.progress.nonce = .answered d)) →
      (∀ e, ecScalarMult ⟨run.snap.p, run.snap.a, run.snap.b⟩ run.snap.gen d = .error e →
        e = .divByZero ∧ exec (.keygen rd) s = .next (s.raise .divByZero none)) ∧
      (∀ V, ecScalarMult ⟨run.snap.p, run.snap.a, run.snap.b⟩ run.snap.gen d = .ok V →
        exec (.keygen rd) s = .next { s with
          r := s.r.set rd d, pt := s.pt.set rd (match V with | .identity => ⟨true, 0, 0⟩ | .coord x y => ⟨false, x, y⟩),
          status := { s.status with done := true }, engine := .idle }))

/-- SIGN, R111 and R112: the checks in their order (ATTEMPTS 0), the RNG request, and one attempt with its nonce:
`(r, s)` into R[rd] and R[rc] with ATTEMPTS = t, an error with ATTEMPTS = t, a rejection that asks again while t is below the budget
and else SIGN_FAIL with ATTEMPTS = the budget. t is 1 with the host nonce, else one more than the rejected attempts. -/
def Obligations.SignCommand : Prop :=
  PlainEncodedAs 0x22 (fun c => .sign (idxAt c 8) (idxAt c 12) (idxAt c 16) (idxAt c 20)) ∧
  ∀ (s : State) (run : Running) (rd ra rb rc : RegIdx), s.engine = .busy run → MulFaithful (.sign rd ra rb rc) run →
    (run.snap.p = 0 → exec (.sign rd ra rb rc) s = .next (s.raise .badModulus (some 0))) ∧
    (run.snap.p ≠ 0 → run.snap.n < 2 → exec (.sign rd ra rb rc) s = .next (s.raise .badOrder (some 0))) ∧
    (run.snap.p ≠ 0 → 2 ≤ run.snap.n → run.snap.gen.inRange run.snap.p = false →
      exec (.sign rd ra rb rc) s = .next (s.raise .pointRange (some 0))) ∧
    (run.snap.p ≠ 0 → 2 ≤ run.snap.n → run.snap.gen.inRange run.snap.p = true → run.snap.nonceSrc = true →
      (run.snap.kin = 0 ∨ run.snap.n ≤ run.snap.kin) → exec (.sign rd ra rb rc) s = .next (s.raise .nonceRange (some 0))) ∧
    (run.snap.p ≠ 0 → 2 ≤ run.snap.n → run.snap.gen.inRange run.snap.p = true → run.snap.nonceSrc = false →
      run.progress.nonce = .unasked → exec (.sign rd ra rb rc) s = .next { s with
        rngRequests := s.rngRequests + 1, engine := .busy { run with progress := ⟨run.progress.rejected, .requested, .notBegun⟩ } }) ∧
    (run.snap.p ≠ 0 → 2 ≤ run.snap.n → run.snap.gen.inRange run.snap.p = true → run.snap.nonceSrc = false →
      run.progress.nonce = .requested → exec (.sign rd ra rb rc) s = .next s) ∧
    (∀ k t budget, run.snap.p ≠ 0 → 2 ≤ run.snap.n → run.snap.gen.inRange run.snap.p = true →
      ((run.snap.nonceSrc = true ∧ k = run.snap.kin ∧ 1 ≤ k ∧ k ≤ run.snap.n - 1 ∧ t = 1 ∧ budget = 1) ∨
        (run.snap.nonceSrc = false ∧ run.progress.nonce = .answered k ∧ t = run.progress.rejected + 1 ∧ budget = s.params.maxSignAttempts)) →
      (∀ e, signAttempt ⟨run.snap.p, run.snap.a, run.snap.b⟩ run.snap.n run.snap.gen (run.snap.r[ra] % run.snap.n) run.snap.r[rb] k = .error e →
        exec (.sign rd ra rb rc) s = .next (s.raise e (some t))) ∧
      (∀ r v, signAttempt ⟨run.snap.p, run.snap.a, run.snap.b⟩ run.snap.n run.snap.gen (run.snap.r[ra] % run.snap.n) run.snap.r[rb] k =
          .ok (some (r, v)) →
        exec (.sign rd ra rb rc) s = .next { s with
          r := (s.r.set rd r).set rc v, status := { s.status with done := true, attempts := BitVec.ofNat 16 t }, engine := .idle }) ∧
      (signAttempt ⟨run.snap.p, run.snap.a, run.snap.b⟩ run.snap.n run.snap.gen (run.snap.r[ra] % run.snap.n) run.snap.r[rb] k = .ok none →
        (t < budget → exec (.sign rd ra rb rc) s = .next { s with
          rngRequests := s.rngRequests + 1, engine := .busy { run with progress := ⟨t, .requested, .notBegun⟩ } }) ∧
        (budget ≤ t → exec (.sign rd ra rb rc) s = .next (s.raise .signFail (some budget)))))

/-- One signing attempt by the formulas of R110: rejected when `k·G` is Identity, when r = 0 or when s = 0; else `r = R.x mod n` and
`s = (z + r·d) / k` with the field division modulo n; its division never fails for a nonce in [1, n-1]. -/
def Obligations.SignAttemptFormula : Prop :=
  ∀ (c : Curve) (n : Nat) (G : Point) (z d k : Nat), 2 ≤ n → 1 ≤ k → k ≤ n - 1 →
    (∀ e, ecScalarMult c G k = .error e → signAttempt c n G z d k = .error e) ∧
    (ecScalarMult c G k = .ok .identity → signAttempt c n G z d k = .ok none) ∧
    (∀ x y, ecScalarMult c G k = .ok (.coord x y) →
      (x % n = 0 → signAttempt c n G z d k = .ok none) ∧
      (x % n ≠ 0 → ∃ w v, fieldInv n k = .ok w ∧ v = (z + x % n * d % n) % n * w % n ∧
        (v = 0 → signAttempt c n G z d k = .ok none) ∧
        (v ≠ 0 → signAttempt c n G z d k = .ok (some (x % n, v)))))

/-- "a successful result always has 1 ≤ r, s ≤ n - 1" (R112). -/
def Obligations.SignaturesAreInRange : Prop :=
  ∀ (s t : State) (run : Running) (rd ra rb rc : RegIdx), s.engine = .busy run → rd ≠ rc → s.status.err = false →
    exec (.sign rd ra rb rc) s = .next t → t.busy = false → t.status.err = false →
    1 ≤ t.r[rd] ∧ t.r[rd] ≤ run.snap.n - 1 ∧ 1 ≤ t.r[rc] ∧ t.r[rc] ≤ run.snap.n - 1

/-- The retry loop of R111: an accepted SIGN with the RNG source, driven by any sequence of RNG answers in [1, n-1] to its requests,
ends as `sign_loop` says. That the events come in the order State holds (log entry 1), that the engine runs from request to request (log entry 9)
and that requests are numbered (log entry 16) is the model's own. -/
def Obligations.SignRunsTheRetryLoop : Prop :=
  ∀ (s : State) (run : Running) (rd ra rb rc : RegIdx) (G : Point) (answers : List Nat) (rest : List Event),
    s.engine = .busy run → decode run.word = .ok (.sign rd ra rb rc) → run.progress = .start → run.snap.nonceSrc = false →
    run.snap.nonceCommandChecks = .ok G → 1 ≤ s.params.maxSignAttempts → (∀ k ∈ answers, 1 ≤ k ∧ k ≤ run.snap.n - 1) →
    s.schedule = .run :: answerEvents (s.rngRequests + 1) answers ++ rest →
    Host.Core.run Sys2Proof.core (1 + 2 * answers.length) s = .next
      (match signLoop run.snap.curve run.snap.n G (run.snap.scalar ra % run.snap.n) (run.snap.scalar rb) s.params.maxSignAttempts 1 answers with
        | .signature r v t => { s with
            r := (s.r.set rd r).set rc v, status := { s.status with done := true, attempts := BitVec.ofNat 16 t },
            engine := .idle, schedule := rest, rngRequests := s.rngRequests + t }
        | .failed e t => { s.raise e (some t) with schedule := rest, rngRequests := s.rngRequests + t }
        | .waiting t => { s with
            engine := .busy { run with progress := ⟨t - 1, .requested, .notBegun⟩ }, schedule := rest, rngRequests := s.rngRequests + t })

/-- R113 whole: the range test first, then the point checks, then the verdict from `u1·G + u2·Q`. -/
def Obligations.EcdsaVerifyFunction : Prop :=
  ∀ (S : Snapshot) (H r s : Nat) (Q : Point), S.p ≠ 0 → 2 ≤ S.n →
    (r = 0 ∨ S.n ≤ r ∨ s = 0 ∨ S.n ≤ s → ecdsaVerify S H r s Q = .ok false) ∧
    (1 ≤ r → r < S.n → 1 ≤ s → s < S.n → (S.gen.inRange S.p && Q.inRange S.p) = false → ecdsaVerify S H r s Q = .error .pointRange) ∧
    (1 ≤ r → r < S.n → 1 ≤ s → s < S.n → S.gen.inRange S.p = true → Q.inRange S.p = true →
      ∃ w, fieldInv S.n s = .ok w ∧
        (∀ e, ecScalarMult S.curve S.gen (H % S.n * w % S.n) = .error e → ecdsaVerify S H r s Q = .error e) ∧
        (∀ P1 e, ecScalarMult S.curve S.gen (H % S.n * w % S.n) = .ok P1 → ecScalarMult S.curve Q (r * w % S.n) = .error e →
          ecdsaVerify S H r s Q = .error e) ∧
        (∀ P1 P2, ecScalarMult S.curve S.gen (H % S.n * w % S.n) = .ok P1 → ecScalarMult S.curve Q (r * w % S.n) = .ok P2 →
          (∀ e, ecAdd S.curve P1 P2 = .error e → ecdsaVerify S H r s Q = .error e) ∧
          (ecAdd S.curve P1 P2 = .ok .identity → ecdsaVerify S H r s Q = .ok false) ∧
          (∀ x y, ecAdd S.curve P1 P2 = .ok (.coord x y) → ecdsaVerify S H r s Q = .ok (decide (x % S.n = r)))))

/-- VERIFY, R114: the checks in their order and the verdict into RESULT; the key Q is PT[rd] read as 10_state.md R21 says. -/
def Obligations.VerifyCommand : Prop :=
  PlainEncodedAs 0x23 (fun c => .verify (idxAt c 8) (idxAt c 12) (idxAt c 16) (idxAt c 20)) ∧
  ∀ (s : State) (run : Running) (rd ra rb rc : RegIdx) (Q : Point), s.engine = .busy run → MulFaithful (.verify rd ra rb rc) run →
    Q = (if run.snap.pt[rd].inf then .identity else .coord run.snap.pt[rd].x run.snap.pt[rd].y) →
    (run.snap.p = 0 → exec (.verify rd ra rb rc) s = .next (s.raise .badModulus none)) ∧
    (run.snap.p ≠ 0 → run.snap.n < 2 → exec (.verify rd ra rb rc) s = .next (s.raise .badOrder none)) ∧
    (run.snap.p ≠ 0 → 2 ≤ run.snap.n →
      (∀ e, ecdsaVerify run.snap run.snap.r[ra] run.snap.r[rb] run.snap.r[rc] Q = .error e →
        exec (.verify rd ra rb rc) s = .next (s.raise e none)) ∧
      (∀ v, ecdsaVerify run.snap run.snap.r[ra] run.snap.r[rb] run.snap.r[rc] Q = .ok v →
        exec (.verify rd ra rb rc) s = .next { s with
          status := { s.status with done := true, result := v }, engine := .idle }))

/-- The corner cases of R114: the verdict depends on the digest integer only mod n, and on a good curve `s' = n - s` has the verdict of s. -/
def Obligations.VerifyVerdictSymmetries : Prop :=
  ∀ (S : Snapshot) (H H' r s : Nat) (Q : Point),
    (H % S.n = H' % S.n → ecdsaVerify S H r s Q = ecdsaVerify S H' r s Q) ∧
    (S.curve.Good → S.n.Prime → S.curve.On S.gen → ecScalarMult S.curve S.gen S.n = .ok .identity →
      S.curve.On Q → ecScalarMult S.curve Q S.n = .ok .identity → 1 ≤ s → s < S.n →
      ecdsaVerify S H r (S.n - s) Q = ecdsaVerify S H r s Q)

/-- The ECDSA round trip, R115, on the commands themselves: what SIGN leaves in R[rd] and R[rc], VERIFY accepts under the matching public key. -/
def Obligations.EcdsaRoundTrip : Prop :=
  ∀ (s t s' : State) (run run' : Running) (rd ra rb rc q va vb vc : RegIdx) (Q : Point),
    s.engine = .busy run → MulFaithful (.sign rd ra rb rc) run → rd ≠ rc → s.status.err = false →
    (∀ k, run.progress.nonce = .answered k → 1 ≤ k ∧ k ≤ run.snap.n - 1) →
    run.snap.curve.Good → run.snap.n.Prime → run.snap.curve.On run.snap.gen → run.snap.gen ≠ .identity →
    ecScalarMult run.snap.curve run.snap.gen run.snap.n = .ok .identity →
    1 ≤ run.snap.scalar rb → run.snap.scalar rb ≤ run.snap.n - 1 →
    ecScalarMult run.snap.curve run.snap.gen (run.snap.scalar rb) = .ok Q →
    exec (.sign rd ra rb rc) s = .next t → t.busy = false → t.status.err = false →
    s'.engine = .busy run' → MulFaithful (.verify q va vb vc) run' →
    run'.snap.curve = run.snap.curve → run'.snap.n = run.snap.n → run'.snap.gen = run.snap.gen →
    run'.snap.scalar va = run.snap.scalar ra → run'.snap.scalar vb = t.r[rd] → run'.snap.scalar vc = t.r[rc] → run'.snap.point q = Q →
    exec (.verify q va vb vc) s' = .next { s' with status := { s'.status with done := true, result := true }, engine := .idle }

/-! ### The command cycle, STATUS and irq (10_state.md, 60_exceptions.md) -/

/-- Acceptance, R33's pseudocode, as the write of CMD on the bus. That a dropped CMD write is answered OKAY is the model's reading (log entry 6). -/
def Obligations.AcceptanceOfCommands : Prop :=
  ∀ (s : State) (c : Word),
    (s.busy = true ∨ s.status.err = true → s.busTxn (.write (s.params.base + 0x010) 0xF c) = .next { s with
      status := { s.status with wdrop := true }, response := some .okayWrite }) ∧
    (s.busy = false → s.status.err = false → s.busTxn (.write (s.params.base + 0x010) 0xF c) = .next { s with
      lastcmd := c,
      status := { s.status with done := false, result := false, attempts := 0 },
      engine := .busy ⟨c, ⟨s.r, s.pt, s.cfg.p, s.cfg.n, s.cfg.a, s.cfg.b,
        if s.cfg.genInf then .identity else .coord s.cfg.gx s.cfg.gy, s.cfg.kin, s.ctrl.nonceSrc⟩, ⟨0, .unasked, .notBegun⟩⟩,
      response := some .okayWrite })

/-- R120: a command that ends with an error writes ERRCODE, ERR, DONE, BUSY and (SIGN) ATTEMPTS, and nothing else;
the first clause is what `State.raise` stands for in the other statements. -/
def Obligations.ErrorsArePrecise : Prop :=
  (∀ (s : State) (e : CmdError) (n : Option Nat), s.raise e n = { s with
    status := { s.status with
      done := true, err := true, errcode := some e,
      attempts := (match n with | none => s.status.attempts | some t => BitVec.ofNat 16 t) },
    engine := .idle }) ∧
  ∀ (i : Instr) (s t : State), exec i s = .next t → s.status.err = false → t.status.err = true →
    ∃ e, t = { s with
        status := { s.status with done := true, err := true, errcode := some e, attempts := t.status.attempts }, engine := .idle } ∧
      (isSign i = false → t.status.attempts = s.status.attempts)

/-- R117: which errors a command other than an illegal word can end with, and the code each has. -/
def Obligations.ErrorTaxonomy : Prop :=
  (CmdError.illegalCmd.code = 1 ∧ CmdError.badModulus.code = 2 ∧ CmdError.badOrder.code = 3 ∧ CmdError.pointRange.code = 4 ∧
    CmdError.nonceRange.code = 5 ∧ CmdError.divByZero.code = 6 ∧ CmdError.signFail.code = 7) ∧
  ∀ (i : Instr) (s t : State), exec i s = .next t → s.status.err = false → t.status.err = true →
    ∃ e, t.status.errcode = some e ∧ e ∈ allowedErrors i

/-- A host write to STATUS, R28 whole, as a bus transaction at offset 0x00C. -/
def Obligations.StatusWriteClears : Prop :=
  ∀ (s : State) (v : Word), s.busTxn (.write (s.params.base + 0x00C) 0xF v) = .next { s with
    status := { s.status with
      done := if v.getLsbD 1 then false else s.status.done,
      err := if v.getLsbD 2 then false else s.status.err,
      errcode := if v.getLsbD 2 then none else s.status.errcode,
      wdrop := if v.getLsbD 4 then false else s.status.wdrop },
    response := some .okayWrite }

/-- The fields of the STATUS word a host reads (10_state.md R27). -/
def Obligations.StatusWordFields : Prop :=
  ∀ s : State,
    s.readWord 0x00C = s.statusWord ∧
    bitsOf s.statusWord 0 1 = (if s.busy then 1 else 0) ∧ bitsOf s.statusWord 1 1 = (if s.status.done then 1 else 0) ∧
    bitsOf s.statusWord 2 1 = (if s.status.err then 1 else 0) ∧ bitsOf s.statusWord 3 1 = (if s.status.result then 1 else 0) ∧
    bitsOf s.statusWord 4 1 = (if s.status.wdrop then 1 else 0) ∧ bitsOf s.statusWord 5 3 = 0 ∧
    bitsOf s.statusWord 8 4 = (match s.status.errcode with | none => 0 | some e => e.code) ∧
    bitsOf s.statusWord 12 4 = 0 ∧ bitsOf s.statusWord 16 16 = s.status.attempts.toNat

/-- The irq line, R125: its two sources and their enables, each source cleared by writing 1 to its own STATUS bit or masked by its enable,
acceptance deasserting a DONE interrupt, and WDROP being no source. -/
def Obligations.IrqLine : Prop :=
  ∀ s : State,
    (s.irq = true ↔ (s.status.done = true ∧ s.ctrl.doneIe = true) ∨ (s.status.err = true ∧ s.ctrl.errIe = true)) ∧
    (∀ w, { s with status := { s.status with wdrop := w } }.irq = s.irq) ∧
    (∀ c, (s.accept c).irq = (s.status.err && s.ctrl.errIe)) ∧
    (∀ v : Word, v.getLsbD 1 = true → v.getLsbD 2 = false → (s.acknowledge v).irq = (s.status.err && s.ctrl.errIe)) ∧
    (∀ v : Word, v.getLsbD 1 = false → v.getLsbD 2 = true → (s.acknowledge v).irq = (s.status.done && s.ctrl.doneIe)) ∧
    (∀ v : Word, v.getLsbD 1 = true → v.getLsbD 2 = true → (s.acknowledge v).irq = false) ∧
    (∀ v : Word, v.getLsbD 1 = false → (s.writeTarget .ctrl v).irq = (s.status.err && v.getLsbD 2)) ∧
    (∀ v : Word, v.getLsbD 2 = false → (s.writeTarget .ctrl v).irq = (s.status.done && v.getLsbD 1))

/-- LASTCMD, R30: it changes only where an accepted CMD write or a reset is performed, and an accepted word, legal or not, is what it then holds. -/
def Obligations.LastcmdIsTheLastAcceptedWord : Prop :=
  (∀ s : State, s.readWord 0x014 = s.lastcmd) ∧ State.reset.lastcmd = 0 ∧
  ∀ s t : State, step s = .next t → t.lastcmd ≠ s.lastcmd →
    (∃ (c : Word) (rest : List Event), s.schedule = .host (.write (s.params.base + 0x010) 0xF c) :: rest ∧
      s.busy = false ∧ s.status.err = false ∧ t.lastcmd = c) ∨
    (∃ rest, s.schedule = .reset :: rest ∧ t.lastcmd = 0) ∨
    (∃ txn rest, s.schedule = .resetDuring txn :: rest ∧ t.lastcmd = 0)

/-! ### The register window (20_memory.md) -/

/-- Writes while BUSY (10_state.md R37). That a dropped write is answered OKAY is the model's reading of the spec, which does not say it (log entry 6). -/
def Obligations.BusyDropsOperandWrites : Prop :=
  ∀ (s : State) (off : Nat) (v : Word), s.busy = true → off % 4 = 0 → off < windowSize →
    s.busTxn (.write (s.params.base + off) 0xF v) = .next
      (match targetOf off with
        | .genInf | .ptInf _ | .cmd => { s with status := { s.status with wdrop := true }, response := some .okayWrite }
        | .big _ j =>
          if j < s.params.nw then { s with status := { s.status with wdrop := true }, response := some .okayWrite }
          else { s with response := some .okayWrite }
        | .ctrl => { s with ctrl := ⟨v.getLsbD 0, v.getLsbD 1, v.getLsbD 2⟩, response := some .okayWrite }
        | .status => { s.acknowledge v with response := some .okayWrite }
        | .id | .param | .lastcmd | .reserved => { s with response := some .okayWrite }) ∧
    s.busTxn (.read (s.params.base + off) .word) = .next { s with response := some (.okayRead (s.readWord off)) }

/-- Word order, R47 whole: the words assemble to the value; a read of word j returns its slice; a write of word j replaces that slice alone. -/
def Obligations.WordsOfBigRegisters : Prop :=
  (∀ nw v : Nat, v < 2 ^ (32 * nw) → bigOfWords ((List.range nw).map (wordSlice v)) = v) ∧
  ∀ (s : State) (b : BigReg) (j : Nat) (w : Word), j < s.params.nw → s.params.nw ≤ 32 →
    s.readWord (b.slot + 4 * j) = BitVec.ofNat 32 (s.readBig b / 2 ^ (32 * j)) ∧
    (s.busy = false → ∃ t, s.busTxn (.write (s.params.base + (b.slot + 4 * j)) 0xF w) = .next t ∧
      (∀ b', b' ≠ b → t.readBig b' = s.readBig b') ∧
      (∀ i, i < s.params.nw → wordSlice (t.readBig b) i = if i = j then w else wordSlice (s.readBig b) i))

/-- Absent words, reserved offsets and read-only registers, R48, R49 and R50: they read as said and their writes change nothing. -/
def Obligations.AbsentAndReadOnlyWords : Prop :=
  ∀ (s : State) (v : Word),
    (∀ (b : BigReg) (j : Nat), s.params.nw ≤ j → j < 32 →
      s.readWord (b.slot + 4 * j) = 0 ∧
      s.busTxn (.write (s.params.base + (b.slot + 4 * j)) 0xF v) = .next { s with response := some .okayWrite }) ∧
    (∀ off, off % 4 = 0 →
      ((0x01C ≤ off ∧ off < 0x400) ∨ (0xF80 ≤ off ∧ off < 0x1000) ∨
        (0x1000 ≤ off ∧ off < 0x3000 ∧ 0x104 ≤ off % 0x200) ∨ (0x3000 ≤ off ∧ off < 0x4000)) →
      s.readWord off = 0 ∧ s.busTxn (.write (s.params.base + off) 0xF v) = .next { s with response := some .okayWrite }) ∧
    (∀ off ∈ [0x000, 0x004, 0x014], s.busTxn (.write (s.params.base + off) 0xF v) = .next { s with response := some .okayWrite }) ∧
    s.readWord 0x010 = 0 ∧
    (s.writeTarget .ctrl v).readWord 0x008 = v &&& 0x7 ∧
    s.writeTarget .status v = s.writeTarget .status (v &&& 0x16) ∧
    (s.busy = false → (s.writeTarget .genInf v).readWord 0x018 = v &&& 0x1 ∧ (s.writeTarget .genInf v).status = s.status) ∧
    (∀ i : RegIdx, s.busy = false → (s.writeTarget (.ptInf i) v).readWord (0x1000 + 0x200 * i.val + 0x100) = v &&& 0x1)

/-- R54: no read has a side effect; only CMD and STATUS writes have one; and repeating a write to anything but CMD is doing it once. -/
def Obligations.ReadsAreFreeOfEffects : Prop :=
  ∀ (s : State) (off : Nat), off < windowSize →
    (∀ width, ∃ resp, s.busTxn (.read (s.params.base + off) width) = .next { s with response := some resp }) ∧
    (∀ (t : State) (v : Word), off % 4 = 0 → s.busTxn (.write (s.params.base + off) 0xF v) = .next t →
      (off ≠ 0x010 → t.busTxn (.write (t.params.base + off) 0xF v) = .next t) ∧
      (off ≠ 0x010 → off ≠ 0x00C → t.engine = s.engine ∧ t.lastcmd = s.lastcmd ∧ (s.busy = false → t.status = s.status)))

/-- R52 (and 60_exceptions.md R124): a misaligned or narrower access gets ERROR and changes no state. -/
def Obligations.RejectedTransactionsChangeNothing : Prop :=
  ∀ (s : State) (off : Nat), off < windowSize →
    (∀ width, off % 4 ≠ 0 ∨ width ≠ .word → s.busTxn (.read (s.params.base + off) width) = .next { s with response := some .error }) ∧
    (∀ (enables : BitVec 4) (v : Word), off % 4 ≠ 0 ∨ enables ≠ 0xF →
      s.busTxn (.write (s.params.base + off) enables v) = .next { s with response := some .error })

/-- What an accepted write leaves alone: every other word of the window reads as before,
but STATUS, which a dropped, CMD or STATUS write may change, and LASTCMD after a CMD write (R47, R54). -/
def Obligations.BusWriteFrame : Prop :=
  ∀ (s t : State) (off off' : Nat) (v : Word), off % 4 = 0 → off < windowSize → off' % 4 = 0 → off' < windowSize →
    s.busTxn (.write (s.params.base + off) 0xF v) = .next t → off' ≠ off → off' ≠ 0x00C → (off = 0x010 → off' ≠ 0x014) →
    t.readWord off' = s.readWord off'

/-- The host's `wbig` (30_encoding.md R77) stores its value: the NW scheduled writes, performed while the engine is IDLE, leave v in the register.
That the writes stand in State's schedule is the model's own (log entry 1). -/
def Obligations.HostWritesBigRegister : Prop :=
  ∀ (s : State) (b : BigReg) (v : Nat) (rest : List Event), s.params.wf = true → s.busy = false →
    v < 2 ^ s.params.width → s.readBig b < 2 ^ s.params.width → s.schedule = hostWriteBig s.params b.slot v ++ rest →
    Host.Core.run Sys2Proof.core s.params.nw s = .next { s.writeBig b v with response := some .okayWrite, schedule := rest }

/-! ### Reset (70_reset_and_hazards.md) -/

/-- Reset values, 10_state.md R39 whole, and its last sentence: before P_MOD and N_ORD are set every command ends with BAD_MODULUS or ILLEGAL_CMD. -/
def Obligations.ResetState : Prop :=
  (∀ p : Params, (∀ i : RegIdx, (State.resetOf p).r[i] = 0 ∧ (State.resetOf p).pt[i] = ⟨false, 0, 0⟩) ∧
    (State.resetOf p).cfg = ⟨0, 0, 0, 0, 0, 0, false, 0⟩ ∧ (State.resetOf p).readWord 0x000 = 0x45434331 ∧
    (p.width < 2 ^ 16 → p.maxSignAttempts < 2 ^ 16 →
      (State.resetOf p).readWord 0x004 = BitVec.ofNat 32 (p.maxSignAttempts * 2 ^ 16 + p.width)) ∧
    (State.resetOf p).readWord 0x008 = 0 ∧ (State.resetOf p).statusWord = 0 ∧ (State.resetOf p).lastcmd = 0 ∧
    (State.resetOf p).engine = .idle ∧ (State.resetOf p).rngRequest = none ∧ (State.resetOf p).irq = false) ∧
  ∀ (s : State) (c : Word), s.cfg.p = 0 → s.cfg.n = 0 →
    ∃ e n, (s.accept c).engineRun = .next ((s.accept c).raise e n) ∧ (e = .badModulus ∨ e = .illegalCmd)

/-- Reset at any time, also while BUSY or overlapped by a transaction (R137, R138, R139): the block is in its reset state.
An RNG answer that comes then is ignored, and one to a request issued before the reset is ignored for ever after, also while a later command
waits for its own: the request is `Abandoned`, every step keeps it so, and its answer changes nothing.
(The numbers of requests are the model's own, log entry 16; the response of an overlapped transaction is a free value, log entry 5.) -/
def Obligations.ResetAbandonsEverything : Prop :=
  (∀ (s : State),
    s.resetBlock = { State.resetOf s.params with schedule := s.schedule, freeCount := s.freeCount, rngRequests := s.rngRequests } ∧
    (∀ m k, s.resetBlock.rngAnswer m k = .next s.resetBlock) ∧
    (∀ (off : Nat) (txn : BusTxn), off < windowSize → txn.addr = s.params.base + off →
      ∃ resp, s.resetOverlapped txn = .next { s.resetBlock with response := some resp, freeCount := s.freeCount + 1 }) ∧
    (∀ m, m ≤ s.rngRequests → s.resetBlock.Abandoned m)) ∧
  ∀ (s : State) (m : Nat), s.Abandoned m →
    (∀ k, s.rngAnswer m k = .next s) ∧ (∀ t, step s = .next t → t.Abandoned m)

/-- "Reset is the only event that changes the configuration registers besides host writes" (R137). -/
def Obligations.ConfigChangesOnlyByHostOrReset : Prop :=
  ∀ s t : State, step s = .next t → t.cfg ≠ s.cfg →
    (∃ addr enables v rest, s.schedule = .host (.write addr enables v) :: rest ∧ s.busy = false) ∨
    (∃ rest, s.schedule = .reset :: rest) ∨ (∃ txn rest, s.schedule = .resetDuring txn :: rest)

/-! ### The machine as a whole -/

/-- A step performs the next scheduled event, and the engine's own move when nothing is scheduled (the model's order, log entry 1);
what each event performs; the engine's move executes the decoded command. The last clause is where `withFetchWord` puts a command (log entry 2). -/
def Obligations.StepRunsTheDecodedCommand : Prop :=
  (∀ s : State, s.schedule = [] → step s = s.engineRun) ∧
  (∀ (s : State) (e : Event) (rest : List Event), s.schedule = e :: rest → step s = { s with schedule := rest }.perform e) ∧
  (∀ s : State, (∀ txn, s.perform (.host txn) = s.busTxn txn) ∧ s.perform .work = .next s.engineWork ∧ s.perform .run = s.engineRun ∧
    (∀ m k, s.perform (.rng m k) = s.rngAnswer m k) ∧ s.perform .reset = .next s.resetBlock ∧
    (∀ txn, s.perform (.resetDuring txn) = s.resetOverlapped txn)) ∧
  (∀ (s : State) (run : Running) (i : Instr) (rest : List Event), s.engine = .busy run → decode run.word = .ok i →
    s.schedule = .run :: rest → step s = exec i { s with schedule := rest }) ∧
  (∀ (s : State) (rest : List Event), s.engine = .idle → s.schedule = .run :: rest → step s = .next { s with schedule := rest }) ∧
  (∀ (s : State) (w : Nat) (i : Instr), w < 2 ^ 32 → decode (BitVec.ofNat 32 w) = .ok i →
    step (s.withFetchWord 32 w) = exec i (s.accept (BitVec.ofNat 32 w)))

/-- What a command's meaning leaves unchanged: registers that are no destination, the configuration, CTRL, LASTCMD, WDROP, the model's own fields
but for the count of RNG requests, which a request it issues raises by one;
RESULT but for ONCURVE and VERIFY, ATTEMPTS but for SIGN; and no register at all where ERR or ERRCODE changes (10_state.md R35, 30_encoding.md R70). -/
def Obligations.CommandFrame : Prop :=
  ∀ (i : Instr) (s t : State), exec i s = .next t →
    t.params = s.params ∧ t.cfg = s.cfg ∧ t.ctrl = s.ctrl ∧ t.lastcmd = s.lastcmd ∧ t.response = s.response ∧
    t.schedule = s.schedule ∧ t.freeCount = s.freeCount ∧ t.status.wdrop = s.status.wdrop ∧
    (t.rngRequests = s.rngRequests ∨ (drawsNonce i = true ∧ t.busy = true ∧ t.rngRequests = s.rngRequests + 1)) ∧
    (∀ j : RegIdx, j ∉ scalarDests i → t.r[j] = s.r[j]) ∧ (∀ j : RegIdx, j ∉ pointDests i → t.pt[j] = s.pt[j]) ∧
    (writesResult i = false → t.status.result = s.status.result) ∧ (isSign i = false → t.status.attempts = s.status.attempts) ∧
    ((t.status.err = s.status.err ∧ t.status.errcode = s.status.errcode) ∨ (t.r = s.r ∧ t.pt = s.pt ∧ t.status.result = s.status.result)) ∧
    (t.busy = true → t.r = s.r ∧ t.pt = s.pt ∧ t.status = s.status)

/-- The same through the host's eyes: every word of the window but STATUS and the destinations reads as before. -/
def Obligations.CommandWindowFrame : Prop :=
  ∀ (i : Instr) (s t : State) (off : Nat), exec i s = .next t → targetOf off ≠ .status → isDestTarget i (targetOf off) = false →
    t.readWord off = s.readWord off

/-- R34 (10_state.md): with the same running command (its snapshot, and the nonces drawn so far) and the same instance, two states end the
command alike, whatever their live registers hold. -/
def Obligations.OutcomeDependsOnTheSnapshotOnly : Prop :=
  ∀ (i : Instr) (s s' t : State), s'.engine = s.engine → s'.params = s.params →
    s.status.err = false → s'.status.err = false → s'.status.errcode = s.status.errcode →
    s'.status.result = s.status.result → s'.status.attempts = s.status.attempts → exec i s = .next t →
    ∃ t', exec i s' = .next t' ∧ t'.engine = t.engine ∧ t'.status.err = t.status.err ∧ t'.status.errcode = t.status.errcode ∧
      t'.status.result = t.status.result ∧ t'.status.attempts = t.status.attempts ∧
      (t.busy = false → t.status.err = false →
        (∀ j ∈ scalarDests i, t'.r[j] = t.r[j]) ∧ (∀ j ∈ pointDests i, t'.pt[j] = t.pt[j]))

/-- R36 (10_state.md): the internal progress is invisible before completion and changes nothing about it. An internal iteration leaves every word
of the window, irq and the RNG request as they are, and the engine ends its command from there exactly as it would have without it. -/
def Obligations.InternalWorkIsInvisible : Prop :=
  ∀ s : State, (∀ off, s.engineWork.readWord off = s.readWord off) ∧ s.engineWork.irq = s.irq ∧
    s.engineWork.rngRequest = s.rngRequest ∧ s.engineWork.engineRun = s.engineRun

/-- Liveness, 70_reset_and_hazards.md R149: a running command completes, or stands at an RNG request; and no more attempts are made than the budget. -/
def Obligations.EngineAlwaysMovesOn : Prop :=
  ∀ (s : State) (run : Running), s.engine = .busy run →
    ∃ t, s.engineRun = .next t ∧ (t.busy = false ∨ t.rngRequest = some run.snap.n) ∧
      (s.Inv → ∀ run', t.engine = .busy run' → run'.progress.rejected < s.params.maxSignAttempts)

/-- The RNG port, 20_memory.md R44 and 70_reset_and_hazards.md R138: an answer in [1, n-1] goes to the request in flight,
carrying its bound n, and one to no request or to another one is ignored. Requests are numbered by the model (log entry 16).
An answer that breaks the contract is refused (log entry 4). -/
def Obligations.RngPort : Prop :=
  ∀ (s : State) (k : Nat),
    (∀ n, s.rngRequest = some n → 1 ≤ k → k ≤ n - 1 → ∃ run, s.engine = .busy run ∧ n = run.snap.n ∧
      s.rngAnswer s.rngRequests k = .next { s with engine := .busy { run with progress := { run.progress with nonce := .answered k } } } ∧
      ∀ t, s.rngAnswer s.rngRequests k = .next t → t.rngRequest = none) ∧
    (∀ m, s.rngRequest = none ∨ m ≠ s.rngRequests → s.rngAnswer m k = .next s) ∧
    (∀ n, s.rngRequest = some n → ¬ (1 ≤ k ∧ k ≤ n - 1) → s.rngAnswer s.rngRequests k = .refused .rngAnswerOutOfRange)

/-- 60_exceptions.md R128: a host write of 1 to DONE before a completion leaves the completion's DONE visible; after it, it clears DONE. -/
def Obligations.CompletionAndAcknowledgeRace : Prop :=
  ∀ (s t : State) (v : Word), s.Inv → s.busy = true → v.getLsbD 1 = true → s.engineRun = .next t → t.busy = false →
    (s.acknowledge v).status.done = s.status.done ∧
    (∃ t', (s.acknowledge v).engineRun = .next t' ∧ t'.status.done = true ∧ t'.busy = false) ∧
    (t.acknowledge v).status.done = false

/-- The invariant holds after reset, for every legal instance. -/
def Obligations.ResetHasInvariant : Prop :=
  (∀ p : Params, p.wf = true → (State.resetOf p).Inv) ∧ State.reset.Inv

/-- Every step keeps the invariant: registers below 2^W, ERRCODE with ERR, and the engine's snapshot, flags and accumulators in order. -/
def Obligations.StepKeepsInvariant : Prop :=
  ∀ s t : State, s.Inv → step s = .next t → t.Inv
end

