-- ==== Sys2Proof/Laws/Arith.lean ====
section
/-! SUPPORT. What the field functions give: square-and-multiply is the power, and every result is below the modulus. -/

namespace Sys2Proof.Laws

open Sys2Proof.Machine

theorem bitLen_zero : bitLen 0 = 0 := rfl

/-- Halving takes one bit away. -/
theorem bitLen_half (k : Nat) (h : k ≠ 0) : bitLen k = bitLen (k / 2) + 1 := by
  unfold bitLen
  rw [if_neg h, Nat.log2_def]
  by_cases h2 : k / 2 = 0
  · have : k = 1 := by omega
    subst this; rfl
  · rw [if_neg h2, if_pos (by omega)]

/-- With fuel for every bit of the exponent, the loop is multiplication by the power. -/
theorem powModLoop_eq (m : Nat) : ∀ (fuel acc b e : Nat), bitLen e ≤ fuel → acc < m ∨ acc = acc % m →
    powModLoop m fuel acc b e = acc * b ^ e % m := by
  intro fuel
  induction fuel with
  | zero =>
    intro acc b e he hacc
    have he0 : e = 0 := by
      by_contra hne
      rw [bitLen_half e hne] at he
      omega
    subst he0
    rcases hacc with h | h
    · simp [powModLoop, Nat.mod_eq_of_lt h]
    · simpa [powModLoop] using h
  | succ fuel ih =>
    intro acc b e he hacc
    have hhalf : bitLen (e / 2) ≤ fuel := by
      by_cases h0 : e = 0
      · subst h0; simp [bitLen]
      · rw [bitLen_half e h0] at he; omega
    have hsq : ∀ a : Nat, a * (b * b % m) ^ (e / 2) % m = a * b ^ (2 * (e / 2)) % m := by
      intro a
      rw [Nat.mul_mod, ← Nat.pow_mod, ← Nat.mul_mod, Nat.pow_mul, Nat.pow_two]
    unfold powModLoop
    by_cases hodd : e % 2 = 1
    · rw [if_pos hodd, ih _ _ _ hhalf (Or.inr (by simp)), hsq, Nat.mod_mul_mod, Nat.mul_assoc, ← Nat.pow_succ']
      congr 3
      omega
    · rw [if_neg hodd, ih _ _ _ hhalf hacc, hsq]
      congr 3
      omega

/-- The exponentiation that runs is the exponentiation of the spec (00_scope.md R8). -/
theorem powMod_eq (y e m : Nat) : powMod y e m = y ^ e % m := by
  unfold powMod
  rw [powModLoop_eq m _ _ _ _ (le_refl _) (Or.inr (by simp)), Nat.mod_mul_mod, Nat.one_mul, ← Nat.pow_mod]

theorem fieldAdd_lt {m : Nat} (h : 0 < m) (x y : Nat) : fieldAdd m x y < m := Nat.mod_lt _ h

theorem fieldSub_lt {m : Nat} (h : 0 < m) (x y : Nat) : fieldSub m x y < m := Nat.mod_lt _ h

theorem fieldMul_lt {m : Nat} (h : 0 < m) (x y : Nat) : fieldMul m x y < m := Nat.mod_lt _ h

/-- `field_inv_m` in the spec's own power (40_field.md R83). -/
theorem fieldInv_eq (m y : Nat) :
    fieldInv m y = if y % m = 0 then .error .divByZero else .ok (y ^ (m - 2) % m) := by
  unfold fieldInv
  rw [powMod_eq]

theorem fieldInv_ok {m y v : Nat} (h : fieldInv m y = .ok v) : y % m ≠ 0 ∧ v = y ^ (m - 2) % m := by
  rw [fieldInv_eq] at h
  split at h
  · simp at h
  · exact ⟨‹_›, by simpa using h.symm⟩

theorem fieldInv_error {m y : Nat} {e : CmdError} (h : fieldInv m y = .error e) : y % m = 0 ∧ e = .divByZero := by
  rw [fieldInv_eq] at h
  split at h
  · exact ⟨‹_›, by simpa using h.symm⟩
  · simp at h

/-- Division in one equation (40_field.md R84). -/
theorem fieldDiv_eq (m x y : Nat) :
    fieldDiv m x y = if y % m = 0 then .error .divByZero else .ok (fieldMul m x (y ^ (m - 2) % m)) := by
  unfold fieldDiv
  rw [fieldInv_eq]
  split <;> rfl

theorem fieldDiv_lt {m x y v : Nat} (hm : 0 < m) (h : fieldDiv m x y = .ok v) : v < m := by
  rw [fieldDiv_eq] at h
  split at h
  · simp at h
  · simp only [Except.ok.injEq] at h
    exact h ▸ fieldMul_lt hm _ _

theorem fieldDiv_error {m x y : Nat} {e : CmdError} (h : fieldDiv m x y = .error e) : y % m = 0 ∧ e = .divByZero := by
  rw [fieldDiv_eq] at h
  split at h
  · exact ⟨‹_›, by simpa using h.symm⟩
  · simp at h

end Sys2Proof.Laws
end

