-- ==== Sys2Proof/Laws/Decode.lean ====
section
/-! SUPPORT. The fields of a packed command word are the values packed (30_encoding.md R65, R78). -/

namespace Sys2Proof.Laws

open Sys2Proof

theorem bitsOf_lt (c : Word) (lo len : Nat) : bitsOf c lo len < 2 ^ len := Nat.mod_lt _ (by positivity)

/-- A one-bit field is 0 or 1. -/
theorem bitsOf_one (c : Word) (lo : Nat) : bitsOf c lo 1 = 0 ∨ bitsOf c lo 1 = 1 := by
  have := bitsOf_lt c lo 1
  omega

/-- Every field of format C, read back. -/
theorem bitsOf_packC (op m : Nat) (rd ra rb rc : RegIdx) (hop : op < 64) (hm : m < 2) :
    bitsOf (packC op m rd ra rb rc) 0 6 = op ∧ bitsOf (packC op m rd ra rb rc) 6 1 = m ∧
    bitsOf (packC op m rd ra rb rc) 7 1 = 0 ∧ bitsOf (packC op m rd ra rb rc) 8 4 = rd.val ∧
    bitsOf (packC op m rd ra rb rc) 12 4 = ra.val ∧ bitsOf (packC op m rd ra rb rc) 16 4 = rb.val ∧
    bitsOf (packC op m rd ra rb rc) 20 4 = rc.val ∧ bitsOf (packC op m rd ra rb rc) 24 8 = 0 := by
  have := rd.isLt; have := ra.isLt; have := rb.isLt; have := rc.isLt
  simp only [bitsOf, packC, BitVec.toNat_ofNat]
  norm_num
  omega

/-- An index field as a register index. -/
theorem idxAt_eq {c : Word} {lo : Nat} {i : RegIdx} (h : bitsOf c lo 4 = i.val) : idxAt c lo = i := by
  unfold idxAt
  rw [h]
  exact Fin.ext (Nat.mod_eq_of_lt i.isLt)

end Sys2Proof.Laws
end

