-- ==== Sys2Proof/Laws/Group.lean ====
section
/-! SUPPORT. What the curve functions can answer: only DivisionByZero, only points in range; and that the multiplication loop,
carried on from any of its iterations, ends as it would have from the start. -/

namespace Sys2Proof.Laws

open Sys2Proof.Machine

/-! ### Monad lemmas: a bind that answers comes from two that answer. -/

theorem bind_ok {α β : Type} {x : Except CmdError α} {f : α → Except CmdError β} {b : β} (h : (x >>= f) = .ok b) :
    ∃ a, x = .ok a ∧ f a = .ok b := by
  cases x with
  | error e => cases h
  | ok a => exact ⟨a, rfl, h⟩

theorem bind_error {α β : Type} {x : Except CmdError α} {f : α → Except CmdError β} {e : CmdError} (h : (x >>= f) = .error e) :
    x = .error e ∨ ∃ a, x = .ok a ∧ f a = .error e := by
  cases x with
  | error e' => cases h; exact Or.inl rfl
  | ok a => exact Or.inr ⟨a, rfl, h⟩

/-! ### Range -/

theorem tangentPoint_inRange {c : Curve} {x y : Nat} {V : Point} (hp : 0 < c.p) (h : tangentPoint c x y = .ok V) :
    V.inRange c.p = true := by
  obtain ⟨s, _, hV⟩ := bind_ok h
  cases hV
  simp [Point.inRange, fieldSub_lt hp]

theorem chordPoint_inRange {c : Curve} {x1 y1 x2 y2 : Nat} {V : Point} (hp : 0 < c.p) (h : chordPoint c x1 y1 x2 y2 = .ok V) :
    V.inRange c.p = true := by
  obtain ⟨s, _, hV⟩ := bind_ok h
  cases hV
  simp [Point.inRange, fieldSub_lt hp]

theorem ecDouble_inRange {c : Curve} {P V : Point} (hp : 0 < c.p) (h : ecDouble c P = .ok V) : V.inRange c.p = true := by
  cases P with
  | identity => cases h; rfl
  | coord x y =>
    simp only [ecDouble] at h
    split at h
    · cases h; rfl
    · exact tangentPoint_inRange hp h

theorem ecAdd_inRange {c : Curve} {P Q V : Point} (hp : 0 < c.p) (hP : P.inRange c.p = true) (hQ : Q.inRange c.p = true)
    (h : ecAdd c P Q = .ok V) : V.inRange c.p = true := by
  cases P with
  | identity => cases h; exact hQ
  | coord x1 y1 =>
    cases Q with
    | identity => cases h; exact hP
    | coord x2 y2 =>
      simp only [ecAdd] at h
      split at h
      · split at h
        · exact ecDouble_inRange hp h
        · cases h; rfl
      · exact chordPoint_inRange hp h

theorem mulStep_inRange {c : Curve} {l l' : MulLoop} (hp : 0 < c.p) (hr : l.result.inRange c.p = true)
    (ha : l.addend.inRange c.p = true) (h : mulStep c l = .ok l') :
    l'.result.inRange c.p = true ∧ l'.addend.inRange c.p = true := by
  obtain ⟨R, hR, h⟩ := bind_ok h
  obtain ⟨A, hA, h⟩ := bind_ok h
  cases h
  refine ⟨?_, ecDouble_inRange hp hA⟩
  unfold mulAddend at hR
  split at hR
  · exact ecAdd_inRange hp hr ha hR
  · cases hR; exact hr

theorem mulRun_inRange {c : Curve} (hp : 0 < c.p) : ∀ (fuel : Nat) {l : MulLoop} {V : Point}, l.result.inRange c.p = true →
    l.addend.inRange c.p = true → mulRun c fuel l = .ok V → V.inRange c.p = true := by
  intro fuel
  induction fuel with
  | zero => intro l V hr _ h; cases h; exact hr
  | succ fuel ih =>
    intro l V hr ha h
    unfold mulRun at h
    split at h
    · cases h; exact hr
    · obtain ⟨l', hl, h⟩ := bind_ok h
      obtain ⟨hr', ha'⟩ := mulStep_inRange hp hr ha hl
      exact ih hr' ha' h

theorem ecScalarMult_inRange {c : Curve} {P V : Point} {k : Nat} (hp : 0 < c.p) (hP : P.inRange c.p = true)
    (h : ecScalarMult c P k = .ok V) : V.inRange c.p = true := by
  unfold ecScalarMult at h
  split at h
  · cases h; rfl
  · split at h
    · cases h; exact hP
    · exact mulRun_inRange hp _ rfl hP h

/-! ### The one error -/

theorem ecDouble_error {c : Curve} {P : Point} {e : CmdError} (h : ecDouble c P = .error e) : e = .divByZero := by
  cases P with
  | identity => cases h
  | coord x y =>
    simp only [ecDouble] at h
    split at h
    · cases h
    · rcases bind_error h with h | ⟨_, _, h⟩
      · exact (fieldDiv_error h).2
      · cases h

theorem ecAdd_error {c : Curve} {P Q : Point} {e : CmdError} (h : ecAdd c P Q = .error e) : e = .divByZero := by
  cases P with
  | identity => cases h
  | coord x1 y1 =>
    cases Q with
    | identity => cases h
    | coord x2 y2 =>
      simp only [ecAdd] at h
      split at h
      · split at h
        · exact ecDouble_error h
        · cases h
      · rcases bind_error h with h | ⟨_, _, h⟩
        · exact (fieldDiv_error h).2
        · cases h

theorem mulStep_error {c : Curve} {l : MulLoop} {e : CmdError} (h : mulStep c l = .error e) : e = .divByZero := by
  rcases bind_error h with h | ⟨_, _, h⟩
  · unfold mulAddend at h
    split at h
    · exact ecAdd_error h
    · cases h
  · rcases bind_error h with h | ⟨_, _, h⟩
    · exact ecDouble_error h
    · cases h

theorem mulRun_error {c : Curve} : ∀ (fuel : Nat) {l : MulLoop} {e : CmdError}, mulRun c fuel l = .error e → e = .divByZero := by
  intro fuel
  induction fuel with
  | zero => intro l e h; cases h
  | succ fuel ih =>
    intro l e h
    unfold mulRun at h
    split at h
    · cases h
    · rcases bind_error h with h | ⟨_, _, h⟩
      · exact mulStep_error h
      · exact ih h

theorem ecScalarMult_error {c : Curve} {P : Point} {k : Nat} {e : CmdError} (h : ecScalarMult c P k = .error e) : e = .divByZero := by
  unfold ecScalarMult at h
  split at h
  · cases h
  · split at h
    · cases h
    · exact mulRun_error _ h

theorem firstMul_error {c : Curve} {P : Point} {k : Nat} {g : MulProgress} {e : CmdError} (h : firstMul c P k g = .error e) :
    e = .divByZero := by
  cases g with
  | notBegun => exact ecScalarMult_error h
  | first l => exact mulRun_error _ h
  | firstDone R => cases h
  | second R l => cases h

theorem secondMul_error {c : Curve} {P : Point} {k : Nat} {g : MulProgress} {e : CmdError} (h : secondMul c P k g = .error e) :
    e = .divByZero := by
  cases g with
  | notBegun => exact ecScalarMult_error h
  | first l => exact ecScalarMult_error h
  | firstDone R => exact ecScalarMult_error h
  | second R l => exact mulRun_error _ h

/-! ### Carrying the loop on -/

@[simp] theorem mulFinish_done (c : Curve) (l : MulLoop) (h : l.rem = 0) : mulFinish c l = .ok l.result := by
  unfold mulFinish
  rw [h]
  rfl

theorem mulStep_rem {c : Curve} {l l' : MulLoop} (h : mulStep c l = .ok l') : l'.rem = l.rem / 2 := by
  obtain ⟨R, _, h⟩ := bind_ok h
  obtain ⟨A, _, h⟩ := bind_ok h
  cases h
  rfl

/-- The loop is one iteration and then the loop (41_curve.md R97: "while e > 0"). -/
theorem mulFinish_step (c : Curve) (l : MulLoop) (h : l.rem ≠ 0) : mulFinish c l = mulStep c l >>= mulFinish c := by
  unfold mulFinish
  rw [bitLen_half _ h, mulRun, if_neg h]
  cases hs : mulStep c l with
  | error e => rfl
  | ok l' =>
    show mulRun c (bitLen (l.rem / 2)) l' = mulRun c (bitLen l'.rem) l'
    rw [mulStep_rem hs]

theorem mulFinish_of_step {c : Curve} {l l' : MulLoop} (h : l.rem ≠ 0) (hs : mulStep c l = .ok l') :
    mulFinish c l' = mulFinish c l := by
  rw [mulFinish_step c l h, hs]
  rfl

/-- An internal iteration does not change what the first multiplication ends with (10_state.md R36). -/
theorem firstMul_mulAdvance (c : Curve) (P : Point) (k : Nat) (next : Option (Point × Nat)) (g : MulProgress) :
    firstMul c P k (mulAdvance c P k next g) = firstMul c P k g := by
  cases g with
  | notBegun =>
    simp only [mulAdvance, firstMul, ecScalarMult]
    by_cases h0 : k = 0
    · simp [h0]
    · by_cases h1 : k = 1
      · simp [h1]
      · simp [h0, h1]
  | first l =>
    simp only [mulAdvance]
    by_cases h : l.rem = 0
    · simp [h, firstMul]
    · rw [if_neg h]
      cases hs : mulStep c l with
      | error e => rfl
      | ok l' => exact mulFinish_of_step h hs
  | firstDone R =>
    cases next with
    | none => rfl
    | some q => simp only [mulAdvance]; split <;> rfl
  | second R l =>
    simp only [mulAdvance]
    split
    · rfl
    · split <;> rfl

/-- Nor what the second ends with. -/
theorem secondMul_mulAdvance (c : Curve) (P Q : Point) (k j : Nat) (g : MulProgress) :
    secondMul c Q j (mulAdvance c P k (some (Q, j)) g) = secondMul c Q j g := by
  cases g with
  | notBegun =>
    simp only [mulAdvance]
    split
    · rfl
    · split <;> rfl
  | first l =>
    simp only [mulAdvance]
    split
    · rfl
    · split <;> rfl
  | firstDone R =>
    simp only [mulAdvance]
    by_cases h : j < 2
    · rw [if_pos h]
    · rw [if_neg h]
      simp only [secondMul, ecScalarMult]
      rw [if_neg (by omega), if_neg (by omega)]
  | second R l =>
    simp only [mulAdvance]
    by_cases h : l.rem = 0
    · simp [h]
    · rw [if_neg h]
      cases hs : mulStep c l with
      | error e => rfl
      | ok l' => exact mulFinish_of_step h hs

end Sys2Proof.Laws
end

