-- ==== Sys2Proof/Laws/State.lean ====
section
/-! SUPPORT. One lemma per field per update of the state, true by rfl, so that no proof unfolds a record update. -/

namespace Sys2Proof.Machine

/-! ### `State.accept` -/

@[simp] theorem State.accept_params (s : State) (c : Word) : (s.accept c).params = s.params := rfl
@[simp] theorem State.accept_r (s : State) (c : Word) : (s.accept c).r = s.r := rfl
@[simp] theorem State.accept_pt (s : State) (c : Word) : (s.accept c).pt = s.pt := rfl
@[simp] theorem State.accept_cfg (s : State) (c : Word) : (s.accept c).cfg = s.cfg := rfl
@[simp] theorem State.accept_ctrl (s : State) (c : Word) : (s.accept c).ctrl = s.ctrl := rfl
@[simp] theorem State.accept_status (s : State) (c : Word) : (s.accept c).status = s.status.onAccept := rfl
@[simp] theorem State.accept_lastcmd (s : State) (c : Word) : (s.accept c).lastcmd = c := rfl
@[simp] theorem State.accept_engine (s : State) (c : Word) : (s.accept c).engine = .busy ⟨c, s.snapshot, .start⟩ := rfl
@[simp] theorem State.accept_response (s : State) (c : Word) : (s.accept c).response = s.response := rfl
@[simp] theorem State.accept_schedule (s : State) (c : Word) : (s.accept c).schedule = s.schedule := rfl
@[simp] theorem State.accept_freeCount (s : State) (c : Word) : (s.accept c).freeCount = s.freeCount := rfl
@[simp] theorem State.accept_rngRequests (s : State) (c : Word) : (s.accept c).rngRequests = s.rngRequests := rfl

/-! ### `State.commit` -/

@[simp] theorem State.commit_params (s : State) (w : Commit) : (s.commit w).params = s.params := rfl
@[simp] theorem State.commit_r (s : State) (w : Commit) : (s.commit w).r = writeScalars s.r w.scalars := rfl
@[simp] theorem State.commit_pt (s : State) (w : Commit) : (s.commit w).pt = writePoint s.pt w.point := rfl
@[simp] theorem State.commit_cfg (s : State) (w : Commit) : (s.commit w).cfg = s.cfg := rfl
@[simp] theorem State.commit_ctrl (s : State) (w : Commit) : (s.commit w).ctrl = s.ctrl := rfl
@[simp] theorem State.commit_status (s : State) (w : Commit) : (s.commit w).status = s.status.onSuccess w.result w.attempts := rfl
@[simp] theorem State.commit_lastcmd (s : State) (w : Commit) : (s.commit w).lastcmd = s.lastcmd := rfl
@[simp] theorem State.commit_engine (s : State) (w : Commit) : (s.commit w).engine = .idle := rfl
@[simp] theorem State.commit_response (s : State) (w : Commit) : (s.commit w).response = s.response := rfl
@[simp] theorem State.commit_schedule (s : State) (w : Commit) : (s.commit w).schedule = s.schedule := rfl
@[simp] theorem State.commit_freeCount (s : State) (w : Commit) : (s.commit w).freeCount = s.freeCount := rfl
@[simp] theorem State.commit_rngRequests (s : State) (w : Commit) : (s.commit w).rngRequests = s.rngRequests := rfl

/-! ### `State.raise` -/

@[simp] theorem State.raise_params (s : State) (e : CmdError) (n : Option Nat) : (s.raise e n).params = s.params := rfl
@[simp] theorem State.raise_r (s : State) (e : CmdError) (n : Option Nat) : (s.raise e n).r = s.r := rfl
@[simp] theorem State.raise_pt (s : State) (e : CmdError) (n : Option Nat) : (s.raise e n).pt = s.pt := rfl
@[simp] theorem State.raise_cfg (s : State) (e : CmdError) (n : Option Nat) : (s.raise e n).cfg = s.cfg := rfl
@[simp] theorem State.raise_ctrl (s : State) (e : CmdError) (n : Option Nat) : (s.raise e n).ctrl = s.ctrl := rfl
@[simp] theorem State.raise_status (s : State) (e : CmdError) (n : Option Nat) : (s.raise e n).status = s.status.onError e n := rfl
@[simp] theorem State.raise_lastcmd (s : State) (e : CmdError) (n : Option Nat) : (s.raise e n).lastcmd = s.lastcmd := rfl
@[simp] theorem State.raise_engine (s : State) (e : CmdError) (n : Option Nat) : (s.raise e n).engine = .idle := rfl
@[simp] theorem State.raise_response (s : State) (e : CmdError) (n : Option Nat) : (s.raise e n).response = s.response := rfl
@[simp] theorem State.raise_schedule (s : State) (e : CmdError) (n : Option Nat) : (s.raise e n).schedule = s.schedule := rfl
@[simp] theorem State.raise_freeCount (s : State) (e : CmdError) (n : Option Nat) : (s.raise e n).freeCount = s.freeCount := rfl
@[simp] theorem State.raise_rngRequests (s : State) (e : CmdError) (n : Option Nat) : (s.raise e n).rngRequests = s.rngRequests := rfl

/-! ### `State.acknowledge` -/

@[simp] theorem State.acknowledge_params (s : State) (v : Word) : (s.acknowledge v).params = s.params := rfl
@[simp] theorem State.acknowledge_r (s : State) (v : Word) : (s.acknowledge v).r = s.r := rfl
@[simp] theorem State.acknowledge_pt (s : State) (v : Word) : (s.acknowledge v).pt = s.pt := rfl
@[simp] theorem State.acknowledge_cfg (s : State) (v : Word) : (s.acknowledge v).cfg = s.cfg := rfl
@[simp] theorem State.acknowledge_ctrl (s : State) (v : Word) : (s.acknowledge v).ctrl = s.ctrl := rfl
@[simp] theorem State.acknowledge_status (s : State) (v : Word) : (s.acknowledge v).status = s.status.onWrite v := rfl
@[simp] theorem State.acknowledge_lastcmd (s : State) (v : Word) : (s.acknowledge v).lastcmd = s.lastcmd := rfl
@[simp] theorem State.acknowledge_engine (s : State) (v : Word) : (s.acknowledge v).engine = s.engine := rfl
@[simp] theorem State.acknowledge_response (s : State) (v : Word) : (s.acknowledge v).response = s.response := rfl
@[simp] theorem State.acknowledge_schedule (s : State) (v : Word) : (s.acknowledge v).schedule = s.schedule := rfl
@[simp] theorem State.acknowledge_freeCount (s : State) (v : Word) : (s.acknowledge v).freeCount = s.freeCount := rfl
@[simp] theorem State.acknowledge_rngRequests (s : State) (v : Word) : (s.acknowledge v).rngRequests = s.rngRequests := rfl

/-! ### `State.dropWrite` -/

@[simp] theorem State.dropWrite_params (s : State) : (s.dropWrite).params = s.params := rfl
@[simp] theorem State.dropWrite_r (s : State) : (s.dropWrite).r = s.r := rfl
@[simp] theorem State.dropWrite_pt (s : State) : (s.dropWrite).pt = s.pt := rfl
@[simp] theorem State.dropWrite_cfg (s : State) : (s.dropWrite).cfg = s.cfg := rfl
@[simp] theorem State.dropWrite_ctrl (s : State) : (s.dropWrite).ctrl = s.ctrl := rfl
@[simp] theorem State.dropWrite_status (s : State) : (s.dropWrite).status = s.status.onDrop := rfl
@[simp] theorem State.dropWrite_lastcmd (s : State) : (s.dropWrite).lastcmd = s.lastcmd := rfl
@[simp] theorem State.dropWrite_engine (s : State) : (s.dropWrite).engine = s.engine := rfl
@[simp] theorem State.dropWrite_response (s : State) : (s.dropWrite).response = s.response := rfl
@[simp] theorem State.dropWrite_schedule (s : State) : (s.dropWrite).schedule = s.schedule := rfl
@[simp] theorem State.dropWrite_freeCount (s : State) : (s.dropWrite).freeCount = s.freeCount := rfl
@[simp] theorem State.dropWrite_rngRequests (s : State) : (s.dropWrite).rngRequests = s.rngRequests := rfl

/-! ### `State.withProgress` -/

@[simp] theorem State.withProgress_params (s : State) (run : Running) (g : Progress) : (s.withProgress run g).params = s.params := rfl
@[simp] theorem State.withProgress_r (s : State) (run : Running) (g : Progress) : (s.withProgress run g).r = s.r := rfl
@[simp] theorem State.withProgress_pt (s : State) (run : Running) (g : Progress) : (s.withProgress run g).pt = s.pt := rfl
@[simp] theorem State.withProgress_cfg (s : State) (run : Running) (g : Progress) : (s.withProgress run g).cfg = s.cfg := rfl
@[simp] theorem State.withProgress_ctrl (s : State) (run : Running) (g : Progress) : (s.withProgress run g).ctrl = s.ctrl := rfl
@[simp] theorem State.withProgress_status (s : State) (run : Running) (g : Progress) : (s.withProgress run g).status = s.status := rfl
@[simp] theorem State.withProgress_lastcmd (s : State) (run : Running) (g : Progress) : (s.withProgress run g).lastcmd = s.lastcmd := rfl
@[simp] theorem State.withProgress_engine (s : State) (run : Running) (g : Progress) : (s.withProgress run g).engine = .busy { run with progress := g } := rfl
@[simp] theorem State.withProgress_response (s : State) (run : Running) (g : Progress) : (s.withProgress run g).response = s.response := rfl
@[simp] theorem State.withProgress_schedule (s : State) (run : Running) (g : Progress) : (s.withProgress run g).schedule = s.schedule := rfl
@[simp] theorem State.withProgress_freeCount (s : State) (run : Running) (g : Progress) : (s.withProgress run g).freeCount = s.freeCount := rfl
@[simp] theorem State.withProgress_rngRequests (s : State) (run : Running) (g : Progress) : (s.withProgress run g).rngRequests = s.rngRequests := rfl

/-! ### `State.requestNonce` -/

@[simp] theorem State.requestNonce_params (s : State) (run : Running) (n : Nat) : (s.requestNonce run n).params = s.params := rfl
@[simp] theorem State.requestNonce_r (s : State) (run : Running) (n : Nat) : (s.requestNonce run n).r = s.r := rfl
@[simp] theorem State.requestNonce_pt (s : State) (run : Running) (n : Nat) : (s.requestNonce run n).pt = s.pt := rfl
@[simp] theorem State.requestNonce_cfg (s : State) (run : Running) (n : Nat) : (s.requestNonce run n).cfg = s.cfg := rfl
@[simp] theorem State.requestNonce_ctrl (s : State) (run : Running) (n : Nat) : (s.requestNonce run n).ctrl = s.ctrl := rfl
@[simp] theorem State.requestNonce_status (s : State) (run : Running) (n : Nat) : (s.requestNonce run n).status = s.status := rfl
@[simp] theorem State.requestNonce_lastcmd (s : State) (run : Running) (n : Nat) : (s.requestNonce run n).lastcmd = s.lastcmd := rfl
@[simp] theorem State.requestNonce_engine (s : State) (run : Running) (n : Nat) : (s.requestNonce run n).engine = .busy { run with progress := ⟨n, .requested, .notBegun⟩ } := rfl
@[simp] theorem State.requestNonce_response (s : State) (run : Running) (n : Nat) : (s.requestNonce run n).response = s.response := rfl
@[simp] theorem State.requestNonce_schedule (s : State) (run : Running) (n : Nat) : (s.requestNonce run n).schedule = s.schedule := rfl
@[simp] theorem State.requestNonce_freeCount (s : State) (run : Running) (n : Nat) : (s.requestNonce run n).freeCount = s.freeCount := rfl
@[simp] theorem State.requestNonce_rngRequests (s : State) (run : Running) (n : Nat) : (s.requestNonce run n).rngRequests = s.rngRequests + 1 := rfl

/-! ### `State.resetBlock` -/

@[simp] theorem State.resetBlock_params (s : State) : s.resetBlock.params = s.params := rfl
@[simp] theorem State.resetBlock_r (s : State) : s.resetBlock.r = (State.resetOf s.params).r := rfl
@[simp] theorem State.resetBlock_pt (s : State) : s.resetBlock.pt = (State.resetOf s.params).pt := rfl
@[simp] theorem State.resetBlock_cfg (s : State) : s.resetBlock.cfg = (State.resetOf s.params).cfg := rfl
@[simp] theorem State.resetBlock_ctrl (s : State) : s.resetBlock.ctrl = (State.resetOf s.params).ctrl := rfl
@[simp] theorem State.resetBlock_status (s : State) : s.resetBlock.status = (State.resetOf s.params).status := rfl
@[simp] theorem State.resetBlock_lastcmd (s : State) : s.resetBlock.lastcmd = (State.resetOf s.params).lastcmd := rfl
@[simp] theorem State.resetBlock_engine (s : State) : s.resetBlock.engine = (State.resetOf s.params).engine := rfl
@[simp] theorem State.resetBlock_response (s : State) : s.resetBlock.response = (State.resetOf s.params).response := rfl
@[simp] theorem State.resetBlock_schedule (s : State) : s.resetBlock.schedule = s.schedule := rfl
@[simp] theorem State.resetBlock_freeCount (s : State) : s.resetBlock.freeCount = s.freeCount := rfl
@[simp] theorem State.resetBlock_rngRequests (s : State) : s.resetBlock.rngRequests = s.rngRequests := rfl

/-! ### `Status` updates -/

@[simp] theorem Status.onAccept_done (st : Status) : (st.onAccept).done = (false) := rfl
@[simp] theorem Status.onAccept_err (st : Status) : (st.onAccept).err = (st.err) := rfl
@[simp] theorem Status.onAccept_result (st : Status) : (st.onAccept).result = (false) := rfl
@[simp] theorem Status.onAccept_wdrop (st : Status) : (st.onAccept).wdrop = (st.wdrop) := rfl
@[simp] theorem Status.onAccept_errcode (st : Status) : (st.onAccept).errcode = (st.errcode) := rfl
@[simp] theorem Status.onAccept_attempts (st : Status) : (st.onAccept).attempts = (0) := rfl
@[simp] theorem Status.onSuccess_done (st : Status) (b : Option Bool) (n : Option Nat) : (st.onSuccess b n).done = (true) := rfl
@[simp] theorem Status.onSuccess_err (st : Status) (b : Option Bool) (n : Option Nat) : (st.onSuccess b n).err = (st.err) := rfl
@[simp] theorem Status.onSuccess_result (st : Status) (b : Option Bool) (n : Option Nat) : (st.onSuccess b n).result = (b.getD st.result) := rfl
@[simp] theorem Status.onSuccess_wdrop (st : Status) (b : Option Bool) (n : Option Nat) : (st.onSuccess b n).wdrop = (st.wdrop) := rfl
@[simp] theorem Status.onSuccess_errcode (st : Status) (b : Option Bool) (n : Option Nat) : (st.onSuccess b n).errcode = (st.errcode) := rfl
@[simp] theorem Status.onSuccess_attempts (st : Status) (b : Option Bool) (n : Option Nat) : (st.onSuccess b n).attempts = ((n.map (BitVec.ofNat 16)).getD st.attempts) := rfl
@[simp] theorem Status.onError_done (st : Status) (e : CmdError) (n : Option Nat) : (st.onError e n).done = (true) := rfl
@[simp] theorem Status.onError_err (st : Status) (e : CmdError) (n : Option Nat) : (st.onError e n).err = (true) := rfl
@[simp] theorem Status.onError_result (st : Status) (e : CmdError) (n : Option Nat) : (st.onError e n).result = (st.result) := rfl
@[simp] theorem Status.onError_wdrop (st : Status) (e : CmdError) (n : Option Nat) : (st.onError e n).wdrop = (st.wdrop) := rfl
@[simp] theorem Status.onError_errcode (st : Status) (e : CmdError) (n : Option Nat) : (st.onError e n).errcode = (some e) := rfl
@[simp] theorem Status.onError_attempts (st : Status) (e : CmdError) (n : Option Nat) : (st.onError e n).attempts = ((n.map (BitVec.ofNat 16)).getD st.attempts) := rfl
@[simp] theorem Status.onDrop_done (st : Status) : (st.onDrop).done = (st.done) := rfl
@[simp] theorem Status.onDrop_err (st : Status) : (st.onDrop).err = (st.err) := rfl
@[simp] theorem Status.onDrop_result (st : Status) : (st.onDrop).result = (st.result) := rfl
@[simp] theorem Status.onDrop_wdrop (st : Status) : (st.onDrop).wdrop = (true) := rfl
@[simp] theorem Status.onDrop_errcode (st : Status) : (st.onDrop).errcode = (st.errcode) := rfl
@[simp] theorem Status.onDrop_attempts (st : Status) : (st.onDrop).attempts = (st.attempts) := rfl
@[simp] theorem Status.onWrite_done (st : Status) (v : Word) : (st.onWrite v).done = ((st.done && !v.getLsbD 1)) := rfl
@[simp] theorem Status.onWrite_err (st : Status) (v : Word) : (st.onWrite v).err = ((st.err && !v.getLsbD 2)) := rfl
@[simp] theorem Status.onWrite_result (st : Status) (v : Word) : (st.onWrite v).result = (st.result) := rfl
@[simp] theorem Status.onWrite_wdrop (st : Status) (v : Word) : (st.onWrite v).wdrop = ((st.wdrop && !v.getLsbD 4)) := rfl
@[simp] theorem Status.onWrite_errcode (st : Status) (v : Word) : (st.onWrite v).errcode = (if v.getLsbD 2 then none else st.errcode) := rfl
@[simp] theorem Status.onWrite_attempts (st : Status) (v : Word) : (st.onWrite v).attempts = (st.attempts) := rfl

/-! ### BUSY -/

@[simp] theorem Engine.isBusy_idle : Engine.idle.isBusy = false := rfl
@[simp] theorem Engine.isBusy_busy (run : Running) : (Engine.busy run).isBusy = true := rfl
@[simp] theorem State.accept_busy (s : State) (c : Word) : (s.accept c).busy = true := rfl
@[simp] theorem State.commit_busy (s : State) (w : Commit) : (s.commit w).busy = false := rfl
@[simp] theorem State.raise_busy (s : State) (e : CmdError) (n : Option Nat) : (s.raise e n).busy = false := rfl
@[simp] theorem State.acknowledge_busy (s : State) (v : Word) : (s.acknowledge v).busy = s.busy := rfl
@[simp] theorem State.dropWrite_busy (s : State) : s.dropWrite.busy = s.busy := rfl
@[simp] theorem State.resetBlock_busy (s : State) : s.resetBlock.busy = false := rfl

/-- BUSY is the engine's state (10_state.md R32). -/
theorem State.busy_iff (s : State) : s.busy = true ↔ ∃ run, s.engine = .busy run := by
  unfold State.busy
  cases s.engine <;> simp

/-- IDLE is BUSY = 0 (10_state.md R32). -/
theorem State.not_busy_iff (s : State) : s.busy = false ↔ s.engine = .idle := by
  unfold State.busy
  cases s.engine <;> simp

/-! ### `State.writeBig` and `State.engineWork` leave the other fields alone -/

@[simp] theorem State.writeBig_params (s : State) (b : BigReg) (v : Nat) : (s.writeBig b v).params = s.params := by cases b <;> rfl
@[simp] theorem State.writeBig_ctrl (s : State) (b : BigReg) (v : Nat) : (s.writeBig b v).ctrl = s.ctrl := by cases b <;> rfl
@[simp] theorem State.writeBig_status (s : State) (b : BigReg) (v : Nat) : (s.writeBig b v).status = s.status := by cases b <;> rfl
@[simp] theorem State.writeBig_lastcmd (s : State) (b : BigReg) (v : Nat) : (s.writeBig b v).lastcmd = s.lastcmd := by cases b <;> rfl
@[simp] theorem State.writeBig_engine (s : State) (b : BigReg) (v : Nat) : (s.writeBig b v).engine = s.engine := by cases b <;> rfl
@[simp] theorem State.writeBig_response (s : State) (b : BigReg) (v : Nat) : (s.writeBig b v).response = s.response := by cases b <;> rfl
@[simp] theorem State.writeBig_schedule (s : State) (b : BigReg) (v : Nat) : (s.writeBig b v).schedule = s.schedule := by cases b <;> rfl
@[simp] theorem State.writeBig_freeCount (s : State) (b : BigReg) (v : Nat) : (s.writeBig b v).freeCount = s.freeCount := by cases b <;> rfl
@[simp] theorem State.writeBig_rngRequests (s : State) (b : BigReg) (v : Nat) : (s.writeBig b v).rngRequests = s.rngRequests := by cases b <;> rfl

@[simp] theorem State.engineWork_params (s : State) : s.engineWork.params = s.params := by
  unfold State.engineWork; split <;> [rfl; (split <;> rfl)]
@[simp] theorem State.engineWork_r (s : State) : s.engineWork.r = s.r := by
  unfold State.engineWork; split <;> [rfl; (split <;> rfl)]
@[simp] theorem State.engineWork_pt (s : State) : s.engineWork.pt = s.pt := by
  unfold State.engineWork; split <;> [rfl; (split <;> rfl)]
@[simp] theorem State.engineWork_cfg (s : State) : s.engineWork.cfg = s.cfg := by
  unfold State.engineWork; split <;> [rfl; (split <;> rfl)]
@[simp] theorem State.engineWork_ctrl (s : State) : s.engineWork.ctrl = s.ctrl := by
  unfold State.engineWork; split <;> [rfl; (split <;> rfl)]
@[simp] theorem State.engineWork_status (s : State) : s.engineWork.status = s.status := by
  unfold State.engineWork; split <;> [rfl; (split <;> rfl)]
@[simp] theorem State.engineWork_lastcmd (s : State) : s.engineWork.lastcmd = s.lastcmd := by
  unfold State.engineWork; split <;> [rfl; (split <;> rfl)]
@[simp] theorem State.engineWork_response (s : State) : s.engineWork.response = s.response := by
  unfold State.engineWork; split <;> [rfl; (split <;> rfl)]
@[simp] theorem State.engineWork_schedule (s : State) : s.engineWork.schedule = s.schedule := by
  unfold State.engineWork; split <;> [rfl; (split <;> rfl)]
@[simp] theorem State.engineWork_freeCount (s : State) : s.engineWork.freeCount = s.freeCount := by
  unfold State.engineWork; split <;> [rfl; (split <;> rfl)]
@[simp] theorem State.engineWork_rngRequests (s : State) : s.engineWork.rngRequests = s.rngRequests := by
  unfold State.engineWork; split <;> [rfl; (split <;> rfl)]

@[simp] theorem State.unlessBusy_idle (s t : State) (h : s.busy = false) : s.unlessBusy t = t := by simp [State.unlessBusy, h]
@[simp] theorem State.unlessBusy_busy (s t : State) (h : s.busy = true) : s.unlessBusy t = s.dropWrite := by simp [State.unlessBusy, h]

end Sys2Proof.Machine
end

