-- ==== Sys2Proof/Laws/Ops.lean ====
section
/-! SUPPORT. One spec lemma per shared operation: what it can answer, what it changes, what it keeps. -/

namespace Sys2Proof.Laws

open Sys2Proof.Machine Sys2Proof.Config

/-! ### Running a meaning and ending it -/

@[simp] theorem withCommand_busy {s : State} {run : Running} (h : s.engine = .busy run)
    (f : Running → Host.Outcome State Fault Refusal) : s.withCommand f = f run := by
  unfold State.withCommand
  rw [h]

/-- A meaning answers a next state only where a command runs. -/
theorem withCommand_next {s t : State} {f : Running → Host.Outcome State Fault Refusal} (h : s.withCommand f = .next t) :
    ∃ run, s.engine = .busy run ∧ f run = .next t := by
  unfold State.withCommand at h
  split at h
  · cases h
  · exact ⟨_, ‹_›, h⟩

@[simp] theorem finish_ok (s : State) (w : Commit) : s.finish (.ok w) = .next (s.commit w) := rfl

@[simp] theorem finish_error (s : State) (e : CmdError) : s.finish (.error e) = .next (s.raise e none) := rfl

/-- A command that draws no nonce ends in exactly one of two ways (60_exceptions.md R116). -/
theorem finish_next {s t : State} {o : Except CmdError Commit} (h : s.finish o = .next t) :
    (∃ w, o = .ok w ∧ t = s.commit w) ∨ (∃ e, o = .error e ∧ t = s.raise e none) := by
  cases o with
  | ok w => cases h; exact Or.inl ⟨w, rfl, rfl⟩
  | error e => cases h; exact Or.inr ⟨e, rfl, rfl⟩

/-! ### Register writes -/

theorem writeScalars_of_not_mem (i : RegIdx) : ∀ (l : List (RegIdx × Nat)) (r : Vector Nat 16),
    (∀ w ∈ l, w.1 ≠ i) → (writeScalars r l)[i] = r[i] := by
  intro l
  induction l with
  | nil => intro r _; rfl
  | cons w rest ih =>
    intro r h
    have hne : w.1 ≠ i := h w (by simp)
    have hv : w.1.val ≠ i.val := fun hc => hne (Fin.ext hc)
    show (writeScalars (r.set w.1 w.2) rest)[i] = r[i]
    rw [ih _ fun w' hw' => h w' (by simp [hw'])]
    exact Vector.getElem_set_ne _ _ hv

theorem writeScalars_bound {b : Nat} : ∀ (l : List (RegIdx × Nat)) (r : Vector Nat 16),
    (∀ w ∈ l, w.2 < b) → (∀ i : RegIdx, r[i] < b) → ∀ i : RegIdx, (writeScalars r l)[i] < b := by
  intro l
  induction l with
  | nil => intro r _ h; exact h
  | cons w rest ih =>
    intro r hl hr
    refine ih _ (fun w' hw' => hl w' (by simp [hw'])) ?_
    intro i
    simp only [Fin.getElem_fin, Vector.getElem_set]
    split
    · exact hl w (by simp)
    · exact hr i

theorem writePoint_of_ne (i : RegIdx) (pt : Vector PointReg 16) (o : Option (RegIdx × Point))
    (h : ∀ w, o = some w → w.1 ≠ i) : (writePoint pt o)[i] = pt[i] := by
  cases o with
  | none => rfl
  | some w =>
    have hv : w.1.val ≠ i.val := fun hc => h w rfl (Fin.ext hc)
    exact Vector.getElem_set_ne w.1.isLt i.isLt hv

/-- Reading back a point a command wrote (10_state.md R21). -/
@[simp] theorem toPoint_ofPoint (P : Point) : (PointReg.ofPoint P).toPoint = P := by
  cases P <;> rfl

/-! ### Words of big registers (20_memory.md R47) -/

theorem wordSlice_toNat (v j : Nat) : (wordSlice v j).toNat = v / 2 ^ (32 * j) % 2 ^ 32 := by
  simp [wordSlice]

theorem setWordSlice_lt {v j w nw : Nat} (x : Word) (hw : w = 32 * nw) (hj : j < nw) (hv : v < 2 ^ w) :
    setWordSlice v j x < 2 ^ w := by
  subst hw
  unfold setWordSlice
  have hx : x.toNat < 2 ^ 32 := x.isLt
  have hsplit : (2 : Nat) ^ (32 * nw) = 2 ^ (32 * nw - (32 * j + 32)) * 2 ^ (32 * j + 32) := by
    rw [← Nat.pow_add]; congr 1; omega
  have hpow : (2 : Nat) ^ (32 * j + 32) = 2 ^ 32 * 2 ^ (32 * j) := by rw [Nat.pow_add, Nat.mul_comm]
  have hhi : v / 2 ^ (32 * j + 32) < 2 ^ (32 * nw - (32 * j + 32)) := by
    rw [Nat.div_lt_iff_lt_mul (by positivity), ← hsplit]; exact hv
  have hlo : v % 2 ^ (32 * j) < 2 ^ (32 * j) := Nat.mod_lt _ (by positivity)
  have h1 : x.toNat * 2 ^ (32 * j) + v % 2 ^ (32 * j) < 2 ^ (32 * j + 32) := by
    rw [hpow]
    calc x.toNat * 2 ^ (32 * j) + v % 2 ^ (32 * j) < x.toNat * 2 ^ (32 * j) + 2 ^ (32 * j) := by omega
      _ = (x.toNat + 1) * 2 ^ (32 * j) := by ring
      _ ≤ 2 ^ 32 * 2 ^ (32 * j) := Nat.mul_le_mul_right _ (by omega)
  rw [hsplit]
  calc v / 2 ^ (32 * j + 32) * 2 ^ (32 * j + 32) + x.toNat * 2 ^ (32 * j) + v % 2 ^ (32 * j)
      < v / 2 ^ (32 * j + 32) * 2 ^ (32 * j + 32) + 2 ^ (32 * j + 32) := by omega
    _ = (v / 2 ^ (32 * j + 32) + 1) * 2 ^ (32 * j + 32) := by ring
    _ ≤ _ := Nat.mul_le_mul_right _ (by omega)

theorem ofNat_idx (i : RegIdx) (k : Nat) (h : k = i.val) : (Fin.ofNat 16 k : RegIdx) = i := by
  subst h
  exact Fin.ext (Nat.mod_eq_of_lt i.isLt)

/-! ### The register map (20_memory.md R46), one lemma per part of the window -/

theorem targetOf_control {off : Nat} (h : off < 0x400) : targetOf off = controlTarget off := if_pos h

theorem targetOf_scalar (i : RegIdx) {o : Nat} (h : o < 0x80) : targetOf (0x400 + 0x80 * i.val + o) = .big (.scalar i) (o / 4) := by
  have := i.isLt
  simp only [targetOf, show ¬ 0x400 + 0x80 * i.val + o < 0x400 by omega, show 0x400 + 0x80 * i.val + o < 0xC00 by omega, if_true, if_false]
  rw [ofNat_idx i _ (by omega), show (0x400 + 0x80 * i.val + o) % 0x80 = o by omega]

theorem targetOf_config {slot o : Nat} (hs : slot < 8) (h : o < 0x80) :
    targetOf (0xC00 + 0x80 * slot + o) = configTarget slot (o / 4) := by
  simp only [targetOf, show ¬ 0xC00 + 0x80 * slot + o < 0x400 by omega, show ¬ 0xC00 + 0x80 * slot + o < 0xC00 by omega,
    show 0xC00 + 0x80 * slot + o < 0x1000 by omega, if_true, if_false]
  congr 1 <;> omega

theorem targetOf_point (i : RegIdx) {o : Nat} (h : o < 0x200) : targetOf (0x1000 + 0x200 * i.val + o) = pointTarget i o := by
  have := i.isLt
  simp only [targetOf, show ¬ 0x1000 + 0x200 * i.val + o < 0x1000 by omega, show 0x1000 + 0x200 * i.val + o < 0x3000 by omega,
    show ¬ 0x1000 + 0x200 * i.val + o < 0xC00 by omega, show ¬ 0x1000 + 0x200 * i.val + o < 0x400 by omega, if_true, if_false]
  rw [ofNat_idx i _ (by omega), show (0x1000 + 0x200 * i.val + o) % 0x200 = o by omega]

/-- Word j of a slot is where R46 puts it. -/
theorem targetOf_slot (b : BigReg) (j : Nat) (h : j < 32) : targetOf (b.slot + 4 * j) = .big b j := by
  have hj : 4 * j < 0x80 := by omega
  have hd : 4 * j / 4 = j := by omega
  have hc : ∀ slot, slot < 8 → targetOf (0xC00 + 0x80 * slot + 4 * j) = configTarget slot j := fun slot hs => by
    rw [targetOf_config hs hj, hd]
  cases b with
  | scalar i => rw [BigReg.slot, targetOf_scalar i hj, hd]
  | ptX i => rw [BigReg.slot, targetOf_point i (by omega), pointTarget, if_pos hj, hd]
  | ptY i =>
    rw [BigReg.slot, Nat.add_assoc, targetOf_point i (by omega), pointTarget, if_neg (by omega), if_pos (by omega),
      show (0x80 + 4 * j - 0x80) / 4 = j by omega]
  | pMod => exact hc 0 (by decide)
  | nOrd => exact hc 1 (by decide)
  | curveA => exact hc 2 (by decide)
  | curveB => exact hc 3 (by decide)
  | gx => exact hc 4 (by decide)
  | gy => exact hc 5 (by decide)
  | kIn => exact hc 6 (by decide)

/-- What a write to a big register leaves in every big register. -/
theorem readBig_writeBig (s : State) (b b' : BigReg) (v : Nat) :
    (s.writeBig b v).readBig b' = if b' = b then v else s.readBig b' := by
  have hset : ∀ (i k : RegIdx), i ≠ k → k.val ≠ i.val := fun i k h hc => h (Fin.ext hc.symm)
  cases b <;> cases b' <;> simp [State.writeBig, State.readBig, Vector.getElem_set] <;>
    (rename_i i k; by_cases h : k = i <;> [subst h; skip] <;> simp_all [Fin.ext_iff, eq_comm])

/-! ### CMD -/

/-- A CMD write is accepted or dropped (10_state.md R33). -/
theorem offerCommand_cases (s : State) (c : Word) :
    ((s.busy = true ∨ s.status.err = true) ∧ s.offerCommand c = s.dropWrite) ∨
    (s.busy = false ∧ s.status.err = false ∧ s.offerCommand c = s.accept c) := by
  unfold State.offerCommand
  cases hb : s.busy <;> cases he : s.status.err <;> simp

end Sys2Proof.Laws
end

