-- ==== Sys2Proof/Laws/Exec.lean ====
section
/-! SUPPORT. What the meaning of a command can do, said once: it commits its own destinations, raises an error,
or (KEYGEN and SIGN with the RNG) issues a request or waits; and it answers whenever a command runs. -/

namespace Sys2Proof.Laws

open Sys2Proof Sys2Proof.Machine

/-- A commit that writes only destinations of i (30_encoding.md R70). -/
structure CommitOf (i : Instr) (w : Commit) : Prop where
  scalars : ∀ x ∈ w.scalars, x.1 ∈ scalarDests i
  point : ∀ x, w.point = some x → x.1 ∈ pointDests i
  result : writesResult i = false → w.result = none
  attempts : isSign i = false → w.attempts = none

/-- The ways a command's meaning can answer. -/
inductive ExecWay (i : Instr) (s : State) (run : Running) : State → Prop where
  | commit (w : Commit) (h : CommitOf i w) : ExecWay i s run (s.commit w)
  | raise (e : CmdError) (n : Option Nat) (h : isSign i = false → n = none) : ExecWay i s run (s.raise e n)
  | request (n : Nat) (h : drawsNonce i = true) : ExecWay i s run (s.requestNonce run n)
  | wait (h : drawsNonce i = true) : ExecWay i s run s

/-- A meaning of the shape "run, then finish" commits what its body answers, or raises its error. -/
theorem finish_way {i : Instr} {s t : State} {run : Running} {o : Except CmdError Commit}
    (ho : ∀ w, o = .ok w → CommitOf i w) (h : s.finish o = .next t) : ExecWay i s run t := by
  rcases finish_next h with ⟨w, hw, rfl⟩ | ⟨e, _, rfl⟩
  · exact .commit w (ho w hw)
  · exact .raise e none fun _ => rfl

theorem commitOf_scalar {i : Instr} {rd : RegIdx} {v : Nat} (h : rd ∈ scalarDests i) : CommitOf i (Commit.scalar rd v) :=
  ⟨by simp [Commit.scalar, h], by simp [Commit.scalar], fun _ => rfl, fun _ => rfl⟩

theorem commitOf_toPoint {i : Instr} {rd : RegIdx} {P : Point} (h : rd ∈ pointDests i) : CommitOf i (Commit.toPoint rd P) :=
  ⟨by simp [Commit.toPoint], by simp [Commit.toPoint, h], fun _ => rfl, fun _ => rfl⟩

theorem commitOf_flag {i : Instr} {b : Bool} (h : writesResult i = true) : CommitOf i (Commit.flag b) :=
  ⟨by simp [Commit.flag], by simp [Commit.flag], by simp [h], fun _ => rfl⟩

theorem fieldCommand_way {i : Instr} {s t : State} {sel : ModSel} {rd : RegIdx} {value : Nat → Snapshot → Except CmdError Nat}
    (hd : rd ∈ scalarDests i) (h : fieldCommand sel rd value s = .next t) :
    ∃ run, s.engine = .busy run ∧ ExecWay i s run t := by
  obtain ⟨run, hr, h⟩ := withCommand_next h
  refine ⟨run, hr, finish_way (fun w hw => ?_) h⟩
  obtain ⟨m, _, hw⟩ := bind_ok hw
  obtain ⟨v, _, hw⟩ := bind_ok hw
  cases hw
  exact commitOf_scalar hd

theorem signSettle_way {rd ra rb rc : RegIdx} {s t : State} {run : Running} {o : Except CmdError (Option (Nat × Nat))}
    (h : signSettle rd rc s run o = .next t) : ExecWay (.sign rd ra rb rc) s run t := by
  rcases o with e | _ | ⟨r, v⟩
  · cases h; exact .raise _ _ (by simp [isSign])
  · simp only [signSettle] at h
    split at h
    · cases h; exact .request _ rfl
    · cases h; exact .raise _ _ (by simp [isSign])
  · cases h
    exact .commit _ ⟨by simp [scalarDests], by simp, fun _ => rfl, by simp [isSign]⟩

/-- Every way a command's meaning can answer a next state. -/
theorem exec_way {i : Instr} {s t : State} (h : exec i s = .next t) : ∃ run, s.engine = .busy run ∧ ExecWay i s run t := by
  cases i with
  | faddP rd ra rb => exact fieldCommand_way (by simp [scalarDests]) h
  | faddN rd ra rb => exact fieldCommand_way (by simp [scalarDests]) h
  | fsubP rd ra rb => exact fieldCommand_way (by simp [scalarDests]) h
  | fsubN rd ra rb => exact fieldCommand_way (by simp [scalarDests]) h
  | fmulP rd ra rb => exact fieldCommand_way (by simp [scalarDests]) h
  | fmulN rd ra rb => exact fieldCommand_way (by simp [scalarDests]) h
  | finvP rd ra => exact fieldCommand_way (by simp [scalarDests]) h
  | finvN rd ra => exact fieldCommand_way (by simp [scalarDests]) h
  | fdivP rd ra rb => exact fieldCommand_way (by simp [scalarDests]) h
  | fdivN rd ra rb => exact fieldCommand_way (by simp [scalarDests]) h
  | oncurve ra =>
    obtain ⟨run, hr, h⟩ := withCommand_next h
    refine ⟨run, hr, finish_way (fun w hw => ?_) h⟩
    obtain ⟨P, _, hw⟩ := bind_ok hw
    cases hw
    exact commitOf_flag rfl
  | padd rd ra rb =>
    obtain ⟨run, hr, h⟩ := withCommand_next h
    refine ⟨run, hr, finish_way (fun w hw => ?_) h⟩
    obtain ⟨P, _, hw⟩ := bind_ok hw
    obtain ⟨Q, _, hw⟩ := bind_ok hw
    obtain ⟨V, _, hw⟩ := bind_ok hw
    cases hw
    exact commitOf_toPoint (by simp [pointDests])
  | pdbl rd ra =>
    obtain ⟨run, hr, h⟩ := withCommand_next h
    refine ⟨run, hr, finish_way (fun w hw => ?_) h⟩
    obtain ⟨P, _, hw⟩ := bind_ok hw
    obtain ⟨V, _, hw⟩ := bind_ok hw
    cases hw
    exact commitOf_toPoint (by simp [pointDests])
  | pmul rd ra rb =>
    obtain ⟨run, hr, h⟩ := withCommand_next h
    refine ⟨run, hr, finish_way (fun w hw => ?_) h⟩
    obtain ⟨P, _, hw⟩ := bind_ok hw
    obtain ⟨V, _, hw⟩ := bind_ok hw
    cases hw
    exact commitOf_toPoint (by simp [pointDests])
  | pubkey rd ra =>
    obtain ⟨run, hr, h⟩ := withCommand_next h
    refine ⟨run, hr, finish_way (fun w hw => ?_) h⟩
    obtain ⟨G, _, hw⟩ := bind_ok hw
    obtain ⟨Q, _, hw⟩ := bind_ok hw
    cases hw
    exact commitOf_toPoint (by simp [pointDests])
  | keygen rd =>
    obtain ⟨run, hr, h⟩ := withCommand_next h
    refine ⟨run, hr, ?_⟩
    split at h
    · cases h; exact .raise _ _ fun _ => rfl
    · split at h
      · cases h; exact .request 0 rfl
      · cases h; exact .wait rfl
      · refine finish_way (fun w hw => ?_) h
        obtain ⟨Q, _, hw⟩ := bind_ok hw
        cases hw
        exact ⟨by simp [scalarDests], by simp [pointDests], fun _ => rfl, fun _ => rfl⟩
  | sign rd ra rb rc =>
    obtain ⟨run, hr, h⟩ := withCommand_next h
    refine ⟨run, hr, ?_⟩
    split at h
    · cases h; exact .raise _ _ (by simp [isSign])
    · split at h
      · cases h; exact .request _ rfl
      · cases h; exact .wait rfl
      · exact signSettle_way h
  | verify rd ra rb rc =>
    obtain ⟨run, hr, h⟩ := withCommand_next h
    refine ⟨run, hr, finish_way (fun w hw => ?_) h⟩
    obtain ⟨o, _, hw⟩ := bind_ok hw
    obtain ⟨v, _, hw⟩ := bind_ok hw
    cases hw
    exact commitOf_flag rfl

/-- "Every command ends in exactly one of two ways" (60_exceptions.md R116): `finish` always answers. -/
theorem finish_answers (s : State) (o : Except CmdError Commit) : ∃ t, s.finish o = .next t := by
  cases o with
  | ok w => exact ⟨_, rfl⟩
  | error e => exact ⟨_, rfl⟩

end Sys2Proof.Laws
end

