-- ==== Sys2Proof/Laws/Engine.lean ====
section
/-! SUPPORT. What each agent's event can do: the precondition checks, the engine's iteration and move, the RNG's answer, the bus and a step. -/

namespace Sys2Proof.Laws

open Sys2Proof Sys2Proof.Machine Sys2Proof.Config

/-! ### Precondition checks -/

theorem checkedPoint_ok {S : Snapshot} {ra : RegIdx} {P : Point} (h : S.checkedPoint ra = .ok P) :
    S.p ≠ 0 ∧ P = S.point ra ∧ P.inRange S.p = true := by
  unfold Snapshot.checkedPoint Snapshot.checkP Snapshot.rangeCheck at h
  obtain ⟨_, h1, h⟩ := bind_ok h
  obtain ⟨_, h2, h⟩ := bind_ok h
  split at h1 <;> cases h1
  split at h2 <;> cases h2
  cases h
  exact ⟨‹_›, rfl, ‹_›⟩

theorem pubkeyChecks_ok {S : Snapshot} {G : Point} (h : S.pubkeyChecks = .ok G) : S.p ≠ 0 ∧ G = S.gen ∧ G.inRange S.p = true := by
  unfold Snapshot.pubkeyChecks Snapshot.checkP Snapshot.checkedGen Snapshot.rangeCheck at h
  obtain ⟨_, h1, h⟩ := bind_ok h
  obtain ⟨_, h2, h⟩ := bind_ok h
  split at h1 <;> cases h1
  split at h2 <;> cases h2
  cases h
  exact ⟨‹_›, rfl, ‹_›⟩

theorem nonceCommandChecks_ok {S : Snapshot} {G : Point} (h : S.nonceCommandChecks = .ok G) :
    S.p ≠ 0 ∧ 2 ≤ S.n ∧ G = S.gen ∧ G.inRange S.p = true ∧ (S.nonceSrc = true → 1 ≤ S.kin ∧ S.kin ≤ S.n - 1) := by
  unfold Snapshot.nonceCommandChecks Snapshot.checkP Snapshot.checkN Snapshot.checkedGen Snapshot.rangeCheck Snapshot.nonceCheck at h
  obtain ⟨_, h1, h⟩ := bind_ok h
  obtain ⟨_, h2, h⟩ := bind_ok h
  obtain ⟨_, h3, h⟩ := bind_ok h
  obtain ⟨_, h4, h⟩ := bind_ok h
  obtain ⟨_, h5, h3⟩ := bind_ok h3
  split at h1 <;> cases h1
  split at h2 <;> cases h2
  split at h4 <;> cases h4
  split at h5 <;> cases h5
  cases h; cases h3
  exact ⟨‹_›, by omega, rfl, ‹_›, by tauto⟩

/-! ### The engine's internal iteration (10_state.md R36) -/

@[simp] theorem advance_word (run : Running) (i : Instr) : (run.advance i).word = run.word := by
  unfold Running.advance; split <;> rfl

@[simp] theorem advance_snap (run : Running) (i : Instr) : (run.advance i).snap = run.snap := by
  unfold Running.advance; split <;> rfl

@[simp] theorem advance_nonce (run : Running) (i : Instr) : (run.advance i).progress.nonce = run.progress.nonce := by
  unfold Running.advance; split <;> rfl

@[simp] theorem advance_rejected (run : Running) (i : Instr) : (run.advance i).progress.rejected = run.progress.rejected := by
  unfold Running.advance; split <;> rfl

/-- The multiplications of a command are fixed by its snapshot and its nonce. -/
@[simp] theorem mulOperands_advance (i : Instr) (run : Running) : mulOperands i (run.advance i) = mulOperands i run := by
  unfold Running.advance
  cases h : mulOperands i run with
  | none => simp [h]
  | some x =>
    obtain ⟨⟨P, k⟩, next⟩ := x
    simp only
    rw [← h]
    cases i <;> rfl

/-- A command whose multiplications are not begun is faithful. -/
theorem mulFaithful_notBegun (i : Instr) {run : Running} (h : run.progress.mul = .notBegun) : MulFaithful i run := by
  unfold MulFaithful
  split
  · exact h
  · rw [h]
    exact ⟨rfl, fun _ _ _ => rfl⟩

/-- An internal iteration keeps it so. -/
theorem mulFaithful_advance {i : Instr} {run : Running} (h : MulFaithful i run) : MulFaithful i (run.advance i) := by
  unfold MulFaithful at *
  rw [mulOperands_advance]
  cases hm : mulOperands i run with
  | none => simp only [hm] at h ⊢; simp [Running.advance, hm, h]
  | some x =>
    obtain ⟨⟨P, k⟩, next⟩ := x
    simp only [hm] at h
    simp only [Running.advance, hm]
    refine ⟨by rw [firstMul_mulAdvance]; exact h.1, ?_⟩
    intro Q j hn
    subst hn
    rw [secondMul_mulAdvance]
    exact h.2 Q j rfl

/-- An internal iteration changes the engine of a running, legal command and nothing else. -/
theorem engineWork_cases (s : State) :
    s.engineWork = s ∨ ∃ run i, s.engine = .busy run ∧ decode run.word = .ok i ∧
      s.engineWork = { s with engine := .busy (run.advance i) } := by
  unfold State.engineWork
  split
  · exact Or.inl rfl
  · split
    · exact Or.inl rfl
    · exact Or.inr ⟨_, _, ‹_›, ‹_›, rfl⟩

/-- The engine's move: nothing, ILLEGAL_CMD, or the command's meaning. -/
theorem engineRun_cases (s : State) :
    (s.engine = .idle ∧ s.engineRun = .next s) ∨
    (∃ run e, s.engine = .busy run ∧ decode run.word = .error e ∧ s.engineRun = .next (s.raise .illegalCmd none)) ∨
    (∃ run i, s.engine = .busy run ∧ decode run.word = .ok i ∧ s.engineRun = exec i s) := by
  unfold State.engineRun
  split
  · exact Or.inl ⟨‹_›, rfl⟩
  · split
    · exact Or.inr (Or.inl ⟨_, _, ‹_›, ‹_›, rfl⟩)
    · exact Or.inr (Or.inr ⟨_, _, ‹_›, ‹_›, rfl⟩)

/-- The RNG's answer: ignored unless it answers the request in flight, else taken where the contract allows it. -/
theorem rngAnswer_next {s t : State} {m k : Nat} (h : s.rngAnswer m k = .next t) :
    t = s ∨ ∃ run, s.engine = .busy run ∧ run.progress.nonce = .requested ∧ m = s.rngRequests ∧ 1 ≤ k ∧ k ≤ run.snap.n - 1 ∧
      t = s.withProgress run { run.progress with nonce := .answered k } := by
  unfold State.rngAnswer at h
  split at h
  · cases h; exact Or.inl rfl
  · split at h
    · rename_i hq
      split at h
      · cases h
        rename_i hk
        exact Or.inr ⟨_, ‹_›, hq.1, hq.2, hk.1, hk.2, rfl⟩
      · cases h
    · cases h; exact Or.inl rfl

/-- An answer to another request than the last one issued is ignored (70_reset_and_hazards.md R138). -/
theorem rngAnswer_stale {s : State} {m : Nat} (h : m ≠ s.rngRequests) (k : Nat) : s.rngAnswer m k = .next s := by
  unfold State.rngAnswer
  split
  · rfl
  · rw [if_neg fun hq => h hq.2]

/-- With no request in flight every answer is ignored. -/
theorem rngAnswer_none {s : State} (h : s.rngRequest = none) (m k : Nat) : s.rngAnswer m k = .next s := by
  unfold State.rngAnswer
  cases he : s.engine with
  | idle => rfl
  | busy run =>
    have hn : run.progress.nonce ≠ .requested := fun hc => by simp [State.rngRequest, he, hc] at h
    simp [hn]

/-! ### Acceptance -/

/-- What acceptance sets up is in order (10_state.md R33). -/
theorem runningOk_accept {s : State} (c : Word) (hp : s.params.wf = true) (he : s.status.err = false) :
    RunningOk (s.accept c) ⟨c, s.snapshot, .start⟩ where
  lastcmd := rfl
  snapshot := rfl
  quiet := ⟨rfl, he, rfl, rfl⟩
  illegal := fun _ _ => rfl
  nonce := fun _ _ h => absurd rfl h
  answer := fun _ h => by cases h
  rejected := by
    simp only [Params.wf, Bool.and_eq_true, decide_eq_true_eq] at hp
    exact hp.1.1.2
  mul := fun i _ => mulFaithful_notBegun i rfl

/-- An accepted command leaves the invariant. -/
theorem inv_accept {s : State} (c : Word) (h : s.Inv) (he : s.status.err = false) : (s.accept c).Inv where
  params := h.params
  fits := h.fits
  errcode := h.errcode
  running := fun run hr => by cases hr; exact runningOk_accept c h.params he

/-! ### The bus -/

theorem windowOffset_base (p : Params) {off : Nat} (h : off < windowSize) : windowOffset p (p.base + off) = some off := by
  simp [windowOffset, h]

/-- An accepted write. -/
theorem busTxn_write (s : State) {off : Nat} (v : Word) (h : off < windowSize) (h4 : off % 4 = 0) :
    s.busTxn (.write (s.params.base + off) 0xF v) = .next { s.writeTarget (targetOf off) v with response := some .okayWrite } := by
  simp [State.busTxn, BusTxn.addr, windowOffset_base _ h, State.busAt, h4]

/-- An accepted read. -/
theorem busTxn_read (s : State) {off : Nat} (h : off < windowSize) (h4 : off % 4 = 0) :
    s.busTxn (.read (s.params.base + off) .word) = .next { s with response := some (.okayRead (s.readWord off)) } := by
  simp [State.busTxn, BusTxn.addr, windowOffset_base _ h, State.busAt, h4]

/-- An accepted write to word j of a big register's slot. -/
theorem busTxn_write_slot (s : State) (b : BigReg) {j : Nat} (v : Word) (h : j < 32) :
    s.busTxn (.write (s.params.base + (b.slot + 4 * j)) 0xF v) = .next { s.writeTarget (.big b j) v with response := some .okayWrite } := by
  rw [busTxn_write, targetOf_slot b j h]
  · cases b <;> simp [BigReg.slot, windowSize] <;> omega
  · cases b <;> simp [BigReg.slot] <;> omega

/-- What an accepted write can change: the configuration and the operand registers of an IDLE engine, CTRL, STATUS, or a command's acceptance.
The instance, the schedule and the last answer it never does. -/
theorem writeTarget_keeps (s : State) (t : Target) (v : Word) :
    (s.writeTarget t v).params = s.params ∧ (s.writeTarget t v).schedule = s.schedule ∧ (s.writeTarget t v).freeCount = s.freeCount ∧
    (t ≠ .cmd → (s.writeTarget t v).engine = s.engine ∧ (s.writeTarget t v).lastcmd = s.lastcmd) ∧
    (t ≠ .ctrl → (s.writeTarget t v).ctrl = s.ctrl) ∧
    (s.busy = true → (s.writeTarget t v).r = s.r ∧ (s.writeTarget t v).pt = s.pt ∧ (s.writeTarget t v).cfg = s.cfg ∧
      (s.writeTarget t v).engine = s.engine) := by
  have hu : ∀ u : State, s.unlessBusy u = (if s.busy = true then s.dropWrite else u) := fun u => by
    unfold State.unlessBusy; cases s.busy <;> rfl
  cases t with
  | big b j =>
    simp only [State.writeTarget]
    split
    · rw [hu]
      split
      · simp
      · cases b <;> simp_all [State.writeBig]
    · simp
  | cmd =>
    rcases offerCommand_cases s v with ⟨_, h⟩ | ⟨hb, _, h⟩
    · simp [State.writeTarget, h]
    · simp [State.writeTarget, h, hb]
  | genInf => simp only [State.writeTarget, hu]; split <;> simp_all
  | ptInf i => simp only [State.writeTarget, hu]; split <;> simp_all
  | _ => simp [State.writeTarget]

/-! ### A step -/

/-- A step is the engine's move, or one event with the rest of the schedule left. -/
theorem step_cases (s : State) :
    (s.schedule = [] ∧ step s = s.engineRun) ∨
    (∃ e rest, s.schedule = e :: rest ∧ step s = { s with schedule := rest }.perform e) := by
  unfold step
  split
  · exact Or.inl ⟨‹_›, rfl⟩
  · exact Or.inr ⟨_, _, ‹_›, rfl⟩

end Sys2Proof.Laws
end

