-- ==== Sys2Proof/Laws/PerInstr.lean ====
section
/-! SUPPORT. Statements made per instruction. -/

namespace Sys2Proof.Laws

/-- The reserved bits of an instruction's command word are 0 (30_encoding.md R69). -/
def ReservedZero.Statement (i : Instr) : Prop := bitsOf (encode i) 7 1 = 0 ∧ bitsOf (encode i) 24 8 = 0

theorem packC_reservedZero (op m : Nat) (rd ra rb rc : RegIdx) (hop : op < 64) (hm : m < 2) :
    bitsOf (packC op m rd ra rb rc) 7 1 = 0 ∧ bitsOf (packC op m rd ra rb rc) 24 8 = 0 :=
  ⟨(bitsOf_packC op m rd ra rb rc hop hm).2.2.1, (bitsOf_packC op m rd ra rb rc hop hm).2.2.2.2.2.2.2⟩

theorem ReservedZero.faddP (rd ra rb : RegIdx) : ReservedZero.Statement (.faddP rd ra rb) :=
  packC_reservedZero _ _ _ _ _ _ (by decide) (by decide)

theorem ReservedZero.faddN (rd ra rb : RegIdx) : ReservedZero.Statement (.faddN rd ra rb) :=
  packC_reservedZero _ _ _ _ _ _ (by decide) (by decide)

theorem ReservedZero.fsubP (rd ra rb : RegIdx) : ReservedZero.Statement (.fsubP rd ra rb) :=
  packC_reservedZero _ _ _ _ _ _ (by decide) (by decide)

theorem ReservedZero.fsubN (rd ra rb : RegIdx) : ReservedZero.Statement (.fsubN rd ra rb) :=
  packC_reservedZero _ _ _ _ _ _ (by decide) (by decide)

theorem ReservedZero.fmulP (rd ra rb : RegIdx) : ReservedZero.Statement (.fmulP rd ra rb) :=
  packC_reservedZero _ _ _ _ _ _ (by decide) (by decide)

theorem ReservedZero.fmulN (rd ra rb : RegIdx) : ReservedZero.Statement (.fmulN rd ra rb) :=
  packC_reservedZero _ _ _ _ _ _ (by decide) (by decide)

theorem ReservedZero.finvP (rd ra : RegIdx) : ReservedZero.Statement (.finvP rd ra) :=
  packC_reservedZero _ _ _ _ _ _ (by decide) (by decide)

theorem ReservedZero.finvN (rd ra : RegIdx) : ReservedZero.Statement (.finvN rd ra) :=
  packC_reservedZero _ _ _ _ _ _ (by decide) (by decide)

theorem ReservedZero.fdivP (rd ra rb : RegIdx) : ReservedZero.Statement (.fdivP rd ra rb) :=
  packC_reservedZero _ _ _ _ _ _ (by decide) (by decide)

theorem ReservedZero.fdivN (rd ra rb : RegIdx) : ReservedZero.Statement (.fdivN rd ra rb) :=
  packC_reservedZero _ _ _ _ _ _ (by decide) (by decide)

theorem ReservedZero.oncurve (ra : RegIdx) : ReservedZero.Statement (.oncurve ra) :=
  packC_reservedZero _ _ _ _ _ _ (by decide) (by decide)

theorem ReservedZero.padd (rd ra rb : RegIdx) : ReservedZero.Statement (.padd rd ra rb) :=
  packC_reservedZero _ _ _ _ _ _ (by decide) (by decide)

theorem ReservedZero.pdbl (rd ra : RegIdx) : ReservedZero.Statement (.pdbl rd ra) :=
  packC_reservedZero _ _ _ _ _ _ (by decide) (by decide)

theorem ReservedZero.pmul (rd ra rb : RegIdx) : ReservedZero.Statement (.pmul rd ra rb) :=
  packC_reservedZero _ _ _ _ _ _ (by decide) (by decide)

theorem ReservedZero.pubkey (rd ra : RegIdx) : ReservedZero.Statement (.pubkey rd ra) :=
  packC_reservedZero _ _ _ _ _ _ (by decide) (by decide)

theorem ReservedZero.keygen (rd : RegIdx) : ReservedZero.Statement (.keygen rd) :=
  packC_reservedZero _ _ _ _ _ _ (by decide) (by decide)

theorem ReservedZero.sign (rd ra rb rc : RegIdx) : ReservedZero.Statement (.sign rd ra rb rc) :=
  packC_reservedZero _ _ _ _ _ _ (by decide) (by decide)

theorem ReservedZero.verify (rd ra rb rc : RegIdx) : ReservedZero.Statement (.verify rd ra rb rc) :=
  packC_reservedZero _ _ _ _ _ _ (by decide) (by decide)

end Sys2Proof.Laws
end

