-- ==== Sys2Proof/Tests/Slice0.lean ====
section
/-! SUPPORT. The model's own tests. Expected results are those of spec/95_test_vectors.md and of the rules' examples (or by hand from the rules,
where the comment says so). The second part shows, for every obligation with hypotheses, a state and operands that meet them. -/

namespace Sys2Proof.Tests

open Sys2Proof Sys2Proof.Machine Sys2Proof.Config Sys2Proof.Laws

/-! ## Well-formedness -/

theorem test_sign_same_register_is_ill_formed : (Instr.sign 5 0 1 5).wellFormed = false := by decide
theorem test_sign_two_registers_is_well_formed : (Instr.sign 4 0 1 5).wellFormed = true := by decide
/-- The assembler refuses the ill-formed term, and `keygen r3, pt4` (30_encoding.md R72, R76). -/
theorem test_assembler_refuses : assemble (.sign 5 0 1 5) = none ∧ assembleKeygen 3 4 = none ∧ assembleKeygen 3 3 = some 0x00000321 := by decide
theorem test_asm_text : asmText (.sign 4 0 1 5) = "sign r4, r5, r0, r1" ∧ asmText (.verify 1 0 4 5) = "verify r0, r4, r5, pt1" := by decide

/-! ## Decoding: every constructor by a word written out from 30_encoding.md R65, R71 and R78 -/

theorem test_decode_field :
    decode 0b0000_0000_0000_0010_0001_0011_00_000001 = .ok (.faddP 3 1 2) ∧ decode 0b0000_0000_0000_0010_0001_0011_01_000001 = .ok (.faddN 3 1 2) ∧
    decode 0b0000_0000_0000_0010_0001_0011_00_000010 = .ok (.fsubP 3 1 2) ∧ decode 0x00065442 = .ok (.fsubN 4 5 6) ∧
    decode 0x00000003 = .ok (.fmulP 0 0 0) ∧ decode 0b0000_0000_0000_0010_0001_0011_01_000011 = .ok (.fmulN 3 1 2) ∧
    decode 0x00002704 = .ok (.finvP 7 2) ∧ decode 0x00002744 = .ok (.finvN 7 2) ∧
    decode 0x00001905 = .ok (.fdivP 9 1 0) ∧ decode 0x000DEF45 = .ok (.fdivN 15 14 13) := by decide

theorem test_decode_curve :
    decode 0b0000_0000_0000_0000_0010_0000_00_010000 = .ok (.oncurve 2) ∧ decode 0x00010211 = .ok (.padd 2 0 1) ∧
    decode 0x00f10211 = .ok (.padd 2 0 1) ∧ decode 0x00003312 = .ok (.pdbl 3 3) ∧ decode 0x00040113 = .ok (.pmul 1 0 4) := by decide

theorem test_decode_ecdsa :
    decode 0b0000_0000_0000_0000_0000_0001_00_100000 = .ok (.pubkey 1 0) ∧ decode 0x00000321 = .ok (.keygen 3) ∧
    decode 0x00510422 = .ok (.sign 4 0 1 5) ∧ decode 0x00540123 = .ok (.verify 1 0 4 5) := by decide

/-- The illegal words of 95_test_vectors.md 2.4. -/
theorem test_decode_illegal :
    decode 0x00000000 = .error .unknownOp ∧ decode 0x00000006 = .error .unknownOp ∧ decode 0x00000081 = .error .reservedBit ∧
    decode 0x01021341 = .error .reservedBit ∧ decode 0x00001050 = .error .modulusSelect ∧ decode 0x00510522 = .error .signSameDest := by decide

theorem test_table_word : decodeTableWord 32 0x00510422 = some (.sign 4 0 1 5) ∧ decodeTableWord 32 0x00510522 = none := by decide

/-! ## The toy configuration (95_test_vectors.md 1.3): p = 17, n = 19, a = b = 2, G = (5, 1) -/

/-- Point registers given values, as a command or the host's three fields would leave them. -/
def putPoints (pt : Vector PointReg 16) : List (RegIdx × Point) → Vector PointReg 16
  | [] => pt
  | w :: rest => putPoints (writePoint pt (some w)) rest

/-- The toy configuration on the default instance with some registers set. -/
def toy (r : List (RegIdx × Nat)) (pt : List (RegIdx × Point)) : State :=
  { State.reset with
    r := writeScalars State.reset.r r
    pt := putPoints State.reset.pt pt
    cfg := ⟨17, 19, 2, 2, 5, 1, false, 0⟩ }

/-- The same with the host nonce k (CTRL.NONCE_SRC = 1). -/
def toyNonce (k : Nat) (r : List (RegIdx × Nat)) : State :=
  { toy r [] with cfg := ⟨17, 19, 2, 2, 5, 1, false, k⟩, ctrl := ⟨true, false, false⟩ }

/-- One step on a word placed as the next command, seen through f. -/
def after {α : Type} (s : State) (w : Nat) (f : State → α) : Option α :=
  match step (s.withFetchWord 32 w) with
  | .next t => some (f t)
  | .fault _ => none
  | .refused _ => none

/-- One more step, seen through f. -/
def stepTo {α : Type} (s : State) (f : State → α) : Option α :=
  match step s with
  | .next t => some (f t)
  | .fault _ => none
  | .refused _ => none

/-! ### Field commands -/

theorem test_faddP : after (toy [(1, 15), (2, 5)] []) 0x00021301 (fun t => (t.r[3], t.statusWord)) = some (3, 0x00000002) := by decide
theorem test_faddP_unreduced : after (toy [(1, 2 ^ 256 - 1), (2, 2 ^ 256 - 1)] []) 0x00021301 (fun t => t.r[3]) = some 0 := by decide
/-- By hand: 15 + 5 = 20 = 1 mod 19. -/
theorem test_faddN : after (toy [(1, 15), (2, 5)] []) 0x00021341 (fun t => t.r[3]) = some 1 := by decide
theorem test_faddN_bad_modulus :
    after { State.reset with cfg := ⟨17, 0, 2, 2, 5, 1, false, 0⟩ } 0x00021341 (fun t => (t.r[3], t.statusWord)) = some (0, 0x00000206) := by decide
theorem test_fsubP : after (toy [(1, 3), (2, 5)] []) 0x00021302 (fun t => t.r[3]) = some 15 := by decide
theorem test_fsubN : after (toy [(1, 15), (2, 5)] []) 0x00012842 (fun t => t.r[8]) = some 9 := by decide
theorem test_fmulP : after (toy [(1, 5), (2, 7)] []) 0x00021303 (fun t => t.r[3]) = some 1 := by decide
/-- By hand: 15 · 5 = 75 = 18 mod 19. -/
theorem test_fmulN : after (toy [(1, 15), (2, 5)] []) 0x00021343 (fun t => t.r[3]) = some 18 := by decide
theorem test_finvP : after (toy [(2, 5)] []) 0x00002704 (fun t => t.r[7]) = some 7 := by decide
theorem test_finvN : after (toy [(2, 10)] []) 0x00002744 (fun t => t.r[7]) = some 2 := by decide
/-- 40_field.md R91: m = 15, y = 2 gives 2. -/
theorem test_finvP_composite : after { toy [(2, 2)] [] with cfg := ⟨15, 19, 2, 2, 5, 1, false, 0⟩ } 0x00002704 (fun t => t.r[7]) = some 2 := by decide
theorem test_fdivP : after (toy [(1, 3), (2, 5)] []) 0x00021305 (fun t => t.r[3]) = some 4 := by decide
theorem test_fdivP_by_zero : after (toy [(1, 15), (9, 77)] []) 0x00001905 (fun t => (t.r[9], t.statusWord)) = some (77, 0x00000606) := by decide
/-- By hand: 1 / 10 = 2 mod 19 (the inverse of 40_field.md R88). -/
theorem test_fdivN : after (toy [(14, 1), (13, 10)] []) 0x000DEF45 (fun t => t.r[15]) = some 2 := by decide

/-! ### Curve commands -/

theorem test_oncurve : after (toy [] [(2, .coord 5 1)]) 0x00002010 (fun t => t.statusWord) = some 0x0000000A := by decide
theorem test_oncurve_range : after (toy [] [(6, .coord 17 0)]) 0x00006010 (fun t => t.statusWord) = some 0x00000406 := by decide
theorem test_padd : after (toy [] [(0, .coord 5 1), (1, .coord 6 3)]) 0x00010211 (fun t => t.pt[2]) = some ⟨false, 10, 6⟩ := by decide
/-- 41_curve.md R103: with p = 15, a = 1 the argument order matters. -/
theorem test_padd_order : after { toy [] [(0, .coord 3 2), (1, .coord 1 1)] with cfg := ⟨15, 19, 1, 2, 5, 1, false, 0⟩ } 0x00010211
    (fun t => t.pt[2]) = some ⟨false, 0, 4⟩ := by decide
theorem test_pdbl_in_place : after (toy [] [(3, .coord 5 1)]) 0x00003312 (fun t => t.pt[3]) = some ⟨false, 6, 3⟩ := by decide
theorem test_pdbl_even : after { toy [] [(3, .coord 0 1)] with cfg := ⟨2, 19, 0, 1, 5, 1, false, 0⟩ } 0x00003312
    (fun t => (t.pt[3], t.statusWord)) = some (⟨false, 0, 1⟩, 0x00000606) := by decide
theorem test_pmul_order : after (toy [(4, 19)] [(0, .coord 5 1)]) 0x00040113 (fun t => t.pt[1]) = some ⟨true, 0, 0⟩ := by decide
theorem test_pmul : after (toy [(4, 255)] [(0, .coord 5 1)]) 0x00040113 (fun t => t.pt[1]) = some ⟨false, 13, 7⟩ := by decide

/-! ### ECDSA commands -/

theorem test_pubkey : after (toy [(0, 22)] []) 0x00000120 (fun t => t.pt[1]) = some ⟨false, 10, 6⟩ := by decide
theorem test_pubkey_ignores_n : after { toy [(0, 3)] [] with cfg := ⟨17, 0, 2, 2, 5, 1, false, 0⟩ } 0x00000120
    (fun t => t.pt[1]) = some ⟨false, 10, 6⟩ := by decide
theorem test_keygen_host_nonce : after (toyNonce 3 []) 0x00000321 (fun t => (t.r[3], t.pt[3])) = some (3, ⟨false, 10, 6⟩) := by decide
/-- The RNG answered 12: one draw, no rejection. -/
theorem test_keygen_rng : stepTo { (toy [] []).accept 0x00000321 with engine := .busy ⟨0x00000321, (toy [] []).snapshot, ⟨0, .answered 12, .notBegun⟩⟩ }
    (fun t => (t.r[3], t.pt[3])) = some (12, ⟨false, 0, 11⟩) := by decide
theorem test_sign_host_nonce : after (toyNonce 10 [(0, 14), (1, 3)]) 0x00510422 (fun t => (t.r[4], t.r[5], t.statusWord)) =
    some (7, 13, 0x00010002) := by decide
/-- 95_test_vectors.md 2.3: with d = 1 the RNG's first answer 1 was rejected; its second answer 2 gives (6, 10) and ATTEMPTS = 2. -/
theorem test_sign_second_attempt :
    stepTo { (toy [(0, 14), (1, 1)] []).accept 0x00510422 with
      engine := .busy ⟨0x00510422, (toy [(0, 14), (1, 1)] []).snapshot, ⟨1, .answered 2, .notBegun⟩⟩ }
      (fun t => (t.r[4], t.r[5], t.statusWord)) = some (6, 10, 0x00020002) := by decide
theorem test_verify : after (toy [(0, 14), (4, 7), (5, 13)] [(1, .coord 10 6)]) 0x00540123 (fun t => t.statusWord) = some 0x0000000A := by decide
/-- The range test hides POINT_RANGE (42_ecdsa.md R113). -/
theorem test_verify_range_first : after (toy [(0, 14), (4, 0), (5, 1)] [(1, .coord 17 3)]) 0x00540123 (fun t => t.statusWord) =
    some 0x00000002 := by decide

/-! ### Errors, STATUS, irq and the bus (95_test_vectors.md 2.4) -/

theorem test_illegal_word : after (toy [] []) 0x00001050 (fun t => (t.statusWord, t.lastcmd)) = some (0x00000106, 0x00001050) := by decide

/-- A state after an error: STATUS 0x00000606. -/
def inError : State := { toy [] [] with status := ⟨true, true, false, false, some .divByZero, 0⟩, lastcmd := 0x00001905 }

/-- One host write of v at an offset of the default instance, seen through f. -/
def write {α : Type} (s : State) (off : Nat) (v : Word) (f : State → α) : Option α := stepTo { s with schedule := [hostWrite s.params off v] } f

/-- One host read, seen through the answer. -/
def read (s : State) (off : Nat) : Option (Option Response) := stepTo { s with schedule := [hostRead s.params off] } (fun t => t.response)

/-- Rows S1, S2, S4 and S5. -/
theorem test_status_writes :
    write inError 0x010 0x00021901 (fun t => (t.statusWord, t.lastcmd)) = some (0x00000616, 0x00001905) ∧
    write { inError with status := { inError.status with wdrop := true } } 0x00C 0x00000016 State.statusWord = some 0x00000000 ∧
    write inError 0x00C 0x00000002 State.statusWord = some 0x00000604 ∧ write inError 0x00C 0xFFFFFFE9 State.statusWord = some 0x00000606 := by decide

/-- Rows S7 and S8. -/
theorem test_busy_writes :
    write ((toy [(1, 3)] []).accept 0x00021301) 0x480 9 (fun t => (t.statusWord, t.r[1])) = some (0x00000011, 3) ∧
    write ((toy [] []).accept 0x00021301) 0x008 2 (fun t => (t.statusWord, t.ctrl.doneIe)) = some (0x00000001, true) := by decide

theorem test_irq : (let s := { inError with ctrl := ⟨false, true, false⟩ }; s.irq) = true ∧
    (let s := { inError with ctrl := ⟨false, false, true⟩ }; s.irq) = true ∧ inError.irq = false := by decide

theorem test_bus_reads :
    read State.reset 0x000 = some (some (.okayRead 0x45434331)) ∧ read State.reset 0x004 = some (some (.okayRead 0x01000100)) ∧
    read State.reset 0x010 = some (some (.okayRead 0)) ∧ read (toy [(1, 2 ^ 32 + 5)] []) 0x484 = some (some (.okayRead 1)) ∧
    read (toy [(1, 2 ^ 32 + 5)] []) 0x4A0 = some (some (.okayRead 0)) ∧ read State.reset 0x3000 = some (some (.okayRead 0)) := by decide

theorem test_bus_writes :
    write (toy [(1, 5)] []) 0x484 1 (fun t => t.r[1]) = some (2 ^ 32 + 5) ∧
    write (toy [(1, 5)] []) 0x4A0 0xFFFFFFFF (fun t => (t.r[1], t.statusWord)) = some (5, 0) ∧
    write State.reset 0x1100 0xFFFFFFFF (fun t => t.readWord 0x1100) = some 1 := by decide

theorem test_bus_errors :
    write (toy [(1, 5)] []) 0x482 1 (fun t => (t.r[1], t.response)) = some (5, some .error) ∧
    stepTo { toy [(1, 5)] [] with schedule := [.host (.write 0x480 0b0011 1)] } (fun t => (t.r[1], t.response)) = some (5, some .error) := by decide

theorem test_reset_while_busy :
    stepTo { (toy [(1, 5)] []).accept 0x00021301 with schedule := [.reset] } (fun t => (t.r[1], t.statusWord, t.cfg.p, t.busy)) =
      some (0, 0, 0, false) := by decide

/-- 42_ecdsa.md R105: h_0 is the most significant byte. -/
theorem test_digest_integer : digestInteger [0x01, 0x02] = 0x0102 := by decide

/-! ## Witnesses: states and operands that meet the hypotheses of the obligations, one per clause where clauses differ -/

/-- The state a meaning answers; the argument itself where it answers none. -/
def nextOr (s : State) : Host.Outcome State Fault Refusal → State
  | .next t => t
  | .fault _ => s
  | .refused _ => s

def answersNext : Host.Outcome State Fault Refusal → Bool
  | .next _ => true
  | .fault _ => false
  | .refused _ => false

theorem eq_nextOr (s : State) {o : Host.Outcome State Fault Refusal} (h : answersNext o = true) : o = .next (nextOr s o) := by
  cases o with
  | next t => rfl
  | fault r => cases h
  | refused r => cases h

/-- The command running after the word w is accepted. -/
def running (s : State) (w : Word) : Running := ⟨w, s.snapshot, .start⟩

/-- The toy configuration with p, n and the generator chosen. -/
def toyCfg (p n : Nat) (gx gy : Nat) (r : List (RegIdx × Nat)) (pt : List (RegIdx × Point)) : State :=
  { toy r pt with cfg := ⟨p, n, 2, 2, gx, gy, false, 0⟩ }

theorem witness_busy (s : State) (w : Word) : (s.accept w).engine = .busy (running s w) := rfl

theorem witness_faithful (s : State) (w : Word) (i : Instr) : MulFaithful i (running s w) := mulFaithful_notBegun i rfl

/-! ### Encoding -/

theorem witness_DecodeAfterEncode : (Instr.sign 4 0 1 5).wellFormed = true ∧ (Instr.verify 15 15 15 15).wellFormed = true := by decide

theorem witness_DecodeReadsExactlyTheUsedBits :
    decode 0x00f10211 = .ok (.padd 2 0 1) ∧ (0x00010211 : Word) &&& usedMask (.padd 2 0 1) = 0x00f10211 &&& usedMask (.padd 2 0 1) := by decide

theorem witness_IllegalWordsEndWithIllegalCmd :
    decode 0x3F = .error .unknownOp ∧ decode 0x80 = .error .reservedBit ∧ decode 0x00000450 = .error .modulusSelect ∧
    decode 0x00F00F22 = .error .signSameDest ∧ (toy [] []).busy = false ∧ (toy [] []).status.err = false := by decide

theorem witness_fieldEncoded : HasOp 0x00F21301 0x01 ∧ bitsOf 0x00F21301 6 1 = 0 ∧ HasOp 0x00021341 0x01 ∧ bitsOf 0x00021341 6 1 = 1 ∧
    HasOp 0x02 0x02 ∧ HasOp 0x43 0x03 ∧ HasOp 0x04 0x04 ∧ HasOp 0x45 0x05 := by unfold HasOp; decide

theorem witness_plainEncoded : HasOp 0x00FFFF10 0x10 ∧ bitsOf 0x00FFFF10 6 1 = 0 ∧ HasOp 0x50 0x10 ∧ bitsOf 0x50 6 1 = 1 ∧
    HasOp 0x11 0x11 ∧ HasOp 0x12 0x12 ∧ HasOp 0x13 0x13 ∧ HasOp 0x20 0x20 ∧ HasOp 0x21 0x21 ∧ HasOp 0x23 0x23 ∧
    HasOp 0x00510422 0x22 ∧ (Instr.sign (idxAt 0x00510422 8) (idxAt 0x00510422 12) (idxAt 0x00510422 16) (idxAt 0x00510422 20)).wellFormed = true := by
  unfold HasOp; decide

/-! ### Field -/

theorem witness_FieldSubIsTheDifference : 1 ≤ 17 ∧ 34 % 17 = 0 := by decide
theorem witness_FieldInvIsTheFermatPower : 1 ≤ 17 ∧ Nat.Prime 17 ∧ 34 % 17 = 0 ∧ 5 % 17 ≠ 0 ∧ 1 ≤ 2 ∧ 3 % 2 = 1 := by norm_num
theorem witness_FieldDivFailsExactlyOnZero : 1 ≤ 17 ∧ 17 % 17 = 0 ∧ 16 % 17 ≠ 0 := by decide
theorem witness_FieldLaws : 1 ≤ 2 ∧ Nat.Prime 2 ∧ 3 % 2 ≠ 0 := by norm_num

/-- The field commands: a command runs with the modulus 0, and with one that is not; FINV's and FDIV's argument is 0 and is not. -/
theorem witness_fieldCommands :
    (running (toyCfg 0 0 5 1 [] []) 0x00021301).snap.p = 0 ∧ (running (toyCfg 0 0 5 1 [] []) 0x00021301).snap.n = 0 ∧
    (running (toy [(1, 5)] []) 0x00021301).snap.p ≠ 0 ∧ (running (toy [(1, 5)] []) 0x00021301).snap.n ≠ 0 ∧
    (running (toy [(1, 34), (2, 38)] []) 0x00001704).snap.r[1] % 17 = 0 ∧ (running (toy [(1, 34), (2, 38)] []) 0x00001704).snap.r[2] % 19 = 0 ∧
    (running (toy [(1, 5)] []) 0x00001704).snap.r[1] % 17 ≠ 0 ∧ (running (toy [(1, 5)] []) 0x00001704).snap.r[1] % 19 ≠ 0 := by decide

/-! ### Curve -/

theorem witness_CurveDivisionFailures : 1 < 2 ∧ 1 ≠ 0 ∧ 2 * 1 = 2 ∧ (Point.coord 0 1).inRange 2 = true ∧
    ecAdd ⟨2, 0, 1⟩ (.coord 0 1) (.coord 0 1) = .error .divByZero := by decide

theorem witness_ScalarMultNeedsAtMostWidthIterations : 2 ≤ 3 ∧ 3 < 2 ^ 2 ∧ 0 < 1 ∧ 1 % 2 = 1 ∧ 0 < 2 ∧ 2 % 2 ≠ 1 := by decide

theorem toy_good : Curve.Good ⟨17, 2, 2⟩ := ⟨by norm_num, by decide, by decide⟩

theorem toy_on (P : Point) (h : P.inRange 17 = true) (h' : ecOnCurve ⟨17, 2, 2⟩ P = true) : Curve.On ⟨17, 2, 2⟩ P := ⟨h, h'⟩

/-- GoodCurveIsClosed, GroupLaws, GoodCurveScalarMultIsRepeatedAddition. -/
theorem witness_goodCurve : Curve.Good ⟨17, 2, 2⟩ ∧ Curve.On ⟨17, 2, 2⟩ (.coord 5 1) ∧ Curve.On ⟨17, 2, 2⟩ (.coord 6 3) ∧
    Curve.On ⟨17, 2, 2⟩ .identity :=
  ⟨toy_good, toy_on _ (by decide) (by decide), toy_on _ (by decide) (by decide), toy_on _ (by decide) (by decide)⟩

/-- ONCURVE, PADD, PDBL, PMUL: p = 0; a point out of range at x = p and at y = p; in range; a value and a DivisionByZero. -/
theorem witness_curveCommands :
    (running (toyCfg 0 19 5 1 [] []) 0x00002010).snap.p = 0 ∧
    ((running (toy [] [(0, .coord 17 0), (1, .coord 0 17)]) 0x00010211).snap.point 0).inRange 17 = false ∧
    ((running (toy [] [(0, .coord 17 0), (1, .coord 0 17)]) 0x00010211).snap.point 1).inRange 17 = false ∧
    ((running (toy [] [(0, .coord 16 16), (1, .identity)]) 0x00010211).snap.point 0).inRange 17 = true ∧
    ((running (toy [] [(0, .coord 16 16), (1, .identity)]) 0x00010211).snap.point 1).inRange 17 = true ∧
    ecAdd ⟨17, 2, 2⟩ (.coord 5 1) (.coord 6 3) = .ok (.coord 10 6) ∧ ecAdd ⟨2, 2, 2⟩ (.coord 0 1) (.coord 0 1) = .error .divByZero ∧
    ecDouble ⟨17, 2, 2⟩ (.coord 5 1) = .ok (.coord 6 3) ∧ ecDouble ⟨2, 2, 2⟩ (.coord 0 1) = .error .divByZero ∧
    ecScalarMult ⟨17, 2, 2⟩ (.coord 5 1) 19 = .ok .identity ∧ ecScalarMult ⟨2, 2, 2⟩ (.coord 0 1) 2 = .error .divByZero := by decide

/-- The clauses of OncurveCommand, PaddCommand and PdblCommand that spell points: INF = 1 whatever X and Y hold, the reset point,
an even p with y = p/2; a doubling with y = 0, with 2y ≡ 0 and without; equal points, equal x alone, and x that differ. -/
theorem witness_pointClauses :
    let S : Snapshot := (toyCfg 2 19 5 1 [] [(1, .coord 0 1)]).snapshot
    let T : Snapshot := { S with pt := S.pt.set 2 ⟨true, 17, 99⟩ }
    T.p ≠ 0 ∧ T.pt[2].inf = true ∧ T.pt[0] = ⟨false, 0, 0⟩ ∧ T.point 2 = .identity ∧
    T.p % 2 = 0 ∧ T.point 1 = .coord 0 (T.p / 2) ∧ (T.point 1).inRange T.p = true ∧
    0 < 17 ∧ 0 = 0 ∧ 1 ≠ 0 ∧ 2 * 1 % 2 = 0 ∧ 2 * 1 % 17 ≠ 0 ∧
    5 < 17 ∧ 1 < 17 ∧ 16 < 17 ∧ 6 < 17 ∧ 3 < 17 ∧ 1 ≠ 16 ∧ 5 ≠ 6 := by decide

/-! ### ECDSA -/

/-- PUBKEY, KEYGEN, SIGN: each check's failing and passing side at its boundary, and the nonce states. -/
theorem witness_nonceCommands :
    (running (toyCfg 0 1 5 1 [] []) 0x00000321).snap.p = 0 ∧ (running (toyCfg 17 1 5 1 [] []) 0x00000321).snap.n < 2 ∧
    (running (toyCfg 17 2 17 0 [] []) 0x00000321).snap.gen.inRange 17 = false ∧ (running (toyCfg 17 2 16 16 [] []) 0x00000321).snap.gen.inRange 17 = true ∧
    (running (toyNonce 0 []) 0x00000321).snap.kin = 0 ∧ (running (toyNonce 19 []) 0x00000321).snap.n ≤ (running (toyNonce 19 []) 0x00000321).snap.kin ∧
    (running (toyNonce 18 []) 0x00000321).snap.kin ≤ (running (toyNonce 18 []) 0x00000321).snap.n - 1 ∧
    (running (toyNonce 18 []) 0x00000321).snap.nonceSrc = true ∧ (running (toy [] []) 0x00000321).snap.nonceSrc = false ∧
    (running (toy [] []) 0x00000321).progress.nonce = .unasked := by decide

/-- An RNG request in flight, as KEYGEN leaves it, and its answer. -/
def waiting : State := nextOr State.reset (exec (.keygen 3) ((toy [] []).accept 0x00000321))
def answered (k : Nat) : State := nextOr State.reset (waiting.rngAnswer 1 k)

theorem witness_nonceStates :
    waiting.engine = .busy ⟨0x00000321, (toy [] []).snapshot, ⟨0, .requested, .notBegun⟩⟩ ∧
    (answered 18).engine = .busy ⟨0x00000321, (toy [] []).snapshot, ⟨0, .answered 18, .notBegun⟩⟩ := by decide

/-- SIGN's four endings: an error, a signature, and a rejection below and at the budget (95_test_vectors.md 2.3). -/
theorem witness_SignCommand :
    signAttempt ⟨2, 0, 1⟩ 3 (.coord 0 1) 2 1 2 = .error .divByZero ∧ signAttempt ⟨17, 2, 2⟩ 19 (.coord 5 1) 14 3 10 = .ok (some (7, 13)) ∧
    signAttempt ⟨17, 2, 2⟩ 19 (.coord 5 1) 14 3 7 = .ok none ∧ 1 < State.reset.params.maxSignAttempts := by decide

theorem witness_SignAttemptFormula : 2 ≤ 19 ∧ 1 ≤ 18 ∧ 18 ≤ 19 - 1 ∧ ecScalarMult ⟨2, 0, 1⟩ (.coord 0 1) 2 = .error .divByZero ∧
    ecScalarMult ⟨17, 2, 2⟩ .identity 18 = .ok .identity ∧ ecScalarMult ⟨17, 2, 2⟩ (.coord 5 1) 7 = .ok (.coord 0 6) ∧
    ecScalarMult ⟨17, 2, 2⟩ (.coord 5 1) 10 = .ok (.coord 7 11) ∧ ecScalarMult ⟨17, 2, 2⟩ (.coord 5 1) 1 = .ok (.coord 5 1) := by decide

/-- The signing state of 42_ecdsa.md R112's example, and what the command leaves. -/
def signing : State := (toyNonce 10 [(0, 14), (1, 3)]).accept 0x00510422
def signed : State := nextOr State.reset (exec (.sign 4 0 1 5) signing)

theorem signing_answers : exec (.sign 4 0 1 5) signing = .next signed := eq_nextOr _ (by decide)

theorem witness_SignaturesAreInRange : exec (.sign 4 0 1 5) signing = .next signed ∧ (4 : RegIdx) ≠ 5 ∧ signing.status.err = false ∧
    signed.busy = false ∧ signed.status.err = false := ⟨signing_answers, by decide⟩

/-- The retry state: three answers in [1, n-1] (95_test_vectors.md 2.3: two rejections, then (7, 13)). -/
def retrying : State :=
  { (toy [(0, 14), (1, 3)] []).accept 0x00510422 with schedule := .run :: answerEvents 1 [7, 12, 10] ++ [.work] }

theorem witness_SignRunsTheRetryLoop :
    retrying.engine = .busy (running (toy [(0, 14), (1, 3)] []) 0x00510422) ∧ decode 0x00510422 = .ok (.sign 4 0 1 5) ∧
    retrying.schedule = .run :: answerEvents (retrying.rngRequests + 1) [7, 12, 10] ++ [.work] ∧ 1 ≤ retrying.params.maxSignAttempts ∧
    (running (toy [(0, 14), (1, 3)] []) 0x00510422).snap.nonceSrc = false ∧
    (running (toy [(0, 14), (1, 3)] []) 0x00510422).snap.nonceCommandChecks = .ok (.coord 5 1) ∧
    (∀ k ∈ [7, 12, 10], 1 ≤ k ∧ k ≤ 18) ∧
    signLoop ⟨17, 2, 2⟩ 19 (.coord 5 1) 14 3 256 1 [7, 12, 10] = .signature 7 13 3 := by decide

/-- VERIFY: the range test failing at each of its four ends, the points out of range and in range, both multiplications, all three sums. -/
theorem witness_EcdsaVerifyFunction :
    (toy [] []).snapshot.p ≠ 0 ∧ 2 ≤ (toy [] []).snapshot.n ∧ 1 ≤ 18 ∧ 18 < 19 ∧ (toy [] []).snapshot.gen.inRange 17 = true ∧
    (Point.coord 17 3).inRange 17 = false ∧ (Point.coord 10 6).inRange 17 = true ∧
    ecdsaVerify (toy [] []).snapshot 14 7 13 (.coord 10 6) = .ok true ∧ ecdsaVerify (toy [] []).snapshot 14 0 1 (.coord 17 3) = .ok false ∧
    ecdsaVerify (toy [] []).snapshot 14 7 13 (.coord 17 3) = .error .pointRange ∧
    ecdsaVerify (toyCfg 2 3 0 1 [] []).snapshot 2 1 1 (.coord 0 1) = .error .divByZero := by decide

theorem witness_VerifyCommand : (running (toyCfg 0 1 5 1 [] []) 0x00540123).snap.p = 0 ∧ (running (toyCfg 1 1 5 1 [] []) 0x00540123).snap.p ≠ 0 ∧
    (running (toyCfg 1 1 5 1 [] []) 0x00540123).snap.n < 2 ∧ 2 ≤ (running (toyCfg 17 2 5 1 [] []) 0x00540123).snap.n := by decide

theorem witness_VerifyVerdictSymmetries : 14 % (toy [] []).snapshot.n = 33 % (toy [] []).snapshot.n ∧
    (toy [] []).snapshot.curve.Good ∧ (toy [] []).snapshot.n.Prime ∧ (toy [] []).snapshot.curve.On (toy [] []).snapshot.gen ∧
    ecScalarMult (toy [] []).snapshot.curve (toy [] []).snapshot.gen 19 = .ok .identity ∧ (toy [] []).snapshot.curve.On (.coord 10 6) ∧
    ecScalarMult (toy [] []).snapshot.curve (.coord 10 6) 19 = .ok .identity ∧ 1 ≤ 13 ∧ 13 < 19 :=
  ⟨by decide, toy_good, by show Nat.Prime 19; norm_num, toy_on _ (by decide) (by decide), by decide, toy_on _ (by decide) (by decide),
    by decide, by decide, by decide⟩

/-- The verifying state: the digest, the signature SIGN left and the public key. -/
def verifying : State := (toy [(0, 14), (4, 7), (5, 13)] [(1, .coord 10 6)]).accept 0x00540123

theorem witness_EcdsaRoundTrip :
    signing.engine = .busy (running (toyNonce 10 [(0, 14), (1, 3)]) 0x00510422) ∧ signing.snapshot.curve.Good ∧ Nat.Prime 19 ∧
    signing.snapshot.curve.On signing.snapshot.gen ∧ signing.snapshot.gen ≠ .identity ∧
    ecScalarMult signing.snapshot.curve signing.snapshot.gen 19 = .ok .identity ∧ 1 ≤ signing.snapshot.scalar 1 ∧
    ecScalarMult signing.snapshot.curve signing.snapshot.gen (signing.snapshot.scalar 1) = .ok (.coord 10 6) ∧
    signed.busy = false ∧ signed.status.err = false ∧ signing.status.err = false ∧
    verifying.snapshot.curve = signing.snapshot.curve ∧ verifying.snapshot.gen = signing.snapshot.gen ∧
    verifying.snapshot.scalar 0 = signing.snapshot.scalar 0 ∧ verifying.snapshot.scalar 4 = signed.r[4] ∧
    verifying.snapshot.scalar 5 = signed.r[5] ∧ verifying.snapshot.point 1 = .coord 10 6 := by
  refine ⟨by decide, toy_good, by norm_num, toy_on _ (by decide) (by decide), ?_⟩
  decide

/-! ### The command cycle and the bus -/

theorem witness_AcceptanceOfCommands : waiting.busy = true ∧ inError.status.err = true ∧ (toy [] []).busy = false ∧ (toy [] []).status.err = false := by decide

/-- A division by zero, running. -/
def dividing : State := (toy [(1, 15)] []).accept 0x00001905

/-- ErrorsArePrecise and ErrorTaxonomy. -/
theorem witness_errors : exec (.fdivP 9 1 0) dividing = .next (nextOr State.reset (exec (.fdivP 9 1 0) dividing)) ∧
    dividing.status.err = false ∧ (nextOr State.reset (exec (.fdivP 9 1 0) dividing)).status.err = true :=
  ⟨eq_nextOr _ (by decide), by decide⟩

/-- STATUS writes with both bits, with bit 1 alone and with bit 2 alone; CTRL writes that clear one enable. -/
theorem witness_IrqLine : (0x00000006 : Word).getLsbD 1 = true ∧ (0x00000006 : Word).getLsbD 2 = true ∧
    (0x00000002 : Word).getLsbD 1 = true ∧ (0x00000002 : Word).getLsbD 2 = false ∧
    (0x00000004 : Word).getLsbD 1 = false ∧ (0x00000004 : Word).getLsbD 2 = true := by decide

/-- LastcmdIsTheLastAcceptedWord: LASTCMD changes by a CMD write, by a reset and by an overlapped reset. -/
theorem witness_LastcmdIsTheLastAcceptedWord :
    write (toy [] []) 0x010 0x00021301 (fun t => t.lastcmd) = some 0x00021301 ∧ (toy [] []).lastcmd = 0 ∧
    stepTo { inError with schedule := [.reset] } (fun t => t.lastcmd) = some 0 ∧
    stepTo { inError with schedule := [.resetDuring (.read 0 .word)] } (fun t => t.lastcmd) = some 0 ∧ inError.lastcmd = 0x00001905 := by decide

theorem witness_BusyDropsOperandWrites : waiting.busy = true ∧ 0 % 4 = 0 ∧ 0 < windowSize ∧ 0x3FFC % 4 = 0 ∧ 0x3FFC < windowSize ∧
    targetOf 0x018 = .genInf ∧ targetOf 0x1100 = .ptInf 0 ∧ targetOf 0x010 = .cmd ∧ targetOf 0x47C = .big (.scalar 0) 31 ∧
    targetOf 0x400 = .big (.scalar 0) 0 ∧ targetOf 0x008 = .ctrl ∧ targetOf 0x00C = .status ∧ targetOf 0x3FFC = .reserved := by decide

theorem witness_WordsOfBigRegisters : 2 ^ 256 - 1 < 2 ^ (32 * 8) ∧ 0 < (toy [] []).params.nw ∧ 7 < (toy [] []).params.nw ∧
    (toy [] []).params.nw ≤ 32 ∧ (toy [] []).busy = false ∧ BigReg.kIn ≠ .pMod := by decide

theorem witness_AbsentAndReadOnlyWords : (toy [] []).params.nw ≤ 8 ∧ 8 < 32 ∧ 0x01C % 4 = 0 ∧ 0x3FC < 0x400 ∧ 0xF80 % 4 = 0 ∧ 0xFFC < 0x1000 ∧
    0x104 ≤ 0x1104 % 0x200 ∧ 0x104 ≤ 0x2FFC % 0x200 ∧ 0x3000 % 4 = 0 ∧ 0x3FFC < 0x4000 ∧ (toy [] []).busy = false := by decide

/-- ReadsAreFreeOfEffects and BusWriteFrame: a write that is accepted. -/
theorem witness_busWrite : (toy [] []).busTxn (.write ((toy [] []).params.base + 0x480) 0xF 5) =
      .next (nextOr State.reset ((toy [] []).busTxn (.write ((toy [] []).params.base + 0x480) 0xF 5))) ∧
    0x480 % 4 = 0 ∧ 0x480 < windowSize ∧ 0x484 ≠ 0x480 := ⟨eq_nextOr _ (by decide), by decide⟩

theorem witness_RejectedTransactionsChangeNothing : 0x3FFF < windowSize ∧ 0x3FFF % 4 ≠ 0 ∧ ReadWidth.half ≠ .word ∧ (0b0111 : BitVec 4) ≠ 0xF := by decide

theorem witness_HostWritesBigRegister : (toy [] []).params.wf = true ∧ (toy [] []).busy = false ∧ 2 ^ 256 - 1 < 2 ^ (toy [] []).params.width ∧
    (toy [] []).readBig .pMod < 2 ^ (toy [] []).params.width := by decide

/-! ### Reset and the whole machine -/

theorem witness_ResetState : Params.default.width < 2 ^ 16 ∧ Params.default.maxSignAttempts < 2 ^ 16 ∧ State.reset.cfg.p = 0 ∧ State.reset.cfg.n = 0 := by decide

/-- A KEYGEN was waiting, was reset, and a second one waits: request 1 is abandoned, request 2 is in flight. -/
def waitingAgain : State := nextOr State.reset (exec (.keygen 3) ({ (toy [] []) with rngRequests := 1 }.accept 0x00000321))

theorem witness_ResetAbandonsEverything : 0x3FFF < windowSize ∧ (BusTxn.read 0x3FFF .byte).addr = waiting.params.base + 0x3FFF ∧
    1 ≤ waiting.rngRequests ∧ waiting.resetBlock.rngRequests = 1 ∧
    1 ≤ waitingAgain.rngRequests ∧ 1 < waitingAgain.rngRequests ∧ waitingAgain.rngRequest = some 19 := by decide

/-- 70_reset_and_hazards.md R138: the answer to the abandoned request is ignored, in range or not, while the later KEYGEN waits;
its own answer is used. -/
theorem test_stale_answer_ignored :
    nextOr State.reset (waitingAgain.rngAnswer 1 12) = waitingAgain ∧ nextOr State.reset (waitingAgain.rngAnswer 1 19) = waitingAgain ∧
    (nextOr State.reset (waitingAgain.rngAnswer 2 12)).rngRequest = none := by decide

/-- 70_reset_and_hazards.md R150: an IDLE engine and no bus transaction to come is the end, whatever other events are still scheduled. -/
theorem test_ended :
    { toy [] [] with schedule := [.work, .run, .rng 1 5, .reset] }.ended = true ∧
    { toy [] [] with schedule := [.run, hostRead (toy [] []).params 0x00C] }.ended = false ∧
    { waiting with schedule := [] }.ended = false ∧ (toy [] []).ended = true := by decide

theorem witness_ConfigChangesOnlyByHostOrReset :
    write (toy [] []) 0xC00 23 (fun t => t.cfg.p) = some 23 ∧ (toy [] []).cfg.p = 17 ∧
    stepTo { toy [] [] with schedule := [.reset] } (fun t => t.cfg.p) = some 0 ∧
    stepTo { toy [] [] with schedule := [.resetDuring (.read 0 .word)] } (fun t => t.cfg.p) = some 0 := by decide

theorem witness_StepRunsTheDecodedCommand : (toy [] []).schedule = [] ∧ (retrying.schedule ≠ []) ∧ decode 0x00510422 = .ok (.sign 4 0 1 5) ∧
    (toy [] []).engine = .idle ∧ 0x00510422 < 2 ^ 32 := by decide

/-- CommandFrame, CommandWindowFrame and OutcomeDependsOnTheSnapshotOnly: SIGN completing, (`signing_answers`) seen from two states whose live registers differ. -/
theorem witness_frames : targetOf 0x400 ≠ .status ∧ isDestTarget (.sign 4 0 1 5) (targetOf 0x400) = false ∧
    (let s' := { signing with r := (toy [] []).r }; s'.engine = signing.engine ∧ s'.status = signing.status ∧ s'.r ≠ signing.r) ∧
    signing.status.err = false := by decide

/-- EngineAlwaysMovesOn, StepKeepsInvariant and CompletionAndAcknowledgeRace: a toy state has the invariant, also with a command running. -/
theorem toy_inv : (toy [(1, 15), (2, 5)] [(0, .coord 5 1)]).Inv where
  params := by decide
  fits := ⟨by decide, by decide, by unfold ConfigRegs.Fits; decide⟩
  errcode := rfl
  running := fun run hr => by cases hr

theorem witness_invariant : ((toy [(1, 15), (2, 5)] [(0, .coord 5 1)]).accept 0x00021301).Inv := inv_accept _ toy_inv rfl

/-- The same, adding. -/
def adding : State := (toy [(1, 15), (2, 5)] [(0, .coord 5 1)]).accept 0x00021301

theorem witness_completion : adding.engineRun = .next (nextOr adding adding.engineRun) ∧ step adding = .next (nextOr adding (step adding)) ∧
    adding.busy = true ∧ (nextOr adding adding.engineRun).busy = false ∧ (0x00000002 : Word).getLsbD 1 = true :=
  ⟨eq_nextOr _ (by decide), eq_nextOr _ (by decide), by decide⟩

theorem witness_RngPort : waiting.rngRequest = some 19 ∧ waiting.rngRequests = 1 ∧ 2 ≠ waiting.rngRequests ∧ 1 ≤ 18 ∧ 18 ≤ 19 - 1 ∧ ¬ (1 ≤ 0 ∧ 0 ≤ 19 - 1) ∧ ¬ (1 ≤ 19 ∧ 19 ≤ 19 - 1) ∧
    (toy [] []).rngRequest = none := by decide

theorem witness_ResetHasInvariant : Params.wf ⟨1024, 65535, 0x4000⟩ = true ∧ Params.wf ⟨32, 1, 0⟩ = true := by decide

end Sys2Proof.Tests
end

section
/-! PROOFS. The curve functions on a good curve are the group of the Weierstrass curve over `ZMod p`:
Mathlib's points map onto the block's points on the curve, and `ec_add`, `ec_double` and `ec_scalar_mult` act on the images
as addition, doubling and natural multiples do (00_scope.md R13, 41_curve.md R95 to R97, R102). -/

namespace Sys2Proof.Proofs

open Sys2Proof.Machine Sys2Proof.Laws
open WeierstrassCurve (Affine)

/-! ### The field functions in `ZMod m` (40_field.md R80 to R84) -/

theorem fieldAdd_eq_val (m x y : Nat) : fieldAdd m x y = (x + y : ZMod m).val := by
  rw [← Nat.cast_add, ZMod.val_natCast, fieldAdd]

theorem fieldMul_eq_val (m x y : Nat) : fieldMul m x y = (x * y : ZMod m).val := by
  rw [← Nat.cast_mul, ZMod.val_natCast, fieldMul]

theorem fieldSub_eq_val {m : Nat} [NeZero m] (x y : Nat) : fieldSub m x y = (x - y : ZMod m).val := by
  have hle : y % m ≤ m := (Nat.mod_lt y (NeZero.pos m)).le
  have hcast : ((x + (m - y % m) : Nat) : ZMod m) = x - y := by
    rw [Nat.cast_add, Nat.cast_sub hle, ZMod.natCast_self, ZMod.natCast_mod, zero_sub, sub_eq_add_neg]
  rw [← hcast, ZMod.val_natCast, fieldSub]

/-- The Fermat power is the inverse (40_field.md R83), for a prime modulus. -/
theorem pow_sub_two_eq_inv {p : Nat} [Fact p.Prime] {y : ZMod p} (hy : y ≠ 0) : y ^ (p - 2) = y⁻¹ := by
  have hp : p - 2 + 1 = p - 1 := by have := (Fact.out : p.Prime).two_le; omega
  exact eq_inv_of_mul_eq_one_left (by rw [← pow_succ, hp, ZMod.pow_card_sub_one_eq_one hy])

theorem fieldDiv_eq_val {p : Nat} [Fact p.Prime] {x y : Nat} (hy : (y : ZMod p) ≠ 0) :
    fieldDiv p x y = .ok (x / y : ZMod p).val := by
  have hmod : y % p ≠ 0 := fun h => hy ((ZMod.natCast_eq_zero_iff y p).mpr (Nat.dvd_of_mod_eq_zero h))
  rw [fieldDiv_eq, if_neg hmod, fieldMul_eq_val, ZMod.natCast_mod, Nat.cast_pow, pow_sub_two_eq_inv hy, div_eq_mul_inv]

/-! ### The curve over `ZMod p` and its points -/

/-- The block's curve as a Weierstrass curve over `ZMod p`. -/
def weierstrass (c : Curve) : Affine (ZMod c.p) := ⟨0, 0, 0, c.a, c.b⟩

/-- A point of the Weierstrass curve as the block's functions take and answer it. -/
def ofAffine {c : Curve} : (weierstrass c).Point → Point
  | .zero => .identity
  | .some x y _ => .coord x.val y.val

theorem weierstrass_negY (c : Curve) (x y : ZMod c.p) : (weierstrass c).negY x y = -y := by
  simp [weierstrass, Affine.negY]

section

variable {c : Curve} [Fact c.p.Prime]

theorem equation_of_ecOnCurve {x y : Nat} (h : ecOnCurve c (.coord x y) = true) : (weierstrass c).Equation x y := by
  simp only [ecOnCurve, fieldAdd_eq_val, fieldMul_eq_val, ZMod.natCast_zmod_val, beq_iff_eq] at h
  rw [Affine.equation_iff]
  simp only [weierstrass]
  linear_combination ZMod.val_injective _ h

theorem two_ne_zero_of_odd (hodd : c.p % 2 = 1) : (2 : ZMod c.p) ≠ 0 := by
  intro h
  have hdvd : c.p ∣ 2 := (ZMod.natCast_eq_zero_iff 2 c.p).mp (by exact_mod_cast h)
  have := (Nat.prime_dvd_prime_iff_eq Fact.out Nat.prime_two).mp hdvd
  omega

theorem discriminant_ne_zero (hc : c.Good) : (weierstrass c).Δ ≠ 0 := by
  obtain ⟨-, hodd, hsing⟩ := hc
  have hfactor : (weierstrass c).Δ = -2 ^ 4 * ((4 * c.a ^ 3 + 27 * c.b ^ 2 : Nat) : ZMod c.p) := by
    simp only [weierstrass, WeierstrassCurve.Δ, WeierstrassCurve.b₂, WeierstrassCurve.b₄, WeierstrassCurve.b₆,
      WeierstrassCurve.b₈]
    push_cast
    ring
  rw [hfactor]
  refine mul_ne_zero (neg_ne_zero.mpr (pow_ne_zero _ (two_ne_zero_of_odd hodd))) ?_
  rwa [Ne, ZMod.natCast_eq_zero_iff, Nat.dvd_iff_mod_eq_zero]

/-- Every point the range check admits that lies on a good curve comes from the Weierstrass curve. -/
theorem exists_ofAffine_eq {P : Point} (hc : c.Good) (hP : c.On P) : ∃ A : (weierstrass c).Point, ofAffine A = P := by
  obtain ⟨hrange, hcurve⟩ := hP
  cases P with
  | identity => exact ⟨.zero, rfl⟩
  | coord x y =>
    simp only [Point.inRange, Bool.and_eq_true, decide_eq_true_eq] at hrange
    have hns := (Affine.equation_iff_nonsingular_of_Δ_ne_zero (discriminant_ne_zero hc)).mp (equation_of_ecOnCurve hcurve)
    exact ⟨.some x y hns, by simp [ofAffine, Nat.mod_eq_of_lt, hrange]⟩

/-! ### `ec_double` and `ec_add` are the group's -/

theorem addX_eq (x₁ x₂ s : ZMod c.p) : (weierstrass c).addX x₁ x₂ s = s * s - x₁ - x₂ := by
  simp only [weierstrass, Affine.addX]
  ring

theorem addY_eq (x₁ x₂ y₁ s : ZMod c.p) :
    (weierstrass c).addY x₁ x₂ y₁ s = s * (x₁ - (weierstrass c).addX x₁ x₂ s) - y₁ := by
  rw [Affine.addY, weierstrass_negY, Affine.negAddY]
  ring

/-- The block's chord (41_curve.md R96) meets the curve where Mathlib's does. -/
theorem chordPoint_val {x₁ y₁ x₂ y₂ : ZMod c.p} (hx : x₁ ≠ x₂) :
    chordPoint c x₁.val y₁.val x₂.val y₂.val =
      .ok (.coord ((weierstrass c).addX x₁ x₂ ((weierstrass c).slope x₁ x₂ y₁ y₂)).val
        ((weierstrass c).addY x₁ x₂ y₁ ((weierstrass c).slope x₁ x₂ y₁ y₂)).val) := by
  have hslope : (weierstrass c).slope x₁ x₂ y₁ y₂ = (y₂ - y₁) / (x₂ - x₁) := by
    rw [Affine.slope_of_X_ne hx, ← neg_sub y₂, ← neg_sub x₂, neg_div_neg_eq]
  have hden : x₂ - x₁ ≠ 0 := sub_ne_zero.mpr hx.symm
  simp only [chordPoint, fieldSub_eq_val, fieldMul_eq_val, ZMod.natCast_zmod_val]
  rw [fieldDiv_eq_val (by simpa using hden), addY_eq, addX_eq, hslope]
  simp

/-- On an odd prime only `y = 0` is its own negative, which is R95's test for the vertical tangent. -/
theorem ne_negY_of_ne_zero (hodd : c.p % 2 = 1) (x : ZMod c.p) {y : ZMod c.p} (hy : y ≠ 0) :
    y ≠ (weierstrass c).negY x y := by
  rw [weierstrass_negY]
  exact ZMod.ne_neg_self (Nat.odd_iff.mpr hodd) hy

/-- The block's tangent (41_curve.md R95) meets the curve where Mathlib's does. -/
theorem tangentPoint_val (hodd : c.p % 2 = 1) {x y : ZMod c.p} (hy : y ≠ 0) :
    tangentPoint c x.val y.val =
      .ok (.coord ((weierstrass c).addX x x ((weierstrass c).slope x x y y)).val
        ((weierstrass c).addY x x y ((weierstrass c).slope x x y y)).val) := by
  have hslope : (weierstrass c).slope x x y y = (3 * (x * x) + c.a) / (2 * y) := by
    rw [Affine.slope_of_Y_ne rfl (ne_negY_of_ne_zero hodd x hy), weierstrass_negY]
    simp only [weierstrass]
    congr 1 <;> ring
  have hden : 2 * y ≠ 0 := mul_ne_zero (two_ne_zero_of_odd hodd) hy
  simp only [tangentPoint, fieldAdd_eq_val, fieldSub_eq_val, fieldMul_eq_val, ZMod.natCast_zmod_val]
  rw [fieldDiv_eq_val (by simpa using hden), addY_eq, addX_eq, hslope, sub_sub, ← two_mul]
  simp

theorem ecDouble_ofAffine (hodd : c.p % 2 = 1) (A : (weierstrass c).Point) :
    ecDouble c (ofAffine A) = .ok (ofAffine (A + A)) := by
  cases A with
  | zero => rfl
  | some x y hA =>
    by_cases hy : y = 0
    · rw [Affine.Point.add_self_of_Y_eq (by rw [weierstrass_negY, hy, neg_zero])]
      simp [ofAffine, ecDouble, hy]
    · rw [Affine.Point.add_self_of_Y_ne (ne_negY_of_ne_zero hodd x hy)]
      simp only [ofAffine, ecDouble, ZMod.val_eq_zero, if_neg hy, tangentPoint_val hodd hy]

theorem ecAdd_ofAffine (hodd : c.p % 2 = 1) (A B : (weierstrass c).Point) :
    ecAdd c (ofAffine A) (ofAffine B) = .ok (ofAffine (A + B)) := by
  cases A with
  | zero => exact congrArg (Except.ok ∘ ofAffine) (zero_add B).symm
  | some x₁ y₁ hA =>
    cases B with
    | zero => rfl
    | some x₂ y₂ hB =>
      by_cases hx : x₁ = x₂
      · subst hx
        by_cases hy : y₁ = y₂
        · subst hy
          rw [← ecDouble_ofAffine hodd]
          simp [ofAffine, ecAdd]
        · have hneg : y₁ = (weierstrass c).negY x₁ y₂ :=
            (Affine.Y_eq_of_X_eq hA.left hB.left rfl).resolve_left hy
          rw [Affine.Point.add_of_Y_eq rfl hneg]
          simp [ofAffine, ecAdd, (ZMod.val_injective c.p).eq_iff, hy]
      · rw [Affine.Point.add_of_X_ne hx]
        simp only [ofAffine, ecAdd, (ZMod.val_injective c.p).eq_iff, if_neg hx, chordPoint_val hx]

/-! ### `ec_scalar_mult` is the natural multiple (41_curve.md R97) -/

/-- One iteration adds the addend where the exponent is odd, and doubles the addend. -/
theorem mulStep_ofAffine (hodd : c.p % 2 = 1) (R A : (weierstrass c).Point) (e : Nat) :
    mulStep c ⟨ofAffine R, ofAffine A, e⟩ = .ok ⟨ofAffine (R + (e % 2) • A), ofAffine (A + A), e / 2⟩ := by
  have hadd : mulAddend c ⟨ofAffine R, ofAffine A, e⟩ = .ok (ofAffine (R + (e % 2) • A)) := by
    rcases Nat.mod_two_eq_zero_or_one e with he | he
    · simp [mulAddend, he]
    · simp [mulAddend, he, ecAdd_ofAffine hodd]
  rw [mulStep, hadd, ecDouble_ofAffine hodd]
  rfl

/-- The loop's invariant: what it ends with is result + e · addend. -/
theorem mulFinish_ofAffine (hodd : c.p % 2 = 1) (R A : (weierstrass c).Point) (e : Nat) :
    mulFinish c ⟨ofAffine R, ofAffine A, e⟩ = .ok (ofAffine (R + e • A)) := by
  induction e using Nat.strong_induction_on generalizing R A with
  | _ e ih =>
    by_cases he : e = 0
    · simp [he]
    · have hsplit : R + (e % 2) • A + (e / 2) • (A + A) = R + e • A := by
        rw [add_assoc, ← two_nsmul, smul_smul, ← add_smul, Nat.mul_comm, Nat.mod_add_div]
      rw [mulFinish_step c _ he, mulStep_ofAffine hodd, ← hsplit, ← ih (e / 2) (by omega)]
      rfl

theorem ecScalarMult_ofAffine (hodd : c.p % 2 = 1) (A : (weierstrass c).Point) (k : Nat) :
    ecScalarMult c (ofAffine A) k = .ok (ofAffine (k • A)) := by
  match k with
  | 0 => rw [zero_nsmul]; rfl
  | 1 => rw [one_nsmul]; rfl
  | k + 2 => exact (mulFinish_ofAffine hodd 0 A (k + 2)).trans (by rw [zero_add])

/-- One more scalar is one more addition of the point. -/
theorem ecScalarMult_ofAffine_succ (hodd : c.p % 2 = 1) (A : (weierstrass c).Point) (k : Nat) :
    ecScalarMult c (ofAffine A) (k + 1) = (ecScalarMult c (ofAffine A) k).bind fun R => ecAdd c R (ofAffine A) := by
  rw [ecScalarMult_ofAffine hodd, ecScalarMult_ofAffine hodd, succ_nsmul, ← ecAdd_ofAffine hodd]
  rfl

end

/-- Settles O19: on a good curve the point comes from Mathlib's group, where k ↦ k • A is repeated addition. -/
theorem goodCurveScalarMultIsRepeatedAddition : Obligations.GoodCurveScalarMultIsRepeatedAddition := by
  intro c P k hc hP
  have ⟨hprime, hodd, _⟩ := hc
  have : Fact c.p.Prime := ⟨hprime⟩
  obtain ⟨A, rfl⟩ := exists_ofAffine_eq hc hP
  exact ⟨ecScalarMult_ofAffine_succ hodd A k, ecScalarMult_ofAffine_succ hodd A 1, ecScalarMult_ofAffine_succ hodd A 2⟩

end Sys2Proof.Proofs
end

section
/-! PROOFS. The move of a running command as a value of its own: what a meaning answers depends on the running command and the block's parameters
alone (10_state.md R33, R34), it writes exactly the command's destinations (30_encoding.md R70), and what it writes is reduced. -/

namespace Sys2Proof.Proofs

open Sys2Proof Sys2Proof.Machine Sys2Proof.Laws Sys2Proof.Config

/-! ### Nonces and multiplications of a running command -/

theorem draw_ask {run : Running} (h : run.draw = .ask) : run.snap.nonceSrc = false := by
  unfold Running.draw at h
  split at h
  · cases h
  · simpa using ‹¬ run.snap.nonceSrc = true›

theorem draw_got {run : Running} {k : Nat} (h : run.draw = .got k) :
    (run.snap.nonceSrc = true ∧ k = run.snap.kin) ∨ run.progress.nonce = .answered k := by
  unfold Running.draw at h
  split at h
  · cases h; exact Or.inl ⟨‹_›, rfl⟩
  · split at h
    · cases h
    · cases h
    · cases h; exact Or.inr ‹_›

/-- The RNG's contract for the answer a running command holds (20_memory.md R44). -/
def AnswerAtMost (run : Running) : Prop := ∀ k, run.progress.nonce = .answered k → k ≤ run.snap.n - 1

/-- Every nonce drawn is below the order: K_IN was checked (42_ecdsa.md R107) and the RNG keeps its contract. -/
theorem draw_lt {run : Running} {G : Point} {k : Nat} (hc : run.snap.nonceCommandChecks = .ok G) (hd : run.draw = .got k)
    (ha : AnswerAtMost run) : k < run.snap.n := by
  obtain ⟨-, hn, -, -, hkin⟩ := nonceCommandChecks_ok hc
  have hk : k ≤ run.snap.n - 1 := by
    rcases draw_got hd with ⟨hsrc, rfl⟩ | hans
    · exact (hkin hsrc).2
    · exact ha k hans
  omega

/-- A faithful first multiplication of a point in range ends in range. -/
theorem firstMul_inRange {i : Instr} {run : Running} {P V : Point} {k : Nat} {next : Option (Point × Nat)}
    (hm : MulFaithful i run) (ho : mulOperands i run = some ((P, k), next)) (hp : run.snap.p ≠ 0)
    (hP : P.inRange run.snap.p = true) (hV : firstMul run.snap.curve P k run.progress.mul = .ok V) :
    V.inRange run.snap.p = true := by
  unfold MulFaithful at hm
  simp only [ho] at hm
  rw [hm.1] at hV
  exact ecScalarMult_inRange (c := run.snap.curve) (Nat.pos_of_ne_zero hp) hP hV

theorem signFromPoint_lt {n z d k r v : Nat} {R : Point} (hn : 0 < n) (h : signFromPoint n z d k R = .ok (some (r, v))) :
    r < n ∧ v < n := by
  cases R with
  | identity => cases h
  | coord x y =>
    simp only [signFromPoint] at h
    split at h
    · cases h
    · obtain ⟨u, hu, h⟩ := bind_ok h
      split at h <;> cases h
      exact ⟨Nat.mod_lt _ hn, fieldDiv_lt hn hu⟩

/-! ### Moves -/

/-- The answers of a meaning, apart from the state it is made in (60_exceptions.md R116; 20_memory.md R44). -/
inductive Move where
  | commit (w : Commit)
  | raise (e : CmdError) (attempts : Option Nat)
  | request (rejected : Nat)
  | wait

/-- The move made in a state. -/
def Move.apply (run : Running) (s : State) : Move → State
  | .commit w => s.commit w
  | .raise e n => s.raise e n
  | .request n => s.requestNonce run n
  | .wait => s

/-- A commit that writes exactly the destinations of i (30_encoding.md R70), with scalars below the larger modulus and points in range. -/
structure CommitOk (i : Instr) (run : Running) (w : Commit) : Prop where
  scalars : w.scalars.map Prod.fst = scalarDests i
  point : (w.point.map Prod.fst).toList = pointDests i
  scalarsReduced : AnswerAtMost run → ∀ x ∈ w.scalars, x.2 < max run.snap.p run.snap.n
  pointInRange : MulFaithful i run → ∀ x, w.point = some x → x.2.inRange run.snap.p = true

/-- What the moves of i from `run` are: a request comes only from KEYGEN or SIGN with the RNG source, its preconditions met,
and within the budget (42_ecdsa.md R104, R106, R111). -/
def Move.Ok (i : Instr) (p : Params) (run : Running) : Move → Prop
  | .commit w => CommitOk i run w
  | .raise _ _ => True
  | .request n => drawsNonce i = true ∧ run.snap.nonceSrc = false ∧ (∃ G, run.snap.nonceCommandChecks = .ok G) ∧
      (run.progress.rejected < p.maxSignAttempts → n < p.maxSignAttempts)
  | .wait => True

/-- In every state with the parameters p that runs `run`, the meaning of i makes the move m. -/
def Makes (i : Instr) (p : Params) (run : Running) (m : Move) : Prop :=
  ∀ s : State, s.engine = .busy run → s.params = p → exec i s = .next (m.apply run s)

theorem commitOk_scalar {i : Instr} {run : Running} {rd : RegIdx} {v : Nat} (hs : scalarDests i = [rd]) (hp : pointDests i = [])
    (hv : v < max run.snap.p run.snap.n) : CommitOk i run (Commit.scalar rd v) where
  scalars := by simp [Commit.scalar, hs]
  point := by simp [Commit.scalar, hp]
  scalarsReduced := by simpa [Commit.scalar] using fun _ => hv
  pointInRange := by simp [Commit.scalar]

theorem commitOk_toPoint {i : Instr} {run : Running} {rd : RegIdx} {V : Point} (hs : scalarDests i = []) (hp : pointDests i = [rd])
    (hV : MulFaithful i run → V.inRange run.snap.p = true) : CommitOk i run (Commit.toPoint rd V) where
  scalars := by simp [Commit.toPoint, hs]
  point := by simp [Commit.toPoint, hp]
  scalarsReduced := by simp [Commit.toPoint]
  pointInRange := by simpa [Commit.toPoint] using hV

theorem commitOk_flag {i : Instr} {run : Running} {b : Bool} (hs : scalarDests i = []) (hp : pointDests i = []) :
    CommitOk i run (Commit.flag b) where
  scalars := by simp [Commit.flag, hs]
  point := by simp [Commit.flag, hp]
  scalarsReduced := by simp [Commit.flag]
  pointInRange := by simp [Commit.flag]

/-- A command that draws no nonce ends with its body's commit or error. -/
theorem finish_move {i : Instr} {p : Params} {run : Running} {o : Except CmdError Commit}
    (he : ∀ s : State, s.engine = .busy run → exec i s = s.finish o) (ho : ∀ w, o = .ok w → CommitOk i run w) :
    ∃ m : Move, m.Ok i p run ∧ Makes i p run m := by
  cases o with
  | ok w => exact ⟨.commit w, ho w rfl, fun s hs _ => he s hs⟩
  | error e => exact ⟨.raise e none, trivial, fun s hs _ => he s hs⟩

theorem checkedModulus_ok {S : Snapshot} {sel : ModSel} {m : Nat} (h : S.checkedModulus sel = .ok m) : 0 < m ∧ m ≤ max S.p S.n := by
  unfold Snapshot.checkedModulus at h
  split at h <;> cases h
  exact ⟨Nat.pos_of_ne_zero ‹_›, by cases sel <;> simp [Snapshot.modulus]⟩

/-- The shared shape of 40_field.md R85 to R89. -/
theorem field_move {i : Instr} {p : Params} {run : Running} {sel : ModSel} {rd : RegIdx}
    {value : Nat → Snapshot → Except CmdError Nat} (he : ∀ s, exec i s = fieldCommand sel rd value s)
    (hs : scalarDests i = [rd]) (hp : pointDests i = []) (hv : ∀ m v, 0 < m → value m run.snap = .ok v → v < m) :
    ∃ m : Move, m.Ok i p run ∧ Makes i p run m := by
  refine finish_move (fun s hb => (he s).trans (withCommand_busy hb _)) fun w hw => ?_
  obtain ⟨m, hm, hw⟩ := bind_ok hw
  obtain ⟨v, hval, hw⟩ := bind_ok hw
  cases hw
  obtain ⟨hpos, hle⟩ := checkedModulus_ok hm
  exact commitOk_scalar hs hp ((hv m v hpos hval).trans_le hle)

theorem fieldInv_lt {m y v : Nat} (hm : 0 < m) (h : fieldInv m y = .ok v) : v < m := by
  rw [(fieldInv_ok h).2]
  exact Nat.mod_lt _ hm

/-- KEYGEN's moves (42_ecdsa.md R109). -/
theorem keygen_move (rd : RegIdx) (p : Params) (run : Running) :
    ∃ m : Move, m.Ok (.keygen rd) p run ∧ Makes (.keygen rd) p run m := by
  cases hc : run.snap.nonceCommandChecks with
  | error e => exact ⟨.raise e none, trivial, fun s hs _ => by simp [exec, execKeygen, hs, hc, Move.apply]⟩
  | ok G =>
    cases hd : run.draw with
    | ask =>
      exact ⟨.request 0, ⟨rfl, draw_ask hd, ⟨G, hc⟩, by omega⟩, fun s hs _ => by simp [exec, execKeygen, hs, hc, hd, Move.apply]⟩
    | wait => exact ⟨.wait, trivial, fun s hs _ => by simp [exec, execKeygen, hs, hc, hd, Move.apply]⟩
    | got d =>
      obtain ⟨hp, -, -, hG, -⟩ := nonceCommandChecks_ok hc
      have he : ∀ s : State, s.engine = .busy run → exec (.keygen rd) s = s.finish do
          let Q ← firstMul run.snap.curve G d run.progress.mul
          return { scalars := [(rd, d)], point := some (rd, Q) } := fun s hs => by simp [exec, execKeygen, hs, hc, hd]
      refine finish_move he fun w hw => ?_
      obtain ⟨Q, hQ, hw⟩ := bind_ok hw
      cases hw
      have hops : mulOperands (.keygen rd) run = some ((G, d), none) := by simp [mulOperands, hc, hd]
      exact ⟨rfl, rfl, by simpa using fun ha => Or.inr (draw_lt hc hd ha), by simpa using fun hm => firstMul_inRange hm hops hp hG hQ⟩

/-- What follows a signing attempt (42_ecdsa.md R111). -/
theorem signSettle_move {rd ra rb rc : RegIdx} {p : Params} {run : Running} {G : Point} {k : Nat}
    (hc : run.snap.nonceCommandChecks = .ok G)
    (he : ∀ s : State, s.engine = .busy run → exec (.sign rd ra rb rc) s = signSettle rd rc s run (run.signOutcome G ra rb k)) :
    ∃ m : Move, m.Ok (.sign rd ra rb rc) p run ∧ Makes (.sign rd ra rb rc) p run m := by
  have hbudget : ∀ s : State, s.params = p → signBudget s run = if run.snap.nonceSrc then 1 else p.maxSignAttempts :=
    fun s hp => by rw [signBudget, hp]
  rcases ho : run.signOutcome G ra rb k with e | _ | ⟨r, v⟩
  · exact ⟨.raise e (some (signTurn run)), trivial, fun s hs _ => by rw [he s hs, ho]; rfl⟩
  · by_cases ht : signTurn run < if run.snap.nonceSrc then 1 else p.maxSignAttempts
    · have hsrc : run.snap.nonceSrc = false := by
        by_contra hsrc
        simp [signTurn, Bool.not_eq_false _ ▸ hsrc] at ht
      refine ⟨.request (signTurn run), ⟨rfl, hsrc, ⟨G, hc⟩, fun _ => by simpa [hsrc] using ht⟩, fun s hs hp => ?_⟩
      rw [he s hs, ho, signSettle, hbudget s hp, if_pos ht]
      rfl
    · refine ⟨.raise .signFail (some (if run.snap.nonceSrc then 1 else p.maxSignAttempts)), trivial, fun s hs hp => ?_⟩
      rw [he s hs, ho, signSettle, hbudget s hp, if_neg ht]
      rfl
  · obtain ⟨R, -, hR⟩ := bind_ok ho
    obtain ⟨-, hn, -⟩ := nonceCommandChecks_ok hc
    obtain ⟨hr, hv⟩ := signFromPoint_lt (by omega) hR
    exact ⟨.commit { scalars := [(rd, r), (rc, v)], attempts := some (signTurn run) },
      ⟨rfl, rfl, by simp [hr, hv], by simp⟩, fun s hs _ => by rw [he s hs, ho]; rfl⟩

/-- SIGN's moves (42_ecdsa.md R111, R112). -/
theorem sign_move (rd ra rb rc : RegIdx) (p : Params) (run : Running) :
    ∃ m : Move, m.Ok (.sign rd ra rb rc) p run ∧ Makes (.sign rd ra rb rc) p run m := by
  cases hc : run.snap.nonceCommandChecks with
  | error e => exact ⟨.raise e (some 0), trivial, fun s hs _ => by simp [exec, execSign, hs, hc, Move.apply]⟩
  | ok G =>
    cases hd : run.draw with
    | ask =>
      exact ⟨.request run.progress.rejected, ⟨rfl, draw_ask hd, ⟨G, hc⟩, id⟩,
        fun s hs _ => by simp [exec, execSign, hs, hc, hd, Move.apply]⟩
    | wait => exact ⟨.wait, trivial, fun s hs _ => by simp [exec, execSign, hs, hc, hd, Move.apply]⟩
    | got k => exact signSettle_move (k := k) hc fun s hs => by simp [exec, execSign, hs, hc, hd]

/-- Every command makes one move, which the running command and the parameters fix whatever else the state holds (10_state.md R34). -/
theorem exec_move (i : Instr) (p : Params) (run : Running) : ∃ m : Move, m.Ok i p run ∧ Makes i p run m := by
  cases i with
  | faddP rd ra rb => exact field_move (fun _ => rfl) rfl rfl fun m v hm h => by cases h; exact fieldAdd_lt hm _ _
  | faddN rd ra rb => exact field_move (fun _ => rfl) rfl rfl fun m v hm h => by cases h; exact fieldAdd_lt hm _ _
  | fsubP rd ra rb => exact field_move (fun _ => rfl) rfl rfl fun m v hm h => by cases h; exact fieldSub_lt hm _ _
  | fsubN rd ra rb => exact field_move (fun _ => rfl) rfl rfl fun m v hm h => by cases h; exact fieldSub_lt hm _ _
  | fmulP rd ra rb => exact field_move (fun _ => rfl) rfl rfl fun m v hm h => by cases h; exact fieldMul_lt hm _ _
  | fmulN rd ra rb => exact field_move (fun _ => rfl) rfl rfl fun m v hm h => by cases h; exact fieldMul_lt hm _ _
  | finvP rd ra => exact field_move (fun _ => rfl) rfl rfl fun m v hm h => fieldInv_lt hm h
  | finvN rd ra => exact field_move (fun _ => rfl) rfl rfl fun m v hm h => fieldInv_lt hm h
  | fdivP rd ra rb => exact field_move (fun _ => rfl) rfl rfl fun m v hm h => fieldDiv_lt hm h
  | fdivN rd ra rb => exact field_move (fun _ => rfl) rfl rfl fun m v hm h => fieldDiv_lt hm h
  | oncurve ra =>
    refine finish_move (fun s hs => withCommand_busy hs _) fun w hw => ?_
    obtain ⟨P, -, hw⟩ := bind_ok hw
    cases hw
    exact commitOk_flag rfl rfl
  | padd rd ra rb =>
    refine finish_move (fun s hs => withCommand_busy hs _) fun w hw => ?_
    obtain ⟨P, hP, hw⟩ := bind_ok hw
    obtain ⟨Q, hQ, hw⟩ := bind_ok hw
    obtain ⟨V, hV, hw⟩ := bind_ok hw
    cases hw
    obtain ⟨hp, -, hPr⟩ := checkedPoint_ok hP
    obtain ⟨-, -, hQr⟩ := checkedPoint_ok hQ
    exact commitOk_toPoint rfl rfl fun _ => ecAdd_inRange (c := run.snap.curve) (Nat.pos_of_ne_zero hp) hPr hQr hV
  | pdbl rd ra =>
    refine finish_move (fun s hs => withCommand_busy hs _) fun w hw => ?_
    obtain ⟨P, hP, hw⟩ := bind_ok hw
    obtain ⟨V, hV, hw⟩ := bind_ok hw
    cases hw
    obtain ⟨hp, -⟩ := checkedPoint_ok hP
    exact commitOk_toPoint rfl rfl fun _ => ecDouble_inRange (c := run.snap.curve) (Nat.pos_of_ne_zero hp) hV
  | pmul rd ra rb =>
    refine finish_move (fun s hs => withCommand_busy hs _) fun w hw => ?_
    obtain ⟨P, hP, hw⟩ := bind_ok hw
    obtain ⟨V, hV, hw⟩ := bind_ok hw
    cases hw
    obtain ⟨hp, -, hPr⟩ := checkedPoint_ok hP
    exact commitOk_toPoint rfl rfl fun hm => firstMul_inRange (next := none) hm (by simp [mulOperands, hP]) hp hPr hV
  | pubkey rd ra =>
    refine finish_move (fun s hs => withCommand_busy hs _) fun w hw => ?_
    obtain ⟨G, hG, hw⟩ := bind_ok hw
    obtain ⟨V, hV, hw⟩ := bind_ok hw
    cases hw
    obtain ⟨hp, -, hGr⟩ := pubkeyChecks_ok hG
    exact commitOk_toPoint rfl rfl fun hm => firstMul_inRange (next := none) hm (by simp [mulOperands, hG]) hp hGr hV
  | keygen rd => exact keygen_move rd p run
  | sign rd ra rb rc => exact sign_move rd ra rb rc p run
  | verify rd ra rb rc =>
    refine finish_move (fun s hs => withCommand_busy hs _) fun w hw => ?_
    obtain ⟨o, -, hw⟩ := bind_ok hw
    obtain ⟨v, -, hw⟩ := bind_ok hw
    cases hw
    exact commitOk_flag rfl rfl

/-- What a meaning answers is its move. -/
theorem exec_next_move {i : Instr} {s t : State} (h : exec i s = .next t) :
    ∃ run m, s.engine = .busy run ∧ Move.Ok i s.params run m ∧ Makes i s.params run m ∧ t = m.apply run s := by
  obtain ⟨run, hr, -⟩ := exec_way h
  obtain ⟨m, hok, hm⟩ := exec_move i s.params run
  refine ⟨run, m, hr, hok, hm, ?_⟩
  rw [hm s hr rfl] at h
  cases h
  rfl

end Sys2Proof.Proofs
end

section
/-! PROOFS. The invariant: each operation on the state keeps it, so every event does and every step does. -/

namespace Sys2Proof.Proofs

open Sys2Proof Sys2Proof.Machine Sys2Proof.Laws Sys2Proof.Config

/-! ### The registers (10_state.md R17, R21, R22) -/

theorem fits_iff_readBig_lt (s : State) : s.Fits ↔ ∀ b, s.readBig b < 2 ^ s.params.width := by
  constructor
  · rintro ⟨hr, hpt, hp, hn, ha, hb, hgx, hgy, hkin⟩ b
    cases b with
    | scalar i => exact hr i
    | ptX i => exact (hpt i).1
    | ptY i => exact (hpt i).2
    | _ => assumption
  · intro h
    exact ⟨fun i => h (.scalar i), fun i => ⟨h (.ptX i), h (.ptY i)⟩,
      h .pMod, h .nOrd, h .curveA, h .curveB, h .gx, h .gy, h .kIn⟩

theorem fits_writeBig {s : State} {b : BigReg} {v : Nat} (h : s.Fits) (hv : v < 2 ^ s.params.width) : (s.writeBig b v).Fits := by
  rw [fits_iff_readBig_lt] at *
  intro b'
  rw [readBig_writeBig, State.writeBig_params]
  split
  · exact hv
  · exact h b'

/-- A point register the block writes from a point in range has both coordinates below the modulus. -/
theorem ofPoint_lt {P : Point} {p bound : Nat} (hP : P.inRange p = true) (hp : p < bound) :
    (PointReg.ofPoint P).x < bound ∧ (PointReg.ofPoint P).y < bound := by
  cases P with
  | identity =>
    have hpos : 0 < bound := by omega
    exact ⟨hpos, hpos⟩
  | coord x y =>
    simp only [Point.inRange, Bool.and_eq_true, decide_eq_true_eq] at hP
    exact ⟨hP.1.trans hp, hP.2.trans hp⟩

theorem writePoint_lt {pt : Vector PointReg 16} {o : Option (RegIdx × Point)} {p bound : Nat} (hp : p < bound)
    (hpt : ∀ i : RegIdx, pt[i].x < bound ∧ pt[i].y < bound) (ho : ∀ x, o = some x → x.2.inRange p = true) (i : RegIdx) :
    (writePoint pt o)[i].x < bound ∧ (writePoint pt o)[i].y < bound := by
  cases o with
  | none => exact hpt i
  | some x =>
    by_cases hi : x.1 = i
    · subst hi
      simpa [writePoint] using ofPoint_lt (ho x rfl) hp
    · rw [writePoint_of_ne i pt (some x) (by rintro _ ⟨⟩; exact hi)]
      exact hpt i

/-! ### The operations -/

/-- The model's own bookkeeping is no part of the invariant. -/
theorem inv_bookkeeping {s : State} (h : s.Inv) (response : Option Response) (schedule : List Event) (freeCount rngRequests : Nat) :
    ({ s with response := response, schedule := schedule, freeCount := freeCount, rngRequests := rngRequests } : State).Inv where
  params := h.params
  fits := h.fits
  errcode := h.errcode
  running := fun run hr => { h.running run hr with }

/-- An IDLE engine needs only its registers and ERRCODE in order. -/
theorem inv_of_idle {s : State} (hp : s.params.wf = true) (hf : s.Fits) (he : s.status.err = s.status.errcode.isSome)
    (hi : s.engine = .idle) : s.Inv :=
  ⟨hp, hf, he, fun run hr => by rw [hi] at hr; cases hr⟩

theorem inv_resetOf {p : Params} (hp : p.wf = true) : (State.resetOf p).Inv := by
  refine inv_of_idle hp ((fits_iff_readBig_lt _).mpr fun b => ?_) rfl rfl
  cases b <;> simp [State.readBig, State.resetOf]

theorem inv_resetBlock {s : State} (h : s.Inv) : s.resetBlock.Inv := inv_bookkeeping (inv_resetOf h.params) _ _ _ _

theorem inv_raise {s : State} (h : s.Inv) (e : CmdError) (n : Option Nat) : (s.raise e n).Inv :=
  inv_of_idle h.params h.fits rfl rfl

theorem inv_commit {s : State} {w : Commit} (h : s.Inv) (hs : ∀ x ∈ w.scalars, x.2 < 2 ^ s.params.width)
    (hp : ∀ x, w.point = some x → x.2.inRange s.cfg.p = true) : (s.commit w).Inv := by
  obtain ⟨hr, hpt, hcfg⟩ := h.fits
  refine inv_of_idle h.params ⟨writeScalars_bound _ _ hs hr, ?_, hcfg⟩ h.errcode rfl
  exact writePoint_lt hcfg.1 hpt hp

theorem inv_dropWrite {s : State} (h : s.Inv) : s.dropWrite.Inv where
  params := h.params
  fits := h.fits
  errcode := h.errcode
  running := fun run hr => { h.running run hr with }

theorem inv_acknowledge {s : State} (h : s.Inv) (v : Word) : (s.acknowledge v).Inv where
  params := h.params
  fits := h.fits
  errcode := by
    simp only [State.acknowledge_status, Status.onWrite_err, Status.onWrite_errcode, h.errcode]
    cases v.getLsbD 2 <;> simp
  running := fun run hr => { h.running run hr with
    quiet := by
      obtain ⟨hdone, herr, hresult, hattempts⟩ := (h.running run hr).quiet
      simp [hdone, herr, hresult, hattempts] }

/-- CTRL is in the snapshot only with NONCE_SRC, which may change under a running command (10_state.md R33). -/
theorem inv_ctrl {s : State} (h : s.Inv) (c : Ctrl) : ({ s with ctrl := c } : State).Inv where
  params := h.params
  fits := h.fits
  errcode := h.errcode
  running := fun run hr => { h.running run hr with }

/-- A write to an operand or configuration register: the write is dropped while BUSY, so only an IDLE engine's registers change. -/
theorem inv_unlessBusy {s t : State} (h : s.Inv) (hp : t.params = s.params) (hst : t.status = s.status) (he : t.engine = s.engine)
    (hf : t.Fits) : (s.unlessBusy t).Inv := by
  cases hb : s.busy with
  | true => rw [State.unlessBusy_busy _ _ hb]; exact inv_dropWrite h
  | false =>
    rw [State.unlessBusy_idle _ _ hb]
    exact inv_of_idle (hp ▸ h.params) hf (hst ▸ h.errcode) (he.trans ((State.not_busy_iff s).mp hb))

theorem inv_offerCommand {s : State} (h : s.Inv) (c : Word) : (s.offerCommand c).Inv := by
  rcases offerCommand_cases s c with ⟨-, ho⟩ | ⟨-, he, ho⟩ <;> rw [ho]
  · exact inv_dropWrite h
  · exact inv_accept c h he

theorem width_eq_of_wf {p : Params} (h : p.wf = true) : p.width = 32 * p.nw := by
  simp only [Params.wf, Bool.and_eq_true, beq_iff_eq] at h
  have := h.1.1.1.1.1
  unfold Params.nw
  omega

theorem inv_writeTarget {s : State} (h : s.Inv) (t : Target) (v : Word) : (s.writeTarget t v).Inv := by
  cases t with
  | id | param | lastcmd | reserved => exact h
  | ctrl => exact inv_ctrl h _
  | status => exact inv_acknowledge h v
  | cmd => exact inv_offerCommand h v
  | genInf => exact inv_unlessBusy h rfl rfl rfl h.fits
  | big b j =>
    simp only [State.writeTarget]
    split
    · have hv := setWordSlice_lt v (width_eq_of_wf h.params) ‹_› ((fits_iff_readBig_lt s).mp h.fits b)
      exact inv_unlessBusy h (by simp) (by simp) (by simp) (fits_writeBig h.fits hv)
    · exact h
  | ptInf i =>
    obtain ⟨hr, hpt, hcfg⟩ := h.fits
    refine inv_unlessBusy h rfl rfl rfl ⟨hr, fun k => ?_, hcfg⟩
    simp only [Fin.getElem_fin, Vector.getElem_set]
    split
    · exact hpt i
    · exact hpt k

/-! ### The events -/

theorem inv_busAt {s : State} (h : s.Inv) (off : Nat) (txn : BusTxn) : (s.busAt off txn).Inv := by
  cases txn with
  | read addr width =>
    simp only [State.busAt]
    split <;> exact inv_bookkeeping h _ _ _ _
  | write addr enables v =>
    simp only [State.busAt]
    split
    · exact inv_bookkeeping (inv_writeTarget h _ v) _ _ _ _
    · exact inv_bookkeeping h _ _ _ _

theorem inv_busTxn {s t : State} {txn : BusTxn} (h : s.Inv) (ht : s.busTxn txn = .next t) : t.Inv := by
  unfold State.busTxn at ht
  split at ht <;> cases ht
  exact inv_busAt h _ _

theorem inv_engineWork {s : State} (h : s.Inv) : s.engineWork.Inv := by
  rcases engineWork_cases s with hw | ⟨run, i, hr, hd, hw⟩ <;> rw [hw]
  · exact h
  · have k := h.running run hr
    refine ⟨h.params, h.fits, h.errcode, ?_⟩
    rintro _ ⟨⟩
    exact {
      lastcmd := by simpa using k.lastcmd
      snapshot := by rw [advance_snap]; exact k.snapshot
      quiet := k.quiet
      illegal := fun e he => by simp [hd] at he
      nonce := by simpa using k.nonce
      answer := by simpa using k.answer
      rejected := by simpa using k.rejected
      mul := fun j hj => by
        rw [advance_word, hd] at hj
        cases hj
        exact mulFaithful_advance (k.mul i hd) }

/-- A command that waits for its nonce has nothing to multiply by. -/
theorem mulOperands_of_wait {i : Instr} {run : Running} (hi : drawsNonce i = true) (hd : run.draw = .wait) :
    mulOperands i run = none := by
  cases i with
  | keygen rd | sign rd ra rb rc => cases hc : run.snap.nonceCommandChecks <;> simp [mulOperands, hc, hd]
  | _ => cases hi

/-- While a request is in flight no multiplication is begun. -/
theorem mul_notBegun_of_requested {s : State} {run : Running} {i : Instr} (k : RunningOk s run) (hd : decode run.word = .ok i)
    (hq : run.progress.nonce = .requested) : run.progress.mul = .notBegun := by
  obtain ⟨hi, hsrc, -⟩ := k.nonce i hd (by simp [hq])
  have hdraw : run.draw = .wait := by simp [Running.draw, hsrc, hq]
  have hm := k.mul i hd
  unfold MulFaithful at hm
  simpa only [mulOperands_of_wait hi hdraw] using hm

theorem inv_rngAnswer {s t : State} {m k : Nat} (h : s.Inv) (ht : s.rngAnswer m k = .next t) : t.Inv := by
  rcases rngAnswer_next ht with rfl | ⟨run, hr, hq, -, hk1, hkn, rfl⟩
  · exact h
  · have hk := h.running run hr
    have hmul : ∀ i, decode run.word = .ok i → run.progress.mul = .notBegun := fun i hd => mul_notBegun_of_requested hk hd hq
    refine ⟨h.params, h.fits, h.errcode, ?_⟩
    rintro _ ⟨⟩
    exact { hk with
      illegal := fun e he => by simp [hk.illegal e he, Progress.start] at hq
      nonce := fun i hd _ => hk.nonce i hd (by simp [hq])
      answer := by rintro _ ⟨⟩; exact ⟨hk1, hkn⟩
      mul := fun i hd => mulFaithful_notBegun i (hmul i hd) }

theorem inv_requestNonce {s : State} {run : Running} {i : Instr} {n : Nat} (h : s.Inv) (hr : s.engine = .busy run)
    (hd : decode run.word = .ok i) (hok : (Move.request n).Ok i s.params run) : (s.requestNonce run n).Inv := by
  obtain ⟨hdraws, hsrc, hchecks, hbudget⟩ := hok
  have k := h.running run hr
  refine ⟨h.params, h.fits, h.errcode, ?_⟩
  rintro _ ⟨⟩
  exact { k with
    illegal := fun e he => by simp [hd] at he
    nonce := fun j hj _ => by cases hd.symm.trans hj; exact ⟨hdraws, hsrc, hchecks⟩
    answer := by simp
    rejected := hbudget k.rejected
    mul := fun j _ => mulFaithful_notBegun j rfl }

theorem inv_exec {s t : State} {run : Running} {i : Instr} (h : s.Inv) (hr : s.engine = .busy run) (hd : decode run.word = .ok i)
    (ht : exec i s = .next t) : t.Inv := by
  obtain ⟨run', m, hr', hok, -, rfl⟩ := exec_next_move ht
  cases hr.symm.trans hr'
  have k := h.running run hr
  obtain ⟨-, -, hp, hn, -⟩ := h.fits
  have hsp : run.snap.p = s.cfg.p := congrArg Snapshot.p k.snapshot
  have hsn : run.snap.n = s.cfg.n := congrArg Snapshot.n k.snapshot
  cases m with
  | commit w =>
    refine inv_commit h (fun x hx => ?_) (hsp ▸ hok.pointInRange (k.mul i hd))
    have hx := hok.scalarsReduced (fun d hans => (k.answer d hans).2) x hx
    rw [hsp, hsn] at hx
    exact hx.trans (max_lt hp hn)
  | raise e n => exact inv_raise h e n
  | request n => exact inv_requestNonce h hr hd hok
  | wait => exact h

theorem inv_engineRun {s t : State} (h : s.Inv) (ht : s.engineRun = .next t) : t.Inv := by
  rcases engineRun_cases s with ⟨-, hw⟩ | ⟨run, e, -, -, hw⟩ | ⟨run, i, hr, hd, hw⟩ <;> rw [hw] at ht
  · cases ht; exact h
  · cases ht; exact inv_raise h _ _
  · exact inv_exec h hr hd ht

theorem resetOverlapped_next {s t : State} {txn : BusTxn} (h : s.resetOverlapped txn = .next t) :
    t = { s.resetBlock with response := some (overlapResponse s.freeCount txn), freeCount := s.freeCount + 1 } := by
  unfold State.resetOverlapped at h
  split at h <;> cases h
  rfl

theorem inv_perform {s t : State} {e : Event} (h : s.Inv) (ht : s.perform e = .next t) : t.Inv := by
  cases e with
  | host txn => exact inv_busTxn h ht
  | work => cases ht; exact inv_engineWork h
  | run => exact inv_engineRun h ht
  | rng m k => exact inv_rngAnswer h ht
  | reset => cases ht; exact inv_resetBlock h
  | resetDuring txn =>
    rw [resetOverlapped_next ht]
    exact inv_bookkeeping (inv_resetBlock h) _ _ _ _

/-! ### The obligations -/

/-- Settles O60: a step is one event, and each keeps the invariant. -/
theorem stepKeepsInvariant : Obligations.StepKeepsInvariant := by
  intro s t h ht
  rcases step_cases s with ⟨-, hs⟩ | ⟨e, rest, -, hs⟩ <;> rw [hs] at ht
  · exact inv_engineRun h ht
  · exact inv_perform (inv_bookkeeping h s.response rest s.freeCount s.rngRequests) ht

/-- Settles O59: every register is 0 and the engine is IDLE. -/
theorem resetHasInvariant : Obligations.ResetHasInvariant := ⟨fun _ hp => inv_resetOf hp, inv_resetOf (by decide)⟩

end Sys2Proof.Proofs
end

section
/-! PROOFS. The command cycle and the window as the host sees them: acceptance, STATUS, LASTCMD, writes while BUSY, the dispatch of a step. -/

namespace Sys2Proof.Proofs

open Sys2Proof Sys2Proof.Machine Sys2Proof.Laws Sys2Proof.Config

/-! ### Acceptance and STATUS writes (10_state.md R28, R33) -/

/-- At offset 0x010 stands CMD (20_memory.md R46). -/
theorem busTxn_write_cmd (s : State) (c : Word) :
    s.busTxn (.write (s.params.base + 0x010) 0xF c) = .next { s.offerCommand c with response := some .okayWrite } :=
  busTxn_write s c (by decide) (by decide)

/-- Settles O34: the offered word is dropped or accepted. -/
theorem acceptanceOfCommands : Obligations.AcceptanceOfCommands := by
  intro s c
  rw [busTxn_write_cmd]
  rcases offerCommand_cases s c with ⟨hdrop, ho⟩ | ⟨hb, he, ho⟩ <;> rw [ho]
  · exact ⟨fun _ => rfl, fun hb he => by simp [hb, he] at hdrop⟩
  · exact ⟨fun hdrop => by simp [hb, he] at hdrop, fun _ _ => rfl⟩

/-- The STATUS write in R28's own words. -/
theorem onWrite_eq_clears (st : Status) (v : Word) : st.onWrite v = { st with
    done := if v.getLsbD 1 then false else st.done
    err := if v.getLsbD 2 then false else st.err
    errcode := if v.getLsbD 2 then none else st.errcode
    wdrop := if v.getLsbD 4 then false else st.wdrop } := by
  simp only [Status.onWrite]
  cases v.getLsbD 1 <;> cases v.getLsbD 2 <;> cases v.getLsbD 4 <;> simp

/-- Settles O37: at offset 0x00C stands STATUS, whose write is `acknowledge` in every state. -/
theorem statusWriteClears : Obligations.StatusWriteClears := by
  intro s v
  rw [busTxn_write s (off := 0x00C) v (by decide) (by decide), ← onWrite_eq_clears]
  rfl

/-! ### The STATUS word (10_state.md R27) -/

theorem bitAt_eq (b : Bool) (pos : Nat) : bitAt b pos = (if b then 1 else 0) * 2 ^ pos := by
  cases b <;> simp [bitAt]

theorem errcodeNat_lt (st : Status) : st.errcodeNat < 2 ^ 4 := by
  unfold Status.errcodeNat
  split
  · decide
  · rename_i e _
    cases e <;> decide

/-- Settles O38: the fields of the word do not overlap. -/
theorem statusWordFields : Obligations.StatusWordFields := by
  intro s
  have hbit : ∀ b : Bool, (if b then 1 else 0) < 2 := fun b => by cases b <;> decide
  have hbusy := hbit s.busy
  have hdone := hbit s.status.done
  have herr := hbit s.status.err
  have hresult := hbit s.status.result
  have hwdrop := hbit s.status.wdrop
  have hcode := errcodeNat_lt s.status
  have hattempts := s.status.attempts.isLt
  refine ⟨rfl, ?_⟩
  show _ ∧ _ ∧ _ ∧ _ ∧ _ ∧ _ ∧ _ = s.status.errcodeNat ∧ _ ∧ _
  simp only [State.statusWord, bitsOf, BitVec.toNat_ofNat, bitAt_eq]
  omega

/-! ### Writes while BUSY (10_state.md R37) -/

/-- Settles O41, target by target. -/
theorem busyDropsOperandWrites : Obligations.BusyDropsOperandWrites := by
  intro s off v hb h4 hoff
  refine ⟨?_, busTxn_read s hoff h4⟩
  rw [busTxn_write s v hoff h4]
  cases targetOf off with
  | id | param | ctrl | status | lastcmd | reserved => rfl
  | cmd => simp [State.writeTarget, State.offerCommand, hb, State.dropWrite, Status.onDrop]
  | genInf | ptInf i => simp [State.writeTarget, hb, State.dropWrite, Status.onDrop]
  | big b j =>
    by_cases hj : j < s.params.nw
    · simp [State.writeTarget, hb, hj, State.dropWrite, Status.onDrop]
    · simp [State.writeTarget, hj]

/-! ### LASTCMD (10_state.md R30) -/

/-- CMD stands at one offset of the window alone (20_memory.md R46). -/
theorem targetOf_eq_cmd {off : Nat} (h : targetOf off = .cmd) : off = 0x010 := by
  unfold targetOf at h
  split at h
  · unfold controlTarget at h
    split at h <;> cases h
    rfl
  · simp only [configTarget, pointTarget] at h
    split_ifs at h
    split at h <;> cases h

theorem engineRun_lastcmd {s t : State} (h : s.engineRun = .next t) : t.lastcmd = s.lastcmd := by
  rcases engineRun_cases s with ⟨-, hw⟩ | ⟨run, e, -, -, hw⟩ | ⟨run, i, -, -, hw⟩ <;> rw [hw] at h
  · cases h; rfl
  · cases h; rfl
  · obtain ⟨run, -, hway⟩ := exec_way h
    cases hway <;> rfl

/-- A transaction that changes LASTCMD is an accepted write of CMD. -/
theorem busAt_lastcmd {s : State} {off : Nat} {txn : BusTxn} (hne : (s.busAt off txn).lastcmd ≠ s.lastcmd) :
    ∃ addr c, txn = .write addr 0xF c ∧ off = 0x010 ∧ s.busy = false ∧ s.status.err = false ∧ (s.busAt off txn).lastcmd = c := by
  cases txn with
  | read addr width => exact absurd (by simp only [State.busAt]; split <;> rfl) hne
  | write addr enables v =>
    by_cases hacc : off % 4 = 0 ∧ enables = 0xF
    · simp only [State.busAt, if_pos hacc] at hne ⊢
      have hcmd : targetOf off = .cmd := by
        by_contra hc
        obtain ⟨-, -, -, hkeep, -⟩ := writeTarget_keeps s (targetOf off) v
        exact hne (hkeep hc).2
      rw [hcmd, State.writeTarget] at hne ⊢
      rcases offerCommand_cases s v with ⟨-, ho⟩ | ⟨hb, he, ho⟩ <;> rw [ho] at hne ⊢
      · exact absurd rfl hne
      · exact ⟨addr, v, by rw [hacc.2], targetOf_eq_cmd hcmd, hb, he, rfl⟩
    · exact absurd (by simp only [State.busAt, if_neg hacc]) hne

theorem windowOffset_some {p : Params} {addr off : Nat} (h : windowOffset p addr = some off) : addr = p.base + off := by
  unfold windowOffset at h
  split at h <;> cases h
  omega

theorem busTxn_lastcmd {s t : State} {txn : BusTxn} (h : s.busTxn txn = .next t) (hne : t.lastcmd ≠ s.lastcmd) :
    ∃ c, txn = .write (s.params.base + 0x010) 0xF c ∧ s.busy = false ∧ s.status.err = false ∧ t.lastcmd = c := by
  unfold State.busTxn at h
  split at h <;> cases h
  rename_i off hoff
  obtain ⟨addr, c, rfl, rfl, hb, he, hc⟩ := busAt_lastcmd hne
  exact ⟨c, by rw [← windowOffset_some hoff, BusTxn.addr], hb, he, hc⟩

/-- Settles O40: only a CMD write's acceptance and a reset touch LASTCMD. -/
theorem lastcmdIsTheLastAcceptedWord : Obligations.LastcmdIsTheLastAcceptedWord := by
  refine ⟨fun _ => rfl, rfl, fun s t ht hne => ?_⟩
  rcases step_cases s with ⟨-, hs⟩ | ⟨e, rest, he, hs⟩ <;> rw [hs] at ht
  · exact absurd (engineRun_lastcmd ht) hne
  · cases e with
    | host txn =>
      obtain ⟨c, rfl, hb, herr, hc⟩ := busTxn_lastcmd ht hne
      exact Or.inl ⟨c, rest, he, hb, herr, hc⟩
    | work => cases ht; exact absurd (by simp) hne
    | run => exact absurd (engineRun_lastcmd ht) hne
    | rng m k =>
      rcases rngAnswer_next ht with rfl | ⟨run, -, -, -, -, -, rfl⟩ <;> exact absurd rfl hne
    | reset => cases ht; exact Or.inr (Or.inl ⟨rest, he, rfl⟩)
    | resetDuring txn =>
      cases resetOverlapped_next ht
      exact Or.inr (Or.inr ⟨txn, rest, he, rfl⟩)

/-! ### The dispatch of a step (10_state.md R32, R35) -/

theorem step_nil {s : State} (h : s.schedule = []) : step s = s.engineRun := by
  simp only [step, h]

theorem step_cons {s : State} {e : Event} {rest : List Event} (h : s.schedule = e :: rest) :
    step s = { s with schedule := rest }.perform e := by
  simp only [step, h]

theorem engineRun_of_decode {s : State} {run : Running} {i : Instr} (hr : s.engine = .busy run) (hd : decode run.word = .ok i) :
    s.engineRun = exec i s := by
  simp only [State.engineRun, hr, hd]

theorem engineRun_of_idle {s : State} (h : s.engine = .idle) : s.engineRun = .next s := by
  simp only [State.engineRun, h]

/-- The byte lanes put a 32-bit table word together again (20_memory.md R51). -/
theorem tableWord_eq_ofNat {w : Nat} (h : w < 2 ^ 32) : tableWord 32 w = BitVec.ofNat 32 w := by
  simp only [tableWord, wordOfLanes, BitVec.toNat_ofNat]
  congr 1
  omega

/-- Settles O51: each clause is one branch of `step`, `perform` or `engineRun`; `withFetchWord` schedules `run` on the accepted word. -/
theorem stepRunsTheDecodedCommand : Obligations.StepRunsTheDecodedCommand := by
  refine ⟨fun s h => step_nil h, fun s e rest h => step_cons h,
    fun s => ⟨fun _ => rfl, rfl, rfl, fun _ _ => rfl, rfl, fun _ => rfl⟩, ?_, ?_, ?_⟩
  · intro s run i rest hr hd h
    exact (step_cons h).trans (engineRun_of_decode hr hd)
  · intro s rest hi h
    exact (step_cons h).trans (engineRun_of_idle hi)
  · intro s w i hw hd
    have hstep : step (s.withFetchWord 32 w) = (s.accept (tableWord 32 w)).engineRun := rfl
    rw [hstep, tableWord_eq_ofNat hw]
    exact engineRun_of_decode (State.accept_engine s _) hd

end Sys2Proof.Proofs
end

section
/-! PROOFS. What a command's end depends on: nothing before configuration, its snapshot and nonces, and not the accumulators' progress. -/

namespace Sys2Proof.Proofs

open Sys2Proof Sys2Proof.Machine Sys2Proof.Laws Sys2Proof.Config

/-! ### A bind on a value known -/

theorem ok_bind {α β : Type} (a : α) (f : α → Except CmdError β) : (Except.ok a >>= f) = f a := rfl

theorem error_bind {α β : Type} (e : CmdError) (f : α → Except CmdError β) : (Except.error e >>= f) = .error e := rfl

/-! ### The reset state (10_state.md R39) -/

theorem paramWord_eq {p : Params} (hw : p.width < 2 ^ 16) (hm : p.maxSignAttempts < 2 ^ 16) :
    paramWord p = BitVec.ofNat 32 (p.maxSignAttempts * 2 ^ 16 + p.width) := by
  rw [paramWord, Nat.mod_eq_of_lt hw, Nat.mod_eq_of_lt hm]

/-- With both moduli 0 every meaning's first check fails (40_field.md R79, 41_curve.md R93, 42_ecdsa.md R104). -/
theorem exec_unconfigured {s : State} {run : Running} (hr : s.engine = .busy run) (hp : run.snap.p = 0) (hn : run.snap.n = 0)
    (i : Instr) : ∃ n, exec i s = .next (s.raise .badModulus n) := by
  have hcheck : run.snap.checkP = .error .badModulus := if_pos hp
  have hmod : ∀ sel, run.snap.checkedModulus sel = .error .badModulus := fun sel => if_pos (by cases sel <;> assumption)
  have hpoint : ∀ ra, run.snap.checkedPoint ra = .error .badModulus := fun ra => by simp only [Snapshot.checkedPoint, hcheck, error_bind]
  have hpubkey : run.snap.pubkeyChecks = .error .badModulus := by simp only [Snapshot.pubkeyChecks, hcheck, error_bind]
  have hnonce : run.snap.nonceCommandChecks = .error .badModulus := by simp only [Snapshot.nonceCommandChecks, hcheck, error_bind]
  have hverify : ∀ rd ra rb rc, verifyStart rd ra rb rc run.snap = .error .badModulus := fun rd ra rb rc => by
    simp only [verifyStart, hcheck, error_bind]
  have hfield : ∀ sel rd value, fieldCommand sel rd value s = .next (s.raise .badModulus none) := fun sel rd value => by
    simp only [fieldCommand, withCommand_busy hr, hmod, error_bind, finish_error]
  cases i with
  | faddP | fsubP | fmulP | finvP | fdivP => exact ⟨none, hfield .p _ _⟩
  | faddN | fsubN | fmulN | finvN | fdivN => exact ⟨none, hfield .n _ _⟩
  | oncurve => exact ⟨none, by simp only [exec, execOncurve, withCommand_busy hr, hpoint, error_bind, finish_error]⟩
  | padd => exact ⟨none, by simp only [exec, execPadd, withCommand_busy hr, hpoint, error_bind, finish_error]⟩
  | pdbl => exact ⟨none, by simp only [exec, execPdbl, withCommand_busy hr, hpoint, error_bind, finish_error]⟩
  | pmul => exact ⟨none, by simp only [exec, execPmul, withCommand_busy hr, hpoint, error_bind, finish_error]⟩
  | pubkey => exact ⟨none, by simp only [exec, execPubkey, withCommand_busy hr, hpubkey, error_bind, finish_error]⟩
  | keygen => exact ⟨none, by simp only [exec, execKeygen, withCommand_busy hr, hnonce]⟩
  | sign => exact ⟨some 0, by simp only [exec, execSign, withCommand_busy hr, hnonce]⟩
  | verify => exact ⟨none, by simp only [exec, execVerify, withCommand_busy hr, hverify, error_bind, finish_error]⟩

theorem statusWord_resetOf (p : Params) : (State.resetOf p).statusWord = 0 := by
  simp [State.statusWord, State.resetOf, State.busy, bitAt, Status.errcodeNat]

/-- Settles O48: the reset values are read off, and an accepted word finds its modulus 0. -/
theorem resetState : Obligations.ResetState := by
  refine ⟨fun p => ⟨fun i => by simp [State.resetOf], rfl, rfl, paramWord_eq, rfl, statusWord_resetOf p, rfl, rfl, rfl, rfl⟩,
    fun s c hp hn => ?_⟩
  rcases engineRun_cases (s.accept c) with ⟨hi, -⟩ | ⟨run, e, -, -, hw⟩ | ⟨run, i, hr, -, hw⟩
  · cases hi
  · exact ⟨.illegalCmd, none, hw, Or.inr rfl⟩
  · cases hr
    obtain ⟨n, hn⟩ := exec_unconfigured (State.accept_engine s c) hp hn i
    exact ⟨.badModulus, n, hw.trans hn, Or.inl rfl⟩

/-! ### The snapshot decides (10_state.md R34) -/

/-- A written scalar register holds the same whatever the file held. -/
theorem writeScalars_congr {j : RegIdx} : ∀ (l : List (RegIdx × Nat)) (r r' : Vector Nat 16),
    r[j] = r'[j] ∨ j ∈ l.map Prod.fst → (writeScalars r l)[j] = (writeScalars r' l)[j] := by
  intro l
  induction l with
  | nil => intro r r' h; simpa [writeScalars] using h
  | cons x rest ih =>
    intro r r' h
    refine ih _ _ ?_
    by_cases hx : x.1 = j
    · subst hx; exact Or.inl (by simp)
    · have hne : x.1.val ≠ j.val := fun hc => hx (Fin.ext hc)
      simpa [Vector.getElem_set_ne _ _ hne, Ne.symm hx] using h

theorem writePoint_congr {j : RegIdx} {o : Option (RegIdx × Point)} (pt pt' : Vector PointReg 16)
    (h : j ∈ (o.map Prod.fst).toList) : (writePoint pt o)[j] = (writePoint pt' o)[j] := by
  cases o with
  | none => cases h
  | some x =>
    obtain rfl : j = x.1 := by simpa using h
    simp [writePoint]

/-- Settles O54: both states make the same move, and a commit writes every destination. -/
theorem outcomeDependsOnTheSnapshotOnly : Obligations.OutcomeDependsOnTheSnapshotOnly := by
  intro i s s' t he hp herr herr' hcode hresult hattempts ht
  obtain ⟨run, m, hr, hok, hm, rfl⟩ := exec_next_move ht
  refine ⟨m.apply run s', hm s' (he.trans hr) hp, ?_⟩
  cases m with
  | commit w =>
    refine ⟨rfl, herr'.trans herr.symm, hcode, by simp [Move.apply, hresult], by simp [Move.apply, hattempts], fun _ _ => ⟨?_, ?_⟩⟩
    · exact fun j hj => writeScalars_congr _ _ _ (Or.inr (hok.scalars ▸ hj))
    · exact fun j hj => writePoint_congr _ _ (hok.point ▸ hj)
  | raise e n =>
    exact ⟨rfl, rfl, rfl, hresult, by simp [Move.apply, hattempts], fun _ h => by simp [Move.apply] at h⟩
  | request n => exact ⟨rfl, herr'.trans herr.symm, hcode, hresult, hattempts, fun h => by cases h⟩
  | wait =>
    refine ⟨he, herr'.trans herr.symm, hcode, hresult, hattempts, fun h => ?_⟩
    rw [Move.apply, State.not_busy_iff, hr] at h
    cases h

/-! ### Internal iterations (10_state.md R36) -/

theorem engineWork_busy (s : State) : s.engineWork.busy = s.busy := by
  rcases engineWork_cases s with hw | ⟨run, i, hr, -, hw⟩ <;> rw [hw]
  simp [State.busy, hr]

theorem engineWork_readBig (s : State) (b : BigReg) : s.engineWork.readBig b = s.readBig b := by
  cases b <;> simp [State.readBig]

theorem engineWork_readWord (s : State) (off : Nat) : s.engineWork.readWord off = s.readWord off := by
  unfold State.readWord
  cases targetOf off <;> simp [State.readTarget, State.statusWord, engineWork_busy, engineWork_readBig]

theorem engineWork_rngRequest (s : State) : s.engineWork.rngRequest = s.rngRequest := by
  rcases engineWork_cases s with hw | ⟨run, i, hr, -, hw⟩ <;> rw [hw]
  simp [State.rngRequest, hr]

/-- A command's end replaces the engine, so it does not depend on the engine it ends. -/
theorem finish_engine (s : State) (eng : Engine) (o : Except CmdError Commit) :
    ({ s with engine := eng } : State).finish o = s.finish o := by
  cases o <;> rfl

section

variable {s : State} {run : Running} {i : Instr}

@[simp] theorem advance_draw (run : Running) (i : Instr) : (run.advance i).draw = run.draw := by
  simp [Running.draw]

theorem advance_of_none (h : mulOperands i run = none) : run.advance i = run := by
  simp [Running.advance, h]

/-- An iteration does not change what the command's first multiplication ends with. -/
theorem firstMul_advance {P : Point} {k : Nat} {next : Option (Point × Nat)} (h : mulOperands i run = some ((P, k), next)) :
    firstMul run.snap.curve P k (run.advance i).progress.mul = firstMul run.snap.curve P k run.progress.mul := by
  simp only [Running.advance, h, firstMul_mulAdvance]

/-- Nor what its second ends with. -/
theorem secondMul_advance {P Q : Point} {k j : Nat} (h : mulOperands i run = some ((P, k), some (Q, j))) :
    secondMul run.snap.curve Q j (run.advance i).progress.mul = secondMul run.snap.curve Q j run.progress.mul := by
  simp only [Running.advance, h, secondMul_mulAdvance]

theorem signSettle_advance (rd rc : RegIdx) (s : State) (run : Running) (i : Instr) (o : Except CmdError (Option (Nat × Nat))) :
    signSettle rd rc { s with engine := .busy (run.advance i) } (run.advance i) o = signSettle rd rc s run o := by
  have hturn : signTurn (run.advance i) = signTurn run := by simp [signTurn]
  have hbudget : signBudget { s with engine := .busy (run.advance i) } (run.advance i) = signBudget s run := by simp [signBudget]
  have hrequest : ∀ n, State.requestNonce { s with engine := .busy (run.advance i) } (run.advance i) n = s.requestNonce run n :=
    fun n => by simp [State.requestNonce, State.withProgress]
  rcases o with e | _ | ⟨r, v⟩
  · simp only [signSettle, hturn]; rfl
  · simp only [signSettle, hturn, hbudget, hrequest]; rfl
  · simp only [signSettle, hturn]; rfl

/-- A meaning answers the same before and after an iteration: where the command multiplies at all, its products are the same. -/
theorem exec_advance (hr : s.engine = .busy run) : exec i { s with engine := .busy (run.advance i) } = exec i s := by
  have hw : ∀ f, State.withCommand { s with engine := .busy (run.advance i) } f = f (run.advance i) := withCommand_busy rfl
  rcases hops : mulOperands i run with _ | ⟨⟨P, k⟩, next⟩
  · rw [advance_of_none hops, ← hr]
  · have hfirst := firstMul_advance hops
    cases i with
    | pmul rd ra rb =>
      simp only [mulOperands] at hops
      split at hops <;> cases hops
      rename_i hP
      simp only [exec, execPmul, hw, withCommand_busy hr, finish_engine, advance_snap, hP, ok_bind, hfirst]
    | pubkey rd ra =>
      simp only [mulOperands] at hops
      split at hops <;> cases hops
      rename_i hG
      simp only [exec, execPubkey, hw, withCommand_busy hr, finish_engine, advance_snap, hG, ok_bind, hfirst]
    | keygen rd =>
      simp only [mulOperands] at hops
      split at hops <;> cases hops
      rename_i hG hd
      simp only [exec, execKeygen, hw, withCommand_busy hr, finish_engine, advance_snap, advance_draw, hG, hd, hfirst]
    | sign rd ra rb rc =>
      simp only [mulOperands] at hops
      split at hops <;> cases hops
      rename_i hG hd
      simp only [exec, execSign, hw, withCommand_busy hr, signSettle_advance, Running.signOutcome, advance_snap, advance_draw,
        hG, hd, hfirst]
    | verify rd ra rb rc =>
      obtain ⟨w, hstart, rfl, rfl, rfl⟩ : ∃ w, verifyStart rd ra rb rc run.snap = .ok (some w) ∧ P = w.gen ∧ k = w.u1 ∧
          next = some (w.key, w.u2) := by
        simp only [mulOperands] at hops
        split at hops <;> cases hops
        exact ⟨_, ‹_›, rfl, rfl, rfl⟩
      simp only [exec, execVerify, hw, withCommand_busy hr, finish_engine, advance_snap, hstart, ok_bind, verifyOutcome, hfirst,
        secondMul_advance hops]
    | _ => cases hops

theorem engineWork_engineRun (s : State) : s.engineWork.engineRun = s.engineRun := by
  rcases engineWork_cases s with hw | ⟨run, i, hr, hd, hw⟩ <;> rw [hw]
  rw [engineRun_of_decode (run := run.advance i) rfl (by rwa [advance_word]), engineRun_of_decode hr hd, exec_advance hr]

end

/-- Settles O55: the window does not show the accumulators, and the products come out the same. -/
theorem internalWorkIsInvisible : Obligations.InternalWorkIsInvisible := fun s =>
  ⟨engineWork_readWord s, by simp [State.irq], engineWork_rngRequest s, engineWork_engineRun s⟩

end Sys2Proof.Proofs
end

section
/-! PROOFS. The register window: the words of a big register, the map and its inverse, and what a write changes, leaves alone and does when repeated. -/

namespace Sys2Proof.Proofs

open Sys2Proof Sys2Proof.Machine Sys2Proof.Laws Sys2Proof.Config

/-! ### Words of big registers (20_memory.md R47) -/

theorem wordSlice_zero_toNat (v : Nat) : (wordSlice v 0).toNat = v % 2 ^ 32 := by
  simp [wordSlice]

theorem wordSlice_succ (v j : Nat) : wordSlice v (j + 1) = wordSlice (v / 2 ^ 32) j := by
  rw [wordSlice, wordSlice, Nat.div_div_eq_div_mul, ← Nat.pow_add, show 32 * (j + 1) = 32 + 32 * j by omega]

/-- The words of a value assemble to it. -/
theorem bigOfWords_wordSlices (nw : Nat) : ∀ v, v < 2 ^ (32 * nw) → bigOfWords ((List.range nw).map (wordSlice v)) = v := by
  induction nw with
  | zero =>
    intro v hv
    have hv0 : v = 0 := by simpa using hv
    rw [hv0]; rfl
  | succ nw ih =>
    intro v hv
    have hrest : v / 2 ^ 32 < 2 ^ (32 * nw) := Nat.div_lt_of_lt_mul (by rwa [← Nat.pow_add, Nat.add_comm])
    have htail : wordSlice v ∘ Nat.succ = wordSlice (v / 2 ^ 32) := funext fun j => wordSlice_succ v j
    rw [List.range_succ_eq_map, List.map_cons, List.map_map, htail, bigOfWords, ih _ hrest, wordSlice_zero_toNat]
    exact Nat.mod_add_div v (2 ^ 32)

/-- What replacing word j leaves below it, in it and above it. -/
theorem setWordSlice_parts (v j : Nat) (w : Word) :
    setWordSlice v j w % 2 ^ (32 * j) = v % 2 ^ (32 * j) ∧
    setWordSlice v j w / 2 ^ (32 * j) % 2 ^ 32 = w.toNat ∧
    setWordSlice v j w / 2 ^ (32 * j + 32) = v / 2 ^ (32 * j + 32) := by
  have hlow : v % 2 ^ (32 * j) < 2 ^ (32 * j) := Nat.mod_lt _ (by positivity)
  have hform : setWordSlice v j w = v % 2 ^ (32 * j) + 2 ^ (32 * j) * (w.toNat + 2 ^ 32 * (v / 2 ^ (32 * j + 32))) := by
    rw [setWordSlice, Nat.pow_add]; ring
  have hquot : setWordSlice v j w / 2 ^ (32 * j) = w.toNat + 2 ^ 32 * (v / 2 ^ (32 * j + 32)) := by
    rw [hform, Nat.add_mul_div_left _ _ (by positivity), Nat.div_eq_of_lt hlow, Nat.zero_add]
  refine ⟨?_, ?_, ?_⟩
  · rw [hform, Nat.add_mul_mod_self_left, Nat.mod_mod]
  · rw [hquot, Nat.add_mul_mod_self_left, Nat.mod_eq_of_lt w.isLt]
  · rw [Nat.pow_add, ← Nat.div_div_eq_div_mul, hquot, Nat.add_mul_div_left _ _ (by positivity), Nat.div_eq_of_lt w.isLt,
      Nat.zero_add, Nat.pow_add]

/-- Word i of a value is fixed by what lies below word j, where i < j, and by what lies above it, where j < i. -/
theorem wordSlice_setWordSlice (v i j : Nat) (w : Word) :
    wordSlice (setWordSlice v j w) i = if i = j then w else wordSlice v i := by
  obtain ⟨hbelow, hword, habove⟩ := setWordSlice_parts v j w
  apply BitVec.eq_of_toNat_eq
  rcases Nat.lt_trichotomy i j with hij | rfl | hij
  · rw [if_neg (by omega), wordSlice_toNat, wordSlice_toNat]
    have hcut : ∀ x : Nat, x / 2 ^ (32 * i) % 2 ^ 32 = x % 2 ^ (32 * j) / 2 ^ (32 * i) % 2 ^ 32 := fun x => by
      rw [show 32 * j = 32 * i + (32 * j - 32 * i) by omega, Nat.pow_add, Nat.mod_mul_right_div_self,
        Nat.mod_mod_of_dvd _ (Nat.pow_dvd_pow 2 (by omega))]
    rw [hcut, hbelow, ← hcut]
  · rw [if_pos rfl, wordSlice_toNat, hword]
  · rw [if_neg (by omega), wordSlice_toNat, wordSlice_toNat]
    have hcut : ∀ x : Nat, x / 2 ^ (32 * i) = x / 2 ^ (32 * j + 32) / 2 ^ (32 * i - (32 * j + 32)) := fun x => by
      rw [Nat.div_div_eq_div_mul, ← Nat.pow_add, show 32 * j + 32 + (32 * i - (32 * j + 32)) = 32 * i by omega]
    rw [hcut, habove, ← hcut]

theorem setWordSlice_setWordSlice (v j : Nat) (w : Word) : setWordSlice (setWordSlice v j w) j w = setWordSlice v j w := by
  obtain ⟨hbelow, -, habove⟩ := setWordSlice_parts v j w
  conv_lhs => rw [setWordSlice, hbelow, habove]
  rfl

/-! ### The register map (20_memory.md R46) -/

/-- Where a target of the window stands; reserved offsets have no place of their own. -/
def offsetOf : Target → Option Nat
  | .id => some 0x000
  | .param => some 0x004
  | .ctrl => some 0x008
  | .status => some 0x00C
  | .cmd => some 0x010
  | .lastcmd => some 0x014
  | .genInf => some 0x018
  | .big b j => some (b.slot + 4 * j)
  | .ptInf i => some (0x1000 + 0x200 * i.val + 0x100)
  | .reserved => none

theorem configTarget_cases (slot j : Nat) :
    configTarget slot j = .reserved ∨ ∃ b : BigReg, b.slot = 0xC00 + 0x80 * slot ∧ configTarget slot j = .big b j := by
  unfold configTarget
  split
  · exact Or.inr ⟨.pMod, rfl, rfl⟩
  · exact Or.inr ⟨.nOrd, rfl, rfl⟩
  · exact Or.inr ⟨.curveA, rfl, rfl⟩
  · exact Or.inr ⟨.curveB, rfl, rfl⟩
  · exact Or.inr ⟨.gx, rfl, rfl⟩
  · exact Or.inr ⟨.gy, rfl, rfl⟩
  · exact Or.inr ⟨.kIn, rfl, rfl⟩
  · exact Or.inl rfl

theorem offsetOf_controlTarget (off : Nat) : controlTarget off = .reserved ∨ offsetOf (controlTarget off) = some off := by
  unfold controlTarget
  split
  case h_8 => exact Or.inl rfl
  all_goals exact Or.inr rfl

theorem offsetOf_pointTarget (i : RegIdx) {o : Nat} (h4 : o % 4 = 0) :
    pointTarget i o = .reserved ∨ offsetOf (pointTarget i o) = some (0x1000 + 0x200 * i.val + o) := by
  unfold pointTarget
  split_ifs with hx hy hinf
  · exact Or.inr (congrArg some (by simp only [BigReg.slot]; omega))
  · exact Or.inr (congrArg some (by simp only [BigReg.slot]; omega))
  · exact Or.inr (congrArg some (by omega))
  · exact Or.inl rfl

/-- The map sends an aligned offset to the target that stands there. -/
theorem offsetOf_targetOf {off : Nat} (h4 : off % 4 = 0) (ht : targetOf off ≠ .reserved) : offsetOf (targetOf off) = some off := by
  refine Or.resolve_left ?_ ht
  have hidx : ∀ k : Nat, k < 16 → (Fin.ofNat 16 k).val = k := fun k hk => Nat.mod_eq_of_lt hk
  unfold targetOf
  split_ifs with hcontrol hscalar hconfig hpoint
  · exact offsetOf_controlTarget off
  · refine Or.inr (congrArg some ?_)
    rw [BigReg.slot, hidx _ (by omega)]
    omega
  · rcases configTarget_cases ((off - 0xC00) / 0x80) (off % 0x80 / 4) with h | ⟨b, hb, h⟩ <;> rw [h]
    · exact Or.inl rfl
    · exact Or.inr (congrArg some (by omega))
  · have hplace := offsetOf_pointTarget (Fin.ofNat 16 ((off - 0x1000) / 0x200)) (o := off % 0x200) (by omega)
    rwa [hidx _ (by omega), show 0x1000 + 0x200 * ((off - 0x1000) / 0x200) + off % 0x200 = off by omega] at hplace
  · exact Or.inl rfl

/-- Two aligned offsets with one target are one offset, or both reserved. -/
theorem targetOf_inj {off off' : Nat} (h4 : off % 4 = 0) (h4' : off' % 4 = 0) (ht : targetOf off ≠ .reserved)
    (heq : targetOf off' = targetOf off) : off' = off := by
  have hoff := offsetOf_targetOf h4 ht
  have hoff' := offsetOf_targetOf h4' (heq ▸ ht)
  rw [heq, hoff] at hoff'
  exact (Option.some.inj hoff').symm

theorem targetOf_reserved {off : Nat} (h4 : off % 4 = 0)
    (h : (0x01C ≤ off ∧ off < 0x400) ∨ (0xF80 ≤ off ∧ off < 0x1000) ∨
      (0x1000 ≤ off ∧ off < 0x3000 ∧ 0x104 ≤ off % 0x200) ∨ (0x3000 ≤ off ∧ off < 0x4000)) : targetOf off = .reserved := by
  rcases h with ⟨hlo, hhi⟩ | ⟨hlo, hhi⟩ | ⟨hlo, hhi, hgap⟩ | ⟨hlo, -⟩
  · rw [targetOf_control hhi]
    unfold controlTarget
    split
    case h_8 => rfl
    all_goals omega
  · rw [show off = 0xC00 + 0x80 * 7 + (off - 0xF80) by omega, targetOf_config (by decide) (by omega)]
    rfl
  · have hplace : off = 0x1000 + 0x200 * (⟨(off - 0x1000) / 0x200, by omega⟩ : RegIdx).val + off % 0x200 := by
      show off = 0x1000 + 0x200 * ((off - 0x1000) / 0x200) + off % 0x200
      omega
    rw [hplace, targetOf_point _ (by omega), pointTarget, if_neg (by omega), if_neg (by omega), if_neg (by omega)]
  · rw [targetOf, if_neg (by omega), if_neg (by omega), if_neg (by omega), if_neg (by omega)]

theorem targetOf_ptInf (i : RegIdx) : targetOf (0x1000 + 0x200 * i.val + 0x100) = .ptInf i :=
  targetOf_point i (by decide)

/-! ### Writes of the window (20_memory.md R46 to R50) -/

/-- GEN_INF written (10_state.md R23). -/
def setGenInf (v : Word) (s : State) : State := { s with cfg := { s.cfg with genInf := v.getLsbD 0 } }

/-- A point register's INF word written (10_state.md R21). -/
def setPtInf (i : RegIdx) (v : Word) (s : State) : State := { s with pt := s.pt.set i { s.pt[i] with inf := v.getLsbD 0 } }

/-- Word j of a big register written (20_memory.md R47). -/
def setWord (b : BigReg) (j : Nat) (v : Word) (s : State) : State := s.writeBig b (setWordSlice (s.readBig b) j v)

theorem writeTarget_genInf (s : State) (v : Word) : s.writeTarget .genInf v = s.unlessBusy (setGenInf v s) := rfl

theorem writeTarget_ptInf (s : State) (i : RegIdx) (v : Word) : s.writeTarget (.ptInf i) v = s.unlessBusy (setPtInf i v s) := rfl

theorem writeTarget_big {s : State} {j : Nat} (hj : j < s.params.nw) (b : BigReg) (v : Word) :
    s.writeTarget (.big b j) v = s.unlessBusy (setWord b j v s) := if_pos hj

/-- The words NW and above do not exist (20_memory.md R48). -/
theorem writeTarget_absent {s : State} {j : Nat} (hj : s.params.nw ≤ j) (b : BigReg) (v : Word) :
    s.writeTarget (.big b j) v = s := if_neg (by omega)

theorem readBig_setWord (s : State) (b b' : BigReg) (j : Nat) (v : Word) :
    (setWord b j v s).readBig b' = if b' = b then setWordSlice (s.readBig b) j v else s.readBig b' :=
  readBig_writeBig s b b' _

theorem setWord_params (b : BigReg) (j : Nat) (v : Word) (s : State) : (setWord b j v s).params = s.params :=
  State.writeBig_params s b _

theorem setWord_busy (b : BigReg) (j : Nat) (v : Word) (s : State) : (setWord b j v s).busy = s.busy :=
  congrArg Engine.isBusy (State.writeBig_engine s b _)

theorem readBig_setPtInf (s : State) (i : RegIdx) (v : Word) (b : BigReg) : (setPtInf i v s).readBig b = s.readBig b := by
  cases b with
  | ptX k | ptY k =>
    simp only [setPtInf, State.readBig, Fin.getElem_fin, Vector.getElem_set]
    split
    next h => simp only [h]
    next => rfl
  | _ => rfl

theorem writeBig_genInf (s : State) (b : BigReg) (v : Nat) : (s.writeBig b v).cfg.genInf = s.cfg.genInf := by
  cases b <;> rfl

theorem writeBig_inf (s : State) (b : BigReg) (v : Nat) (k : RegIdx) : (s.writeBig b v).pt[k].inf = s.pt[k].inf := by
  cases b with
  | ptX i | ptY i =>
    simp only [State.writeBig, Fin.getElem_fin, Vector.getElem_set]
    split
    next h => simp only [h]
    next => rfl
  | _ => rfl

theorem writeBig_writeBig (s : State) (b : BigReg) (v v' : Nat) : (s.writeBig b v).writeBig b v' = s.writeBig b v' := by
  cases b with
  | scalar i | ptX i | ptY i => simp [State.writeBig]
  | _ => rfl

/-! ### What a write leaves alone (20_memory.md R47, R54) -/

theorem readTarget_of_status (s : State) (st : Status) {t : Target} (ht : t ≠ .status) :
    ({ s with status := st } : State).readTarget t = s.readTarget t := by
  cases t with
  | status => exact absurd rfl ht
  | _ => rfl

theorem readTarget_accept (s : State) (c : Word) {t : Target} (hs : t ≠ .status) (hl : t ≠ .lastcmd) :
    (s.accept c).readTarget t = s.readTarget t := by
  cases t with
  | status => exact absurd rfl hs
  | lastcmd => exact absurd rfl hl
  | _ => rfl

theorem readTarget_unlessBusy {s u : State} {t : Target} (ht : t ≠ .status) (hu : u.readTarget t = s.readTarget t) :
    (s.unlessBusy u).readTarget t = s.readTarget t := by
  cases hb : s.busy with
  | false => rwa [State.unlessBusy_idle _ _ hb]
  | true => rw [State.unlessBusy_busy _ _ hb]; exact readTarget_of_status s _ ht

theorem readTarget_setGenInf (s : State) (v : Word) {t : Target} (ht : t ≠ .genInf) :
    (setGenInf v s).readTarget t = s.readTarget t := by
  cases t with
  | genInf => exact absurd rfl ht
  | _ => rfl

theorem readTarget_setPtInf (s : State) (i : RegIdx) (v : Word) {t : Target} (ht : t ≠ .ptInf i) :
    (setPtInf i v s).readTarget t = s.readTarget t := by
  cases t with
  | ptInf k =>
    have hki : i.val ≠ k.val := fun hc => ht (congrArg Target.ptInf (Fin.ext hc.symm))
    simp only [setPtInf, State.readTarget, Fin.getElem_fin, Vector.getElem_set_ne _ _ hki]
  | big b j =>
    simp only [State.readTarget, readBig_setPtInf]
    rfl
  | _ => rfl

/-- The other words of the register and every other register stay. -/
theorem readTarget_setWord (s : State) (b : BigReg) (j : Nat) (v : Word) {t : Target} (ht : t ≠ .big b j) (hs : t ≠ .status) :
    (setWord b j v s).readTarget t = s.readTarget t := by
  cases t with
  | status => exact absurd rfl hs
  | big b' j' =>
    have hword : wordSlice ((setWord b j v s).readBig b') j' = wordSlice (s.readBig b') j' := by
      rw [readBig_setWord]
      split_ifs with hb
      · subst hb
        rw [wordSlice_setWordSlice, if_neg fun hj => ht (congrArg (Target.big b') hj)]
      · rfl
    simp only [State.readTarget, hword, setWord_params]
  | genInf => simp only [State.readTarget, setWord, writeBig_genInf]
  | ptInf i => simp only [State.readTarget, setWord, writeBig_inf]
  | id | cmd | reserved => rfl
  | param => simp only [State.readTarget, setWord_params]
  | ctrl => simp only [State.readTarget, setWord, State.writeBig_ctrl]
  | lastcmd => simp only [State.readTarget, setWord, State.writeBig_lastcmd]

/-- A write to one target leaves what every other reads, but STATUS, and LASTCMD after a CMD write. -/
theorem readTarget_writeTarget (s : State) {t t' : Target} (v : Word) (hne : t' ≠ t) (hstatus : t' ≠ .status)
    (hlast : t = .cmd → t' ≠ .lastcmd) : (s.writeTarget t v).readTarget t' = s.readTarget t' := by
  cases t with
  | id | param | lastcmd | reserved => rfl
  | ctrl =>
    cases t' with
    | ctrl => exact absurd rfl hne
    | _ => rfl
  | status => exact readTarget_of_status s _ hstatus
  | cmd =>
    rw [State.writeTarget]
    rcases offerCommand_cases s v with ⟨-, ho⟩ | ⟨-, -, ho⟩ <;> rw [ho]
    · exact readTarget_of_status s _ hstatus
    · exact readTarget_accept s v hstatus (hlast rfl)
  | genInf => exact readTarget_unlessBusy hstatus (readTarget_setGenInf s v hne)
  | ptInf i => exact readTarget_unlessBusy hstatus (readTarget_setPtInf s i v hne)
  | big b j =>
    by_cases hj : j < s.params.nw
    · rw [writeTarget_big hj]
      exact readTarget_unlessBusy hstatus (readTarget_setWord s b j v hne hstatus)
    · rw [writeTarget_absent (by omega)]

/-- Only CMD and STATUS writes touch an IDLE engine's STATUS (20_memory.md R54). -/
theorem writeTarget_status {s : State} {t : Target} (v : Word) (hb : s.busy = false) (hc : t ≠ .cmd) (hs : t ≠ .status) :
    (s.writeTarget t v).status = s.status := by
  cases t with
  | cmd => exact absurd rfl hc
  | status => exact absurd rfl hs
  | id | param | ctrl | lastcmd | reserved => rfl
  | genInf => rw [writeTarget_genInf, State.unlessBusy_idle _ _ hb, setGenInf]
  | ptInf i => rw [writeTarget_ptInf, State.unlessBusy_idle _ _ hb, setPtInf]
  | big b j =>
    by_cases hj : j < s.params.nw
    · rw [writeTarget_big hj, State.unlessBusy_idle _ _ hb, setWord, State.writeBig_status]
    · rw [writeTarget_absent (by omega)]

/-! ### Repeated writes (20_memory.md R54) -/

/-- A state with another record of the last answer. -/
def withResponse (resp : Option Response) (s : State) : State := { s with response := resp }

theorem unlessBusy_withResponse (resp : Option Response) (s u : State) :
    (withResponse resp s).unlessBusy (withResponse resp u) = withResponse resp (s.unlessBusy u) := by
  have hsame : (withResponse resp s).busy = s.busy := rfl
  cases hb : s.busy with
  | true => rw [State.unlessBusy_busy s u hb, State.unlessBusy_busy _ _ (hsame.trans hb)]; rfl
  | false => rw [State.unlessBusy_idle s u hb, State.unlessBusy_idle _ _ (hsame.trans hb)]

theorem setWord_withResponse (b : BigReg) (j : Nat) (v : Word) (resp : Option Response) (s : State) :
    setWord b j v (withResponse resp s) = withResponse resp (setWord b j v s) := by
  cases b <;> rfl

/-- A write does not look at the answer to the transaction before it. -/
theorem writeTarget_withResponse (s : State) {t : Target} (v : Word) (resp : Option Response) (ht : t ≠ .cmd) :
    (withResponse resp s).writeTarget t v = withResponse resp (s.writeTarget t v) := by
  cases t with
  | cmd => exact absurd rfl ht
  | id | param | ctrl | status | lastcmd | reserved => rfl
  | genInf => exact unlessBusy_withResponse resp s (setGenInf v s)
  | ptInf i => exact unlessBusy_withResponse resp s (setPtInf i v s)
  | big b j =>
    by_cases hj : j < s.params.nw
    · rw [writeTarget_big hj, writeTarget_big (s := withResponse resp s) hj, setWord_withResponse, unlessBusy_withResponse]
    · have hj := Nat.le_of_not_lt hj
      rw [writeTarget_absent hj, writeTarget_absent (s := withResponse resp s) hj]

theorem onWrite_onWrite (st : Status) (v : Word) : (st.onWrite v).onWrite v = st.onWrite v := by
  simp only [Status.onWrite]
  cases v.getLsbD 1 <;> cases v.getLsbD 2 <;> cases v.getLsbD 4 <;> simp

/-- An update that is done once is done, whether the IDLE engine lets the write through or BUSY drops it. -/
theorem unlessBusy_unlessBusy (f : State → State) {s : State} (hbusy : (f s).busy = s.busy) (hf : f (f s) = f s) :
    (s.unlessBusy (f s)).unlessBusy (f (s.unlessBusy (f s))) = s.unlessBusy (f s) := by
  cases hb : s.busy with
  | false => rw [State.unlessBusy_idle _ _ hb, State.unlessBusy_idle _ _ (hbusy.trans hb), hf]
  | true => rw [State.unlessBusy_busy _ _ hb, State.unlessBusy_busy _ _ (s.dropWrite_busy.trans hb)]; rfl

theorem setPtInf_setPtInf (i : RegIdx) (v : Word) (s : State) : setPtInf i v (setPtInf i v s) = setPtInf i v s := by
  simp [setPtInf]

theorem setWord_setWord (b : BigReg) (j : Nat) (v : Word) (s : State) : setWord b j v (setWord b j v s) = setWord b j v s := by
  rw [setWord, readBig_setWord, if_pos rfl, setWordSlice_setWordSlice, setWord, writeBig_writeBig]

theorem writeTarget_writeTarget (s : State) {t : Target} (v : Word) (ht : t ≠ .cmd) :
    (s.writeTarget t v).writeTarget t v = s.writeTarget t v := by
  cases t with
  | cmd => exact absurd rfl ht
  | id | param | ctrl | lastcmd | reserved => rfl
  | status => exact congrArg (fun st => ({ s with status := st } : State)) (onWrite_onWrite s.status v)
  | genInf => exact unlessBusy_unlessBusy (setGenInf v) rfl rfl
  | ptInf i => exact unlessBusy_unlessBusy (setPtInf i v) rfl (setPtInf_setPtInf i v s)
  | big b j =>
    by_cases hj : j < s.params.nw
    · obtain ⟨hparams, -⟩ := writeTarget_keeps s (.big b j) v
      rw [writeTarget_big (by rwa [hparams]), writeTarget_big hj]
      exact unlessBusy_unlessBusy (setWord b j v) (setWord_busy b j v s) (setWord_setWord b j v s)
    · have habsent := writeTarget_absent (Nat.le_of_not_lt hj) b v
      rw [habsent, habsent]

/-! ### Reserved bits (20_memory.md R50) -/

theorem bitAt_getLsbD (v : Word) (pos : Nat) : bitAt (v.getLsbD pos) pos = v.toNat / 2 ^ pos % 2 * 2 ^ pos := by
  rw [bitAt_eq, BitVec.getLsbD, Nat.testBit_eq_decide_div_mod_eq]
  rcases Nat.mod_two_eq_zero_or_one (v.toNat / 2 ^ pos) with h | h <;> simp [h]

theorem ctrl_word_ofWord (v : Word) : (Ctrl.ofWord v).word = v &&& 0x7 := by
  apply BitVec.eq_of_toNat_eq
  have hmask : (v &&& 0x7).toNat = v.toNat % 2 ^ 3 := Nat.and_two_pow_sub_one_eq_mod v.toNat 3
  rw [hmask, Ctrl.word, Ctrl.ofWord, BitVec.toNat_ofNat, bitAt_getLsbD, bitAt_getLsbD, bitAt_getLsbD]
  omega

theorem bitAt_getLsbD_zero (v : Word) : BitVec.ofNat 32 (bitAt (v.getLsbD 0) 0) = v &&& 0x1 := by
  apply BitVec.eq_of_toNat_eq
  have hmask : (v &&& 0x1).toNat = v.toNat % 2 ^ 1 := Nat.and_two_pow_sub_one_eq_mod v.toNat 1
  rw [hmask, BitVec.toNat_ofNat, bitAt_getLsbD]
  omega

/-- A STATUS write acts by its bits 1, 2 and 4 alone (10_state.md R28). -/
theorem onWrite_mask (st : Status) (v : Word) : st.onWrite (v &&& 0x16) = st.onWrite v := by
  simp [Status.onWrite]

/-! ### Transactions of the window (20_memory.md R43, R52) -/

theorem busTxn_read_at (s : State) {off : Nat} (hoff : off < windowSize) (width : ReadWidth) :
    s.busTxn (.read (s.params.base + off) width) = .next (s.busAt off (.read (s.params.base + off) width)) := by
  simp only [State.busTxn, BusTxn.addr, windowOffset_base _ hoff]

theorem busTxn_write_at (s : State) {off : Nat} (hoff : off < windowSize) (enables : BitVec 4) (v : Word) :
    s.busTxn (.write (s.params.base + off) enables v) = .next (s.busAt off (.write (s.params.base + off) enables v)) := by
  simp only [State.busTxn, BusTxn.addr, windowOffset_base _ hoff]

theorem targetOf_ne_status {off : Nat} (h4 : off % 4 = 0) (h : off ≠ 0x00C) : targetOf off ≠ .status :=
  fun hc => h (targetOf_inj (off := 0x00C) (by decide) h4 (by decide) hc)

theorem targetOf_ne_lastcmd {off : Nat} (h4 : off % 4 = 0) (h : off ≠ 0x014) : targetOf off ≠ .lastcmd :=
  fun hc => h (targetOf_inj (off := 0x014) (by decide) h4 (by decide) hc)

theorem targetOf_ne_cmd {off : Nat} (h : off ≠ 0x010) : targetOf off ≠ .cmd := fun hc => h (targetOf_eq_cmd hc)

end Sys2Proof.Proofs
end

section
/-! PROOFS. What the host and the RNG see of the block: the statements of 20_memory.md. -/

namespace Sys2Proof.Proofs

open Sys2Proof Sys2Proof.Machine Sys2Proof.Laws Sys2Proof.Config

/-! ### The register window (20_memory.md R41 to R54) -/

/-- Settles O42: slices assemble by the remainder and quotient by 2^32, and a write replaces one of them. -/
theorem wordsOfBigRegisters : Obligations.WordsOfBigRegisters := by
  refine ⟨bigOfWords_wordSlices, fun s b j w hj hnw => ?_⟩
  have hslot : j < 32 := by omega
  refine ⟨?_, fun hb => ⟨_, busTxn_write_slot s b w hslot, ?_⟩⟩
  · rw [State.readWord, targetOf_slot b j hslot]
    exact if_pos hj
  · rw [writeTarget_big hj, State.unlessBusy_idle _ _ hb]
    refine ⟨fun b' hb' => (readBig_setWord s b b' j w).trans (if_neg hb'), fun i _ => ?_⟩
    have hvalue := (readBig_setWord s b b j w).trans (if_pos rfl)
    exact (congrArg (wordSlice · i) hvalue).trans (wordSlice_setWordSlice _ i j w)

/-- Settles O43: such a word or offset stands for nothing, and masked bits are not kept. -/
theorem absentAndReadOnlyWords : Obligations.AbsentAndReadOnlyWords := by
  intro s v
  refine ⟨fun b j hj hslot => ⟨?_, ?_⟩, fun off h4 hres => ?_, ?_, rfl, ctrl_word_ofWord v, ?_, fun hb => ?_, fun i hb => ?_⟩
  · rw [State.readWord, targetOf_slot b j hslot]
    exact if_neg (by omega)
  · rw [busTxn_write_slot s b v hslot, writeTarget_absent hj]
  · have htarget := targetOf_reserved h4 hres
    refine ⟨by rw [State.readWord, htarget]; rfl, ?_⟩
    rw [busTxn_write s v (by unfold windowSize; omega) h4, htarget]
    rfl
  · intro off hoff
    simp only [List.mem_cons, List.not_mem_nil, or_false] at hoff
    rcases hoff with rfl | rfl | rfl
    · exact busTxn_write s v (by decide) (by decide)
    · exact busTxn_write s v (by decide) (by decide)
    · exact busTxn_write s v (by decide) (by decide)
  · exact congrArg (fun st => ({ s with status := st } : State)) (onWrite_mask s.status v).symm
  · rw [writeTarget_genInf, State.unlessBusy_idle _ _ hb]
    exact ⟨bitAt_getLsbD_zero v, rfl⟩
  · rw [State.readWord, targetOf_ptInf, writeTarget_ptInf, State.unlessBusy_idle _ _ hb]
    simpa [State.readTarget, setPtInf] using bitAt_getLsbD_zero v

/-- Settles O44: a read only answers, and every write but CMD's is idempotent. -/
theorem readsAreFreeOfEffects : Obligations.ReadsAreFreeOfEffects := by
  intro s off hoff
  refine ⟨fun width => ?_, fun t v h4 ht => ?_⟩
  · rw [busTxn_read_at s hoff, State.busAt]
    split
    · exact ⟨_, rfl⟩
    · exact ⟨_, rfl⟩
  · rw [busTxn_write s v hoff h4] at ht
    cases ht
    obtain ⟨-, -, -, hkeep, -⟩ := writeTarget_keeps s (targetOf off) v
    refine ⟨fun hc => ?_, fun hc hs => ?_⟩
    · have hcmd := targetOf_ne_cmd hc
      have hagain := writeTarget_withResponse (s.writeTarget (targetOf off) v) v (some .okayWrite) hcmd
      rw [writeTarget_writeTarget s v hcmd] at hagain
      have hanswered := congrArg (withResponse (some .okayWrite)) hagain
      exact (busTxn_write _ v hoff h4).trans (congrArg Host.Outcome.next hanswered)
    · have hcmd := targetOf_ne_cmd hc
      obtain ⟨hengine, hlast⟩ := hkeep hcmd
      exact ⟨hengine, hlast, fun hb => writeTarget_status v hb hcmd (targetOf_ne_status h4 hs)⟩

/-- Settles O46: targets of distinct offsets are distinct or reserved, and a write reaches its own target. -/
theorem busWriteFrame : Obligations.BusWriteFrame := by
  intro s t off off' v h4 hoff h4' hoff' ht hne hstatus hlast
  rw [busTxn_write s v hoff h4] at ht
  cases ht
  show (s.writeTarget (targetOf off) v).readTarget (targetOf off') = s.readTarget (targetOf off')
  by_cases heq : targetOf off' = targetOf off
  · have hres : targetOf off = .reserved := by
      by_contra hc
      exact hne (targetOf_inj h4 h4' hc heq)
    rw [hres, State.writeTarget]
  · exact readTarget_writeTarget s v heq (targetOf_ne_status h4' hstatus)
      fun hc => targetOf_ne_lastcmd h4' (hlast (targetOf_eq_cmd hc))

/-- Settles O45: `busAt` accepts whole aligned words alone. -/
theorem rejectedTransactionsChangeNothing : Obligations.RejectedTransactionsChangeNothing := by
  intro s off hoff
  refine ⟨fun width hw => ?_, fun enables v he => ?_⟩
  · rw [busTxn_read_at s hoff, State.busAt, if_neg (by tauto)]
  · rw [busTxn_write_at s hoff, State.busAt, if_neg (by tauto)]

/-! ### The RNG port (20_memory.md R44) -/

theorem rngRequest_some {s : State} {n : Nat} (h : s.rngRequest = some n) :
    ∃ run, s.engine = .busy run ∧ run.progress.nonce = .requested ∧ n = run.snap.n := by
  unfold State.rngRequest at h
  split at h
  · cases h
  · split at h <;> cases h
    exact ⟨_, ‹_›, ‹_›, rfl⟩

/-- The answer to the request in flight is taken or refused. -/
theorem rngAnswer_requested {s : State} {run : Running} (hr : s.engine = .busy run) (hq : run.progress.nonce = .requested) (k : Nat) :
    s.rngAnswer s.rngRequests k = if 1 ≤ k ∧ k ≤ run.snap.n - 1 then
      .next (s.withProgress run { run.progress with nonce := .answered k }) else .refused .rngAnswerOutOfRange := by
  simp only [State.rngAnswer, hr, hq, true_and, if_true]

/-- Settles O57: the request in flight is the last one issued, and no other answer is looked at. -/
theorem rngPort : Obligations.RngPort := by
  intro s k
  refine ⟨fun n hn h1 hk => ?_, fun m hm => ?_, fun n hn hk => ?_⟩
  · obtain ⟨run, hr, hq, rfl⟩ := rngRequest_some hn
    have htaken := (rngAnswer_requested hr hq k).trans (if_pos ⟨h1, hk⟩)
    refine ⟨run, hr, rfl, htaken, fun t ht => ?_⟩
    rw [htaken] at ht
    cases ht
    rfl
  · rcases hm with hnone | hother
    · exact rngAnswer_none hnone m k
    · exact rngAnswer_stale hother k
  · obtain ⟨run, hr, hq, rfl⟩ := rngRequest_some hn
    exact (rngAnswer_requested hr hq k).trans (if_neg hk)

end Sys2Proof.Proofs
end

section
/-! PROOFS. Command words (30_encoding.md): a word is its eight fields, a command reads the fields its mask keeps,
and a word decodes to a command exactly when it agrees with the command's own word under that mask. -/

namespace Sys2Proof.Proofs

open Sys2Proof Sys2Proof.Machine Sys2Proof.Laws

/-! ### The fields of a word (30_encoding.md R65) -/

/-- The fields of format C cover the word. -/
theorem toNat_eq_fields (c : Word) : c.toNat = bitsOf c 0 6 + bitsOf c 6 1 * 2 ^ 6 + bitsOf c 7 1 * 2 ^ 7 + bitsOf c 8 4 * 2 ^ 8 +
    bitsOf c 12 4 * 2 ^ 12 + bitsOf c 16 4 * 2 ^ 16 + bitsOf c 20 4 * 2 ^ 20 + bitsOf c 24 8 * 2 ^ 24 := by
  have hc := c.isLt
  simp only [bitsOf, Nat.reducePow] at *
  omega

theorem word_ext_fields {c d : Word} (hop : bitsOf c 0 6 = bitsOf d 0 6) (hm : bitsOf c 6 1 = bitsOf d 6 1)
    (h7 : bitsOf c 7 1 = bitsOf d 7 1) (hrd : bitsOf c 8 4 = bitsOf d 8 4) (hra : bitsOf c 12 4 = bitsOf d 12 4)
    (hrb : bitsOf c 16 4 = bitsOf d 16 4) (hrc : bitsOf c 20 4 = bitsOf d 20 4) (h24 : bitsOf c 24 8 = bitsOf d 24 8) : c = d := by
  apply BitVec.eq_of_toNat_eq
  rw [toNat_eq_fields c, toNat_eq_fields d, hop, hm, h7, hrd, hra, hrb, hrc, h24]

theorem bitsOf_and (c d : Word) (lo len : Nat) : bitsOf (c &&& d) lo len = bitsOf c lo len &&& bitsOf d lo len := by
  simp only [bitsOf, BitVec.toNat_and, Nat.and_div_two_pow, Nat.and_mod_two_pow]

theorem bitsOf_and_of_ones (c : Word) {d : Word} {lo len : Nat} (h : bitsOf d lo len = 2 ^ len - 1) :
    bitsOf (c &&& d) lo len = bitsOf c lo len := by
  rw [bitsOf_and, h, Nat.and_two_pow_sub_one_eq_mod, Nat.mod_eq_of_lt (bitsOf_lt c lo len)]

theorem bitsOf_and_of_zero (c : Word) {d : Word} {lo len : Nat} (h : bitsOf d lo len = 0) : bitsOf (c &&& d) lo len = 0 := by
  rw [bitsOf_and, h, Nat.and_zero]

@[simp] theorem idxAt_val (c : Word) (lo : Nat) : (idxAt c lo).val = bitsOf c lo 4 :=
  Nat.mod_eq_of_lt (bitsOf_lt c lo 4)

theorem idxAt_eq_idxAt_iff (c : Word) (lo lo' : Nat) : idxAt c lo = idxAt c lo' ↔ bitsOf c lo 4 = bitsOf c lo' 4 := by
  rw [Fin.ext_iff, idxAt_val, idxAt_val]

/-! ### The bits a command reads (30_encoding.md R68, R70) -/

/-- The bits every command reads, and the index fields RD, RA, RB and RC that it uses. -/
def fieldMask (rd ra rb rc : Bool) : Word :=
  0xFF0000FF ||| (if rd then 0xF00 else 0) ||| (if ra then 0xF000 else 0) ||| (if rb then 0xF0000 else 0) ||| (if rc then 0xF00000 else 0)

/-- The index of a used field; an unused field counts as 0. -/
def usedIdx (used : Bool) (c : Word) (lo : Nat) : RegIdx := if used then idxAt c lo else 0

theorem bitsOf_fieldMask (rd ra rb rc : Bool) :
    bitsOf (fieldMask rd ra rb rc) 0 6 = 2 ^ 6 - 1 ∧ bitsOf (fieldMask rd ra rb rc) 6 1 = 2 ^ 1 - 1 ∧
    bitsOf (fieldMask rd ra rb rc) 7 1 = 2 ^ 1 - 1 ∧ bitsOf (fieldMask rd ra rb rc) 8 4 = (if rd then 2 ^ 4 - 1 else 0) ∧
    bitsOf (fieldMask rd ra rb rc) 12 4 = (if ra then 2 ^ 4 - 1 else 0) ∧
    bitsOf (fieldMask rd ra rb rc) 16 4 = (if rb then 2 ^ 4 - 1 else 0) ∧
    bitsOf (fieldMask rd ra rb rc) 20 4 = (if rc then 2 ^ 4 - 1 else 0) ∧ bitsOf (fieldMask rd ra rb rc) 24 8 = 2 ^ 8 - 1 := by
  revert rd ra rb rc
  decide

theorem bitsOf_and_idx (c : Word) {d : Word} {lo : Nat} {used : Bool} (h : bitsOf d lo 4 = if used then 2 ^ 4 - 1 else 0) :
    bitsOf (c &&& d) lo 4 = (usedIdx used c lo).val := by
  cases used with
  | true => exact (bitsOf_and_of_ones c h).trans (idxAt_val c lo).symm
  | false => exact bitsOf_and_of_zero c h

/-- Under a mask, a word of format C is its OP and M with the index fields the mask keeps. -/
theorem and_fieldMask_of_hasOp {c : Word} {op m : Nat} (h : HasOp c op) (hm : bitsOf c 6 1 = m) (ud ua ub uc : Bool) :
    c &&& fieldMask ud ua ub uc = packC op m (usedIdx ud c 8) (usedIdx ua c 12) (usedIdx ub c 16) (usedIdx uc c 20) := by
  subst hm
  obtain ⟨rfl, h7, h24⟩ := h
  obtain ⟨mop, mm, m7, mrd, mra, mrb, mrc, m24⟩ := bitsOf_fieldMask ud ua ub uc
  obtain ⟨pop, pm, p7, prd, pra, prb, prc, p24⟩ := bitsOf_packC (bitsOf c 0 6) (bitsOf c 6 1) (usedIdx ud c 8) (usedIdx ua c 12)
    (usedIdx ub c 16) (usedIdx uc c 20) (bitsOf_lt c 0 6) (bitsOf_lt c 6 1)
  apply word_ext_fields
  · rw [bitsOf_and_of_ones c mop, pop]
  · rw [bitsOf_and_of_ones c mm, pm]
  · rw [bitsOf_and_of_ones c m7, p7, h7]
  · rw [bitsOf_and_idx c mrd, prd]
  · rw [bitsOf_and_idx c mra, pra]
  · rw [bitsOf_and_idx c mrb, prb]
  · rw [bitsOf_and_idx c mrc, prc]
  · rw [bitsOf_and_of_ones c m24, p24, h24]

/-- A word that agrees with a packed one on the fields a mask keeps has its OP, its M and its used fields. -/
theorem fields_of_and_fieldMask {c : Word} {op m : Nat} {rd ra rb rc : RegIdx} (ud ua ub uc : Bool) (hop : op < 64) (hm : m < 2)
    (h : c &&& fieldMask ud ua ub uc = packC op m rd ra rb rc) :
    HasOp c op ∧ bitsOf c 6 1 = m ∧ usedIdx ud c 8 = rd ∧ usedIdx ua c 12 = ra ∧ usedIdx ub c 16 = rb ∧ usedIdx uc c 20 = rc := by
  obtain ⟨mop, mm, m7, mrd, mra, mrb, mrc, m24⟩ := bitsOf_fieldMask ud ua ub uc
  obtain ⟨pop, pm, p7, prd, pra, prb, prc, p24⟩ := bitsOf_packC op m rd ra rb rc hop hm
  rw [← h] at pop pm p7 prd pra prb prc p24
  rw [bitsOf_and_of_ones c mop] at pop
  rw [bitsOf_and_of_ones c mm] at pm
  rw [bitsOf_and_of_ones c m7] at p7
  rw [bitsOf_and_of_ones c m24] at p24
  rw [bitsOf_and_idx c mrd] at prd
  rw [bitsOf_and_idx c mra] at pra
  rw [bitsOf_and_idx c mrb] at prb
  rw [bitsOf_and_idx c mrc] at prc
  exact ⟨⟨pop, p7, p24⟩, pm, Fin.ext prd, Fin.ext pra, Fin.ext prb, Fin.ext prc⟩

/-- A packed word whose unused fields are 0 has no bit outside the mask. -/
theorem packC_and_fieldMask {op m : Nat} {rd ra rb rc : RegIdx} (ud ua ub uc : Bool) (hop : op < 64) (hm : m < 2)
    (hd : ud = false → rd = 0) (ha : ua = false → ra = 0) (hb : ub = false → rb = 0) (hc : uc = false → rc = 0) :
    packC op m rd ra rb rc &&& fieldMask ud ua ub uc = packC op m rd ra rb rc := by
  obtain ⟨pop, pm, p7, prd, pra, prb, prc, p24⟩ := bitsOf_packC op m rd ra rb rc hop hm
  have hused : ∀ {u : Bool} {lo : Nat} {i : RegIdx}, bitsOf (packC op m rd ra rb rc) lo 4 = i.val → (u = false → i = 0) →
      usedIdx u (packC op m rd ra rb rc) lo = i := fun {u _ _} hi hz => by
    cases u with
    | true => exact idxAt_eq hi
    | false => exact (hz rfl).symm
  rw [and_fieldMask_of_hasOp ⟨pop, p7, p24⟩ pm, hused prd hd, hused pra ha, hused prb hb, hused prc hc]

/-! ### The opcode map (30_encoding.md R71), row by row -/

theorem fieldEncodedAs_of_decode {op : Nat} {p n : Word → Instr}
    (h : ∀ c, HasOp c op → decode c = byModulus (bitsOf c 6 1) (p c) (n c)) : FieldEncodedAs op p n := by
  intro c hc
  rw [h c hc]
  exact ⟨fun hm => by rw [hm]; rfl, fun hm => by rw [hm]; rfl⟩

theorem plainEncodedAs_of_decode {op : Nat} {f : Word → Instr}
    (h : ∀ c, HasOp c op → decode c = plainForm (bitsOf c 6 1) (f c)) : PlainEncodedAs op f := by
  intro c hc
  rw [h c hc]
  exact ⟨fun hm _ => by rw [hm]; rfl, fun hm => by rw [hm]; rfl⟩

theorem fieldEncodedAs_fadd : FieldEncodedAs 0x01 (fun c => .faddP (idxAt c 8) (idxAt c 12) (idxAt c 16))
    (fun c => .faddN (idxAt c 8) (idxAt c 12) (idxAt c 16)) :=
  fieldEncodedAs_of_decode fun c ⟨hop, h7, h24⟩ => by simp [decode, hop, h7, h24]

theorem fieldEncodedAs_fsub : FieldEncodedAs 0x02 (fun c => .fsubP (idxAt c 8) (idxAt c 12) (idxAt c 16))
    (fun c => .fsubN (idxAt c 8) (idxAt c 12) (idxAt c 16)) :=
  fieldEncodedAs_of_decode fun c ⟨hop, h7, h24⟩ => by simp [decode, hop, h7, h24]

theorem fieldEncodedAs_fmul : FieldEncodedAs 0x03 (fun c => .fmulP (idxAt c 8) (idxAt c 12) (idxAt c 16))
    (fun c => .fmulN (idxAt c 8) (idxAt c 12) (idxAt c 16)) :=
  fieldEncodedAs_of_decode fun c ⟨hop, h7, h24⟩ => by simp [decode, hop, h7, h24]

theorem fieldEncodedAs_finv : FieldEncodedAs 0x04 (fun c => .finvP (idxAt c 8) (idxAt c 12))
    (fun c => .finvN (idxAt c 8) (idxAt c 12)) :=
  fieldEncodedAs_of_decode fun c ⟨hop, h7, h24⟩ => by simp [decode, hop, h7, h24]

theorem fieldEncodedAs_fdiv : FieldEncodedAs 0x05 (fun c => .fdivP (idxAt c 8) (idxAt c 12) (idxAt c 16))
    (fun c => .fdivN (idxAt c 8) (idxAt c 12) (idxAt c 16)) :=
  fieldEncodedAs_of_decode fun c ⟨hop, h7, h24⟩ => by simp [decode, hop, h7, h24]

theorem plainEncodedAs_oncurve : PlainEncodedAs 0x10 (fun c => .oncurve (idxAt c 12)) :=
  plainEncodedAs_of_decode fun c ⟨hop, h7, h24⟩ => by simp [decode, hop, h7, h24]

theorem plainEncodedAs_padd : PlainEncodedAs 0x11 (fun c => .padd (idxAt c 8) (idxAt c 12) (idxAt c 16)) :=
  plainEncodedAs_of_decode fun c ⟨hop, h7, h24⟩ => by simp [decode, hop, h7, h24]

theorem plainEncodedAs_pdbl : PlainEncodedAs 0x12 (fun c => .pdbl (idxAt c 8) (idxAt c 12)) :=
  plainEncodedAs_of_decode fun c ⟨hop, h7, h24⟩ => by simp [decode, hop, h7, h24]

theorem plainEncodedAs_pmul : PlainEncodedAs 0x13 (fun c => .pmul (idxAt c 8) (idxAt c 12) (idxAt c 16)) :=
  plainEncodedAs_of_decode fun c ⟨hop, h7, h24⟩ => by simp [decode, hop, h7, h24]

theorem plainEncodedAs_pubkey : PlainEncodedAs 0x20 (fun c => .pubkey (idxAt c 8) (idxAt c 12)) :=
  plainEncodedAs_of_decode fun c ⟨hop, h7, h24⟩ => by simp [decode, hop, h7, h24]

theorem plainEncodedAs_keygen : PlainEncodedAs 0x21 (fun c => .keygen (idxAt c 8)) :=
  plainEncodedAs_of_decode fun c ⟨hop, h7, h24⟩ => by simp [decode, hop, h7, h24]

/-- SIGN has a second check, on its two results (30_encoding.md R72 item 4). -/
theorem plainEncodedAs_sign : PlainEncodedAs 0x22 (fun c => .sign (idxAt c 8) (idxAt c 12) (idxAt c 16) (idxAt c 20)) := by
  rintro c ⟨hop, h7, h24⟩
  simp +contextual [decode, hop, h7, h24, plainForm, Instr.wellFormed]

theorem plainEncodedAs_verify : PlainEncodedAs 0x23 (fun c => .verify (idxAt c 8) (idxAt c 12) (idxAt c 16) (idxAt c 20)) :=
  plainEncodedAs_of_decode fun c ⟨hop, h7, h24⟩ => by simp [decode, hop, h7, h24]

/-! ### Encoding and decoding (30_encoding.md R68 to R74) -/

theorem encode_and_usedMask (i : Instr) : encode i &&& usedMask i = encode i := by
  cases i with
  | faddP | faddN | fsubP | fsubN | fmulP | fmulN | fdivP | fdivN | padd | pmul =>
    exact packC_and_fieldMask true true true false (by decide) (by decide) nofun nofun nofun fun _ => rfl
  | finvP | finvN | pdbl | pubkey =>
    exact packC_and_fieldMask true true false false (by decide) (by decide) nofun nofun (fun _ => rfl) fun _ => rfl
  | oncurve => exact packC_and_fieldMask false true false false (by decide) (by decide) (fun _ => rfl) nofun (fun _ => rfl) fun _ => rfl
  | keygen => exact packC_and_fieldMask true false false false (by decide) (by decide) nofun (fun _ => rfl) (fun _ => rfl) fun _ => rfl
  | sign | verify => exact packC_and_fieldMask true true true true (by decide) (by decide) nofun nofun nofun nofun

/-- A word that agrees with a command's own word on the bits the command reads decodes to it. -/
theorem decode_of_and_usedMask {c : Word} {i : Instr} (hwf : i.wellFormed = true) (h : c &&& usedMask i = encode i) :
    decode c = .ok i := by
  cases i with
  | faddP =>
    obtain ⟨hc, hm, rfl, rfl, rfl, -⟩ := fields_of_and_fieldMask true true true false (by decide) (by decide) h
    exact (fieldEncodedAs_fadd c hc).1 hm
  | faddN =>
    obtain ⟨hc, hm, rfl, rfl, rfl, -⟩ := fields_of_and_fieldMask true true true false (by decide) (by decide) h
    exact (fieldEncodedAs_fadd c hc).2 hm
  | fsubP =>
    obtain ⟨hc, hm, rfl, rfl, rfl, -⟩ := fields_of_and_fieldMask true true true false (by decide) (by decide) h
    exact (fieldEncodedAs_fsub c hc).1 hm
  | fsubN =>
    obtain ⟨hc, hm, rfl, rfl, rfl, -⟩ := fields_of_and_fieldMask true true true false (by decide) (by decide) h
    exact (fieldEncodedAs_fsub c hc).2 hm
  | fmulP =>
    obtain ⟨hc, hm, rfl, rfl, rfl, -⟩ := fields_of_and_fieldMask true true true false (by decide) (by decide) h
    exact (fieldEncodedAs_fmul c hc).1 hm
  | fmulN =>
    obtain ⟨hc, hm, rfl, rfl, rfl, -⟩ := fields_of_and_fieldMask true true true false (by decide) (by decide) h
    exact (fieldEncodedAs_fmul c hc).2 hm
  | finvP =>
    obtain ⟨hc, hm, rfl, rfl, -⟩ := fields_of_and_fieldMask true true false false (by decide) (by decide) h
    exact (fieldEncodedAs_finv c hc).1 hm
  | finvN =>
    obtain ⟨hc, hm, rfl, rfl, -⟩ := fields_of_and_fieldMask true true false false (by decide) (by decide) h
    exact (fieldEncodedAs_finv c hc).2 hm
  | fdivP =>
    obtain ⟨hc, hm, rfl, rfl, rfl, -⟩ := fields_of_and_fieldMask true true true false (by decide) (by decide) h
    exact (fieldEncodedAs_fdiv c hc).1 hm
  | fdivN =>
    obtain ⟨hc, hm, rfl, rfl, rfl, -⟩ := fields_of_and_fieldMask true true true false (by decide) (by decide) h
    exact (fieldEncodedAs_fdiv c hc).2 hm
  | oncurve =>
    obtain ⟨hc, hm, -, rfl, -⟩ := fields_of_and_fieldMask false true false false (by decide) (by decide) h
    exact (plainEncodedAs_oncurve c hc).1 hm hwf
  | padd =>
    obtain ⟨hc, hm, rfl, rfl, rfl, -⟩ := fields_of_and_fieldMask true true true false (by decide) (by decide) h
    exact (plainEncodedAs_padd c hc).1 hm hwf
  | pdbl =>
    obtain ⟨hc, hm, rfl, rfl, -⟩ := fields_of_and_fieldMask true true false false (by decide) (by decide) h
    exact (plainEncodedAs_pdbl c hc).1 hm hwf
  | pmul =>
    obtain ⟨hc, hm, rfl, rfl, rfl, -⟩ := fields_of_and_fieldMask true true true false (by decide) (by decide) h
    exact (plainEncodedAs_pmul c hc).1 hm hwf
  | pubkey =>
    obtain ⟨hc, hm, rfl, rfl, -⟩ := fields_of_and_fieldMask true true false false (by decide) (by decide) h
    exact (plainEncodedAs_pubkey c hc).1 hm hwf
  | keygen =>
    obtain ⟨hc, hm, rfl, -⟩ := fields_of_and_fieldMask true false false false (by decide) (by decide) h
    exact (plainEncodedAs_keygen c hc).1 hm hwf
  | sign =>
    obtain ⟨hc, hm, rfl, rfl, rfl, rfl⟩ := fields_of_and_fieldMask true true true true (by decide) (by decide) h
    exact (plainEncodedAs_sign c hc).1 hm hwf
  | verify =>
    obtain ⟨hc, hm, rfl, rfl, rfl, rfl⟩ := fields_of_and_fieldMask true true true true (by decide) (by decide) h
    exact (plainEncodedAs_verify c hc).1 hm hwf

/-- Settles O1: a command's word has no bit its command does not read. -/
theorem decodeAfterEncode : Obligations.DecodeAfterEncode :=
  fun i hwf => decode_of_and_usedMask hwf (encode_and_usedMask i)

theorem decode_reserved {c : Word} (h : bitsOf c 7 1 = 1 ∨ bitsOf c 24 8 ≠ 0) : decode c = .error .reservedBit := if_pos h

theorem hasOp_of_not_reserved {c : Word} (h : ¬ (bitsOf c 7 1 = 1 ∨ bitsOf c 24 8 ≠ 0)) : HasOp c (bitsOf c 0 6) := by
  obtain ⟨h7, h24⟩ := not_or.mp h
  exact ⟨rfl, (bitsOf_one c 7).resolve_right h7, not_not.mp h24⟩

/-- The opcodes of the field commands, which read M (30_encoding.md R67, R71). -/
def fieldOps : List Nat := [0x01, 0x02, 0x03, 0x04, 0x05]

/-- The opcodes of the commands that must have M = 0 (30_encoding.md R67, R71). -/
def plainOps : List Nat := [0x10, 0x11, 0x12, 0x13, 0x20, 0x21, 0x22, 0x23]

theorem decode_unknownOp {c : Word} {op : Nat} (hc : HasOp c op) (hf : op ∉ fieldOps) (hp : op ∉ plainOps) :
    decode c = .error .unknownOp := by
  obtain ⟨hop, h7, h24⟩ := hc
  simp only [fieldOps, plainOps, List.mem_cons, List.not_mem_nil, or_false, not_or] at hf hp
  simp [decode, hop, h7, h24, hf, hp]

theorem decode_signSameDest {c : Word} (hc : HasOp c 0x22) (hm : bitsOf c 6 1 = 0) (hd : idxAt c 8 = idxAt c 20) :
    decode c = .error .signSameDest := by
  obtain ⟨hop, h7, h24⟩ := hc
  simp [decode, hop, h7, h24, hm, hd]

/-- A word that is the command's own word on the bits the command reads. -/
def Agrees (c : Word) (i : Instr) : Prop := i.wellFormed = true ∧ c &&& usedMask i = encode i

/-- A row of the opcode map for a field command: its encoding, and the bits its two forms read. -/
structure FieldRow (op : Nat) (p n : Word → Instr) : Prop where
  encoded : FieldEncodedAs op p n
  agrees_p : ∀ c, HasOp c op → bitsOf c 6 1 = 0 → Agrees c (p c)
  agrees_n : ∀ c, HasOp c op → bitsOf c 6 1 = 1 → Agrees c (n c)

/-- A row for any other command; SIGN alone has an ill-formed term. -/
structure PlainRow (op : Nat) (f : Word → Instr) : Prop where
  encoded : PlainEncodedAs op f
  agrees : ∀ c, HasOp c op → bitsOf c 6 1 = 0 → c &&& usedMask (f c) = encode (f c)
  illFormed : ∀ c, (f c).wellFormed = false ↔ op = 0x22 ∧ bitsOf c 8 4 = bitsOf c 20 4

theorem exists_fieldRow {op : Nat} (h : op ∈ fieldOps) : ∃ p n, FieldRow op p n := by
  simp only [fieldOps, List.mem_cons, List.not_mem_nil, or_false] at h
  have three {c : Word} {op m : Nat} (hc : HasOp c op) (hm : bitsOf c 6 1 = m) := and_fieldMask_of_hasOp hc hm true true true false
  have two {c : Word} {op m : Nat} (hc : HasOp c op) (hm : bitsOf c 6 1 = m) := and_fieldMask_of_hasOp hc hm true true false false
  rcases h with rfl | rfl | rfl | rfl | rfl
  · exact ⟨_, _, fieldEncodedAs_fadd, fun _ hc hm => ⟨rfl, three hc hm⟩, fun _ hc hm => ⟨rfl, three hc hm⟩⟩
  · exact ⟨_, _, fieldEncodedAs_fsub, fun _ hc hm => ⟨rfl, three hc hm⟩, fun _ hc hm => ⟨rfl, three hc hm⟩⟩
  · exact ⟨_, _, fieldEncodedAs_fmul, fun _ hc hm => ⟨rfl, three hc hm⟩, fun _ hc hm => ⟨rfl, three hc hm⟩⟩
  · exact ⟨_, _, fieldEncodedAs_finv, fun _ hc hm => ⟨rfl, two hc hm⟩, fun _ hc hm => ⟨rfl, two hc hm⟩⟩
  · exact ⟨_, _, fieldEncodedAs_fdiv, fun _ hc hm => ⟨rfl, three hc hm⟩, fun _ hc hm => ⟨rfl, three hc hm⟩⟩

theorem exists_plainRow {op : Nat} (h : op ∈ plainOps) : ∃ f, PlainRow op f := by
  simp only [plainOps, List.mem_cons, List.not_mem_nil, or_false] at h
  rcases h with rfl | rfl | rfl | rfl | rfl | rfl | rfl | rfl
  · exact ⟨_, plainEncodedAs_oncurve, fun _ hc hm => and_fieldMask_of_hasOp hc hm false true false false, by simp [Instr.wellFormed]⟩
  · exact ⟨_, plainEncodedAs_padd, fun _ hc hm => and_fieldMask_of_hasOp hc hm true true true false, by simp [Instr.wellFormed]⟩
  · exact ⟨_, plainEncodedAs_pdbl, fun _ hc hm => and_fieldMask_of_hasOp hc hm true true false false, by simp [Instr.wellFormed]⟩
  · exact ⟨_, plainEncodedAs_pmul, fun _ hc hm => and_fieldMask_of_hasOp hc hm true true true false, by simp [Instr.wellFormed]⟩
  · exact ⟨_, plainEncodedAs_pubkey, fun _ hc hm => and_fieldMask_of_hasOp hc hm true true false false, by simp [Instr.wellFormed]⟩
  · exact ⟨_, plainEncodedAs_keygen, fun _ hc hm => and_fieldMask_of_hasOp hc hm true false false false, by simp [Instr.wellFormed]⟩
  · exact ⟨_, plainEncodedAs_sign, fun _ hc hm => and_fieldMask_of_hasOp hc hm true true true true,
      fun c => by simp [Instr.wellFormed, idxAt_eq_idxAt_iff]⟩
  · exact ⟨_, plainEncodedAs_verify, fun _ hc hm => and_fieldMask_of_hasOp hc hm true true true true, by simp [Instr.wellFormed]⟩

theorem decode_field {c : Word} {op : Nat} (hc : HasOp c op) (hop : op ∈ fieldOps) : ∃ i, decode c = .ok i ∧ Agrees c i := by
  obtain ⟨p, n, row⟩ := exists_fieldRow hop
  rcases bitsOf_one c 6 with hm | hm
  · exact ⟨p c, (row.encoded c hc).1 hm, row.agrees_p c hc hm⟩
  · exact ⟨n c, (row.encoded c hc).2 hm, row.agrees_n c hc hm⟩

theorem decode_plain_ok {c : Word} {op : Nat} (hc : HasOp c op) (hop : op ∈ plainOps)
    (h : ¬ (bitsOf c 6 1 = 1 ∨ (op = 0x22 ∧ bitsOf c 8 4 = bitsOf c 20 4))) : ∃ i, decode c = .ok i ∧ Agrees c i := by
  obtain ⟨f, row⟩ := exists_plainRow hop
  obtain ⟨hm, hd⟩ := not_or.mp h
  have hm := (bitsOf_one c 6).resolve_right hm
  have hwf : (f c).wellFormed = true := by simpa using (row.illFormed c).not.mpr hd
  exact ⟨f c, (row.encoded c hc).1 hm hwf, hwf, row.agrees c hc hm⟩

theorem decode_plain_error {c : Word} {op : Nat} (hc : HasOp c op) (hop : op ∈ plainOps)
    (h : bitsOf c 6 1 = 1 ∨ (op = 0x22 ∧ bitsOf c 8 4 = bitsOf c 20 4)) : ∃ e, decode c = .error e := by
  obtain ⟨f, row⟩ := exists_plainRow hop
  rcases bitsOf_one c 6 with hm | hm
  · obtain ⟨rfl, hd⟩ := h.resolve_left (by omega)
    exact ⟨_, decode_signSameDest hc hm ((idxAt_eq_idxAt_iff c 8 20).mpr hd)⟩
  · exact ⟨_, (row.encoded c hc).2 hm⟩

/-- The four kinds of illegal words (30_encoding.md R72). -/
def IllegalWord (c : Word) : Prop :=
  (bitsOf c 0 6 ∉ fieldOps ++ plainOps) ∨ (bitsOf c 7 1 = 1 ∨ bitsOf c 24 8 ≠ 0) ∨
  (bitsOf c 6 1 = 1 ∧ bitsOf c 0 6 ∉ fieldOps) ∨ (bitsOf c 0 6 = 0x22 ∧ bitsOf c 8 4 = bitsOf c 20 4)

/-- Every word is illegal, or its command's own word on the bits the command reads (30_encoding.md R74). -/
theorem decode_cases (c : Word) :
    (IllegalWord c ∧ ∃ e, decode c = .error e) ∨ (¬ IllegalWord c ∧ ∃ i, decode c = .ok i ∧ Agrees c i) := by
  by_cases hres : bitsOf c 7 1 = 1 ∨ bitsOf c 24 8 ≠ 0
  · exact Or.inl ⟨Or.inr (Or.inl hres), _, decode_reserved hres⟩
  have hc := hasOp_of_not_reserved hres
  by_cases hf : bitsOf c 0 6 ∈ fieldOps
  · have hsign : bitsOf c 0 6 ≠ 0x22 := fun h => absurd (h ▸ hf) (by decide)
    refine Or.inr ⟨?_, decode_field hc hf⟩
    simp [IllegalWord, hres, hf, hsign]
  by_cases hp : bitsOf c 0 6 ∈ plainOps
  · by_cases h : bitsOf c 6 1 = 1 ∨ (bitsOf c 0 6 = 0x22 ∧ bitsOf c 8 4 = bitsOf c 20 4)
    · refine Or.inl ⟨Or.inr (Or.inr (h.imp_left fun hm => ⟨hm, hf⟩)), decode_plain_error hc hp h⟩
    · refine Or.inr ⟨?_, decode_plain_ok hc hp h⟩
      simp only [IllegalWord, List.mem_append]
      tauto
  · exact Or.inl ⟨Or.inl (by simp [hf, hp]), _, decode_unknownOp hc hf hp⟩

/-- Settles O2: a word decodes to a command exactly when it agrees with the command's own word. -/
theorem decodeReadsExactlyTheUsedBits : Obligations.DecodeReadsExactlyTheUsedBits := by
  intro c i h
  rcases decode_cases c with ⟨-, e, he⟩ | ⟨-, j, hj, hwf, hagree⟩
  · cases he.symm.trans h
  · cases hj.symm.trans h
    exact ⟨hwf, hagree, fun c' hc' => decode_of_and_usedMask hwf (hc'.trans hagree)⟩

theorem decode_error_iff (c : Word) : (∃ e, decode c = .error e) ↔ IllegalWord c := by
  rcases decode_cases c with ⟨hill, herr⟩ | ⟨hlegal, i, hok, -⟩
  · exact iff_of_true herr hill
  · exact iff_of_false (fun ⟨e, he⟩ => by cases he.symm.trans hok) hlegal

theorem engineRun_illegal {s : State} {run : Running} {e : DecodeError} (hr : s.engine = .busy run) (hd : decode run.word = .error e) :
    s.engineRun = .next (s.raise .illegalCmd none) := by
  rw [State.engineRun, hr]
  simp only [hd]

/-- Settles O3: a word is illegal or has a row of the opcode map; an illegal one is accepted as any word is, and the engine finds no command in it. -/
theorem illegalWordsEndWithIllegalCmd : Obligations.IllegalWordsEndWithIllegalCmd := by
  refine ⟨decode_error_iff, ⟨.unknownOp, by decide⟩, fun s c e hd hb he => ?_⟩
  have hoffer : s.offerCommand c = s.accept c := by simp [State.offerCommand, hb, he]
  rw [hoffer]
  exact ⟨rfl, rfl, engineRun_illegal (State.accept_engine s c) hd⟩

/-- Settles O4: the text and the word are computed, and a command's word decodes to it. -/
theorem exampleEncodings : Obligations.ExampleEncodings := by
  intro x hx
  simp only [List.mem_cons, List.not_mem_nil, or_false] at hx
  have hdec : ∀ {i : Instr} {w : Word}, i.wellFormed = true → encode i = w → decode w = .ok i := by
    rintro i _ hwf rfl
    exact decodeAfterEncode i hwf
  rcases hx with rfl | rfl | rfl | rfl | rfl | rfl | rfl | rfl | rfl | rfl | rfl | rfl | rfl <;>
    exact ⟨rfl, rfl, hdec rfl rfl⟩

end Sys2Proof.Proofs
end

section
/-! PROOFS. What a command leaves unchanged (30_encoding.md R70, 10_state.md R35), and what the host's `wbig` leaves in a register
(30_encoding.md R77, 20_memory.md R47). -/

namespace Sys2Proof.Proofs

open Sys2Proof Sys2Proof.Machine Sys2Proof.Laws Sys2Proof.Config

/-! ### Frames -/

/-- Settles O52: a meaning commits its destinations, raises an error, issues a request or waits. -/
theorem commandFrame : Obligations.CommandFrame := by
  intro i s t h
  obtain ⟨run, hr, hway⟩ := exec_way h
  cases hway with
  | commit w hw =>
    have hscalars : ∀ j, j ∉ scalarDests i → (writeScalars s.r w.scalars)[j] = s.r[j] := fun j hj =>
      writeScalars_of_not_mem j w.scalars s.r fun x hx hc => hj (hc ▸ hw.scalars x hx)
    have hpoint : ∀ j, j ∉ pointDests i → (writePoint s.pt w.point)[j] = s.pt[j] := fun j hj =>
      writePoint_of_ne j s.pt w.point fun x hx hc => hj (hc ▸ hw.point x hx)
    refine ⟨rfl, rfl, rfl, rfl, rfl, rfl, rfl, rfl, Or.inl rfl, hscalars, hpoint, fun hres => ?_, fun hsign => ?_, Or.inl ⟨rfl, rfl⟩, nofun⟩
    · simp [hw.result hres]
    · simp [hw.attempts hsign]
  | raise e n hn =>
    refine ⟨rfl, rfl, rfl, rfl, rfl, rfl, rfl, rfl, Or.inl rfl, fun _ _ => rfl, fun _ _ => rfl, fun _ => rfl, fun hsign => ?_,
      Or.inr ⟨rfl, rfl, rfl⟩, nofun⟩
    simp [hn hsign]
  | request n hdraws =>
    exact ⟨rfl, rfl, rfl, rfl, rfl, rfl, rfl, rfl, Or.inr ⟨hdraws, rfl, rfl⟩, fun _ _ => rfl, fun _ _ => rfl, fun _ => rfl, fun _ => rfl,
      Or.inl ⟨rfl, rfl⟩, fun _ => ⟨rfl, rfl, rfl⟩⟩
  | wait =>
    exact ⟨rfl, rfl, rfl, rfl, rfl, rfl, rfl, rfl, Or.inl rfl, fun _ _ => rfl, fun _ _ => rfl, fun _ => rfl, fun _ => rfl,
      Or.inl ⟨rfl, rfl⟩, fun _ => ⟨rfl, rfl, rfl⟩⟩

/-- A big register's words read alike where the register does. -/
theorem readTarget_big_congr {s t : State} {b : BigReg} {j : Nat} (hp : t.params = s.params) (hb : t.readBig b = s.readBig b) :
    t.readTarget (.big b j) = s.readTarget (.big b j) := by
  simp only [State.readTarget, hp, hb]

/-- Settles O53: a target of the window shows a field that `commandFrame` keeps, or a destination. -/
theorem commandWindowFrame : Obligations.CommandWindowFrame := by
  intro i s t off h hstatus hdest
  obtain ⟨hparams, hcfg, hctrl, hlast, -, -, -, -, -, hr, hpt, -⟩ := commandFrame i s t h
  simp only [State.readWord]
  generalize targetOf off = tgt at hstatus hdest
  cases tgt with
  | status => exact absurd rfl hstatus
  | id | cmd | reserved => rfl
  | param => exact congrArg paramWord hparams
  | ctrl => exact congrArg Ctrl.word hctrl
  | lastcmd => exact hlast
  | genInf => simp only [State.readTarget, hcfg]
  | ptInf k =>
    have hk : k ∉ pointDests i := by simpa [isDestTarget] using hdest
    simp only [State.readTarget, hpt k hk]
  | big b j =>
    refine readTarget_big_congr hparams ?_
    cases b with
    | scalar k => exact hr k (by simpa [isDestTarget] using hdest)
    | ptX k | ptY k =>
      have hk : k ∉ pointDests i := by simpa [isDestTarget] using hdest
      simp only [State.readBig, hpt k hk]
    | pMod | nOrd | curveA | curveB | gx | gy | kIn => simp only [State.readBig, hcfg]

/-! ### The host's word writes of a big value -/

/-- The low j words of v below the other words of v'. -/
def mergeWords (v' v j : Nat) : Nat := v' / 2 ^ (32 * j) * 2 ^ (32 * j) + v % 2 ^ (32 * j)

theorem mergeWords_zero (v' v : Nat) : mergeWords v' v 0 = v' := by simp [mergeWords, Nat.mod_one]

theorem mergeWords_all {v' v n : Nat} (hv' : v' < 2 ^ (32 * n)) (hv : v < 2 ^ (32 * n)) : mergeWords v' v n = v := by
  rw [mergeWords, Nat.div_eq_of_lt hv', Nat.mod_eq_of_lt hv, Nat.zero_mul, Nat.zero_add]

/-- Writing word j after the words below it merges one word more. -/
theorem setWordSlice_mergeWords (v' v j : Nat) : setWordSlice (mergeWords v' v j) j (wordSlice v j) = mergeWords v' v (j + 1) := by
  have hlow : v % 2 ^ (32 * j) < 2 ^ (32 * j) := Nat.mod_lt _ (by positivity)
  have hquot : mergeWords v' v j / 2 ^ (32 * j) = v' / 2 ^ (32 * j) := by
    rw [mergeWords, Nat.add_comm, Nat.add_mul_div_right _ _ (by positivity), Nat.div_eq_of_lt hlow, Nat.zero_add]
  have hrem : mergeWords v' v j % 2 ^ (32 * j) = v % 2 ^ (32 * j) := by
    rw [mergeWords, Nat.add_comm, Nat.add_mul_mod_self_right, Nat.mod_mod]
  rw [setWordSlice, hrem, wordSlice_toNat, Nat.pow_add, ← Nat.div_div_eq_div_mul, hquot, Nat.div_div_eq_div_mul, ← Nat.pow_add,
    mergeWords, show 32 * (j + 1) = 32 * j + 32 by omega, Nat.add_assoc, Nat.pow_add, Nat.mod_mul]
  ring

/-- The state after an accepted write, with the events that are left. -/
def afterWrite (rest : List Event) (s : State) : State := { s with response := some .okayWrite, schedule := rest }

theorem afterWrite_writeBig (rest rest' : List Event) (b : BigReg) (v : Nat) (s : State) :
    afterWrite rest ((afterWrite rest' s).writeBig b v) = afterWrite rest (s.writeBig b v) := by
  cases b <;> rfl

theorem readBig_afterWrite (rest : List Event) (b : BigReg) (v : Nat) (s : State) :
    (afterWrite rest (s.writeBig b v)).readBig b = v := by
  have hread : (s.writeBig b v).readBig b = v := (readBig_writeBig s b b v).trans (if_pos rfl)
  cases b <;> exact hread

/-- The scheduled write of v's word j, with the engine IDLE and the words below j written. -/
theorem step_hostWrite {s : State} {b : BigReg} {v v' j : Nat} {rest : List Event} (hb : s.busy = false) (hj : j < s.params.nw)
    (hnw : s.params.nw ≤ 32) (hv : s.readBig b = mergeWords v' v j)
    (hs : s.schedule = hostWrite s.params (b.slot + 4 * j) (wordSlice v j) :: rest) :
    step s = .next (afterWrite rest (s.writeBig b (mergeWords v' v (j + 1)))) := by
  have hwrite : ({ s with schedule := rest } : State).writeTarget (.big b j) (wordSlice v j) =
      setWord b j (wordSlice v j) { s with schedule := rest } :=
    (writeTarget_big (s := { s with schedule := rest }) hj b _).trans (State.unlessBusy_idle _ _ hb)
  rw [step_cons hs, ← setWordSlice_mergeWords, ← hv]
  refine (busTxn_write_slot { s with schedule := rest } b (wordSlice v j) (by omega)).trans ?_
  rw [hwrite]
  cases b <;> rfl

theorem run_succ {M : Host.Core} {s s' : M.State} (h : M.step s = .next s') (k : Nat) : M.run (k + 1) s = M.run k s' := by
  rw [Host.Core.run, h]

/-- The scheduled writes of v's words j to j + k, with the engine IDLE and the words below j written. -/
theorem run_hostWrites {p : Params} {b : BigReg} {v v' : Nat} {rest : List Event} (hnw : p.nw ≤ 32) (k : Nat) : ∀ (j : Nat) (s : State),
    s.params = p → s.busy = false → j + k < p.nw → s.readBig b = mergeWords v' v j →
    s.schedule = (List.range' j (k + 1)).map (fun j => hostWrite p (b.slot + 4 * j) (wordSlice v j)) ++ rest →
    Host.Core.run Sys2Proof.core (k + 1) s = .next (afterWrite rest (s.writeBig b (mergeWords v' v (j + (k + 1))))) := by
  induction k with
  | zero =>
    rintro j s rfl hb hj hv hs
    exact run_succ (M := Sys2Proof.core) (step_hostWrite hb hj hnw hv hs) 0
  | succ k ih =>
    rintro j s rfl hb hj hv hs
    have hparams := State.writeBig_params s b (mergeWords v' v (j + 1))
    have hbusy := congrArg Engine.isBusy (State.writeBig_engine s b (mergeWords v' v (j + 1)))
    refine (run_succ (M := Sys2Proof.core) (step_hostWrite hb (by omega) hnw hv hs) (k + 1)).trans ?_
    refine (ih (j + 1) (afterWrite _ _) hparams (hbusy.trans hb) (by omega) (readBig_afterWrite _ b _ s) rfl).trans ?_
    rw [afterWrite_writeBig, writeBig_writeBig, show j + 1 + (k + 1) = j + (k + 1 + 1) by omega]

theorem nw_bounds_of_wf {p : Params} (h : p.wf = true) : 1 ≤ p.nw ∧ p.nw ≤ 32 := by
  have hw := width_eq_of_wf h
  simp only [Params.wf, Bool.and_eq_true, decide_eq_true_eq] at h
  omega

/-- Settles O47: the writes merge the words of v into the register, the lowest first, until none of the old value's is left. -/
theorem hostWritesBigRegister : Obligations.HostWritesBigRegister := by
  intro s b v rest hwf hb hv hold hs
  obtain ⟨hpos, hle⟩ := nw_bounds_of_wf hwf
  obtain ⟨k, hk⟩ := Nat.exists_eq_succ_of_ne_zero (Nat.ne_of_gt hpos)
  have hschedule : s.schedule =
      (List.range' 0 (k + 1)).map (fun j => hostWrite s.params (b.slot + 4 * j) (wordSlice v j)) ++ rest := by
    rw [hs, hostWriteBig, hk, List.range_eq_range']
  have hrun := run_hostWrites hle k 0 s rfl hb (by omega) (mergeWords_zero (s.readBig b) v).symm hschedule
  rw [width_eq_of_wf hwf] at hv hold
  rw [Nat.zero_add, ← Nat.succ_eq_add_one, ← hk, mergeWords_all hold hv] at hrun
  exact hrun

end Sys2Proof.Proofs
end

section
/-! PROOFS. The field functions are the arithmetic of `ZMod m` (40_field.md R81 to R84, R90), and a field command ends with
BAD_MODULUS, with its function's error, or with its function's value in R[rd] (40_field.md R79, R85 to R89). -/

namespace Sys2Proof.Proofs

open Sys2Proof Sys2Proof.Machine Sys2Proof.Laws

/-! ### The field functions (40_field.md R80 to R84, R90) -/

theorem natCast_ne_zero_of_mod_ne_zero {m y : Nat} (h : y % m ≠ 0) : (y : ZMod m) ≠ 0 := fun hc =>
  h (Nat.mod_eq_zero_of_dvd ((ZMod.natCast_eq_zero_iff y m).mp hc))

theorem fieldInv_of_mod_eq_zero {m y : Nat} (h : y % m = 0) : fieldInv m y = .error .divByZero :=
  (fieldInv_eq m y).trans (if_pos h)

theorem fieldInv_of_mod_ne_zero {m y : Nat} (h : y % m ≠ 0) : fieldInv m y = .ok (y ^ (m - 2) % m) :=
  (fieldInv_eq m y).trans (if_neg h)

theorem fieldDiv_of_mod_eq_zero {m y : Nat} (x : Nat) (h : y % m = 0) : fieldDiv m x y = .error .divByZero :=
  (fieldDiv_eq m x y).trans (if_pos h)

theorem fieldDiv_of_mod_ne_zero {m y : Nat} (x : Nat) (h : y % m ≠ 0) : fieldDiv m x y = .ok (x * (y ^ (m - 2) % m) % m) :=
  (fieldDiv_eq m x y).trans (if_neg h)

theorem fieldInv_eq_val {p : Nat} [Fact p.Prime] {y : Nat} (h : y % p ≠ 0) : fieldInv p y = .ok (y : ZMod p)⁻¹.val := by
  rw [fieldInv_of_mod_ne_zero h, ← ZMod.val_natCast, Nat.cast_pow, pow_sub_two_eq_inv (natCast_ne_zero_of_mod_ne_zero h)]

theorem mul_mod_eq_one_iff {p : Nat} [Fact p.Prime] {y : Nat} (h : y % p ≠ 0) (w : Nat) :
    w * y % p = 1 ↔ (w : ZMod p) = (y : ZMod p)⁻¹ := by
  have hone : 1 % p = 1 := Nat.mod_eq_of_lt (Fact.out : p.Prime).one_lt
  have hmod : w * y % p = 1 ↔ ((w * y : Nat) : ZMod p) = (1 : Nat) := by rw [ZMod.natCast_eq_natCast_iff', hone]
  rw [hmod, Nat.cast_mul, Nat.cast_one, mul_eq_one_iff_eq_inv₀ (natCast_ne_zero_of_mod_ne_zero h)]

/-- The integer difference is the difference in `ZMod m`. -/
theorem fieldSub_eq_int {m : Nat} (hm : 1 ≤ m) (x y : Nat) : (fieldSub m x y : Int) = ((x : Int) - (y : Int)) % (m : Int) := by
  have : NeZero m := ⟨Nat.one_le_iff_ne_zero.mp hm⟩
  rw [fieldSub_eq_val, ← ZMod.val_intCast, Int.cast_sub, Int.cast_natCast, Int.cast_natCast]

/-- Settles O5: the added term is `-y` in `ZMod m`, and positive. -/
theorem fieldSubIsTheDifference : Obligations.FieldSubIsTheDifference := by
  intro m x y hm
  have hlt : y % m < m := Nat.mod_lt y hm
  refine ⟨rfl, by omega, by omega, fun hy => ?_, fieldSub_eq_int hm x y, fieldSub_lt hm x y⟩
  rw [fieldSub, hy, Nat.sub_zero, Nat.add_mod_right]

/-- For a prime modulus the Fermat power is the unique inverse (40_field.md R83). -/
theorem exists_unique_fieldInv {p y : Nat} (hp : p.Prime) (hy : y % p ≠ 0) :
    ∃ v, fieldInv p y = .ok v ∧ 1 ≤ v ∧ v < p ∧ v * y % p = 1 ∧ ∀ w, 1 ≤ w → w < p → w * y % p = 1 → w = v := by
  have : Fact p.Prime := ⟨hp⟩
  have hinv : (y : ZMod p)⁻¹ ≠ 0 := inv_ne_zero (natCast_ne_zero_of_mod_ne_zero hy)
  refine ⟨(y : ZMod p)⁻¹.val, fieldInv_eq_val hy, ZMod.val_pos.mpr hinv, ZMod.val_lt _, ?_, fun w _ hw h => ?_⟩
  · exact (mul_mod_eq_one_iff hy _).mpr (ZMod.natCast_zmod_val _)
  · rw [← (mul_mod_eq_one_iff hy w).mp h, ZMod.val_cast_of_lt hw]

/-- Settles O6: Fermat's little theorem makes the power the inverse, and `ZMod m` a field where it is unique. -/
theorem fieldInvIsTheFermatPower : Obligations.FieldInvIsTheFermatPower := by
  intro m y _
  refine ⟨fieldInv_of_mod_eq_zero, fieldInv_of_mod_ne_zero, exists_unique_fieldInv, ?_⟩
  rintro rfl hodd
  exact fieldInv_of_mod_ne_zero (by omega)

/-- Settles O7: division fails where its inverse does. -/
theorem fieldDivFailsExactlyOnZero : Obligations.FieldDivFailsExactlyOnZero := by
  intro m x y hm
  refine ⟨⟨fun ⟨_, h⟩ => (fieldDiv_error h).1, fun h => ⟨_, fieldDiv_of_mod_eq_zero x h⟩⟩, fieldDiv_of_mod_eq_zero x, fun h => ?_⟩
  exact ⟨_, fieldInv_of_mod_ne_zero h, fieldDiv_of_mod_ne_zero x h, Nat.mod_lt _ hm⟩

theorem fieldAdd_fieldSub_zero {m : Nat} (hm : 1 ≤ m) (x : Nat) : fieldAdd m x (fieldSub m 0 x) = 0 := by
  have : NeZero m := ⟨Nat.one_le_iff_ne_zero.mp hm⟩
  rw [fieldAdd_eq_val, fieldSub_eq_val, ZMod.natCast_zmod_val, Nat.cast_zero, zero_sub, add_neg_cancel, ZMod.val_zero]

/-- Division undoes multiplication for a prime modulus (40_field.md R90). -/
theorem exists_fieldDiv_fieldMul {p y : Nat} (x : Nat) (hp : p.Prime) (hy : y % p ≠ 0) :
    ∃ q, fieldDiv p x y = .ok q ∧ fieldMul p q y = x % p := by
  have : Fact p.Prime := ⟨hp⟩
  have hy0 : (y : ZMod p) ≠ 0 := natCast_ne_zero_of_mod_ne_zero hy
  refine ⟨_, fieldDiv_eq_val hy0, ?_⟩
  rw [fieldMul_eq_val, ZMod.natCast_zmod_val, div_mul_cancel₀ _ hy0, ZMod.val_natCast]

/-- Settles O8: `ZMod m` is a ring, and for a prime m a field. -/
theorem fieldLaws : Obligations.FieldLaws := fun _ x y hm =>
  ⟨fieldAdd_lt hm x y, fieldSub_lt hm x y, fieldMul_lt hm x y, fieldAdd_fieldSub_zero hm x, exists_fieldDiv_fieldMul x⟩

/-! ### The field commands (40_field.md R79, R85 to R89) -/

section

variable {s : State} {run : Running} {rd : RegIdx} {value : Nat → Snapshot → Except CmdError Nat}

theorem fieldCommand_badModulus (sel : ModSel) (hr : s.engine = .busy run) (hm : run.snap.modulus sel = 0) :
    fieldCommand sel rd value s = .next (s.raise .badModulus none) := by
  simp only [fieldCommand, withCommand_busy hr, Snapshot.checkedModulus, if_pos hm, error_bind, finish_error]

/-- With a modulus, the command ends as its field function does. -/
theorem fieldCommand_eq (sel : ModSel) (hr : s.engine = .busy run) (hm : run.snap.modulus sel ≠ 0) :
    fieldCommand sel rd value s = s.finish ((value (run.snap.modulus sel) run.snap).map (Commit.scalar rd)) := by
  simp only [fieldCommand, withCommand_busy hr, Snapshot.checkedModulus, if_neg hm, ok_bind]
  rfl

theorem fieldCommand_error (sel : ModSel) (hr : s.engine = .busy run) (hm : run.snap.modulus sel ≠ 0) {e : CmdError}
    (hv : value (run.snap.modulus sel) run.snap = .error e) : fieldCommand sel rd value s = .next (s.raise e none) := by
  rw [fieldCommand_eq sel hr hm, hv]
  rfl

theorem fieldCommand_ok (sel : ModSel) (hr : s.engine = .busy run) (hm : run.snap.modulus sel ≠ 0) {v : Nat}
    (hv : value (run.snap.modulus sel) run.snap = .ok v) : fieldCommand sel rd value s =
      .next { s with r := s.r.set rd v, status := { s.status with done := true }, engine := .idle } := by
  rw [fieldCommand_eq sel hr hm, hv]
  rfl

/-- Both forms of a command whose function has a value for every argument (40_field.md R85 to R87). -/
theorem fieldCommand_forms_of_ok (hr : s.engine = .busy run) (f : Nat → Nat) (hv : ∀ m, value m run.snap = .ok (f m)) :
    (run.snap.p = 0 → fieldCommand .p rd value s = .next (s.raise .badModulus none)) ∧
    (run.snap.n = 0 → fieldCommand .n rd value s = .next (s.raise .badModulus none)) ∧
    (run.snap.p ≠ 0 → fieldCommand .p rd value s = .next { s with
      r := s.r.set rd (f run.snap.p), status := { s.status with done := true }, engine := .idle }) ∧
    (run.snap.n ≠ 0 → fieldCommand .n rd value s = .next { s with
      r := s.r.set rd (f run.snap.n), status := { s.status with done := true }, engine := .idle }) :=
  ⟨fieldCommand_badModulus .p hr, fieldCommand_badModulus .n hr,
    fun hm => fieldCommand_ok .p hr hm (hv _), fun hm => fieldCommand_ok .n hr hm (hv _)⟩

/-- Both forms of a command whose function fails where y is 0 mod m (40_field.md R88, R89). -/
theorem fieldCommand_forms_of_invertible (hr : s.engine = .busy run) (y : Nat) (f : Nat → Nat)
    (hz : ∀ {m}, y % m = 0 → value m run.snap = .error .divByZero) (hv : ∀ {m}, y % m ≠ 0 → value m run.snap = .ok (f m)) :
    (run.snap.p = 0 → fieldCommand .p rd value s = .next (s.raise .badModulus none)) ∧
    (run.snap.n = 0 → fieldCommand .n rd value s = .next (s.raise .badModulus none)) ∧
    (run.snap.p ≠ 0 → y % run.snap.p = 0 → fieldCommand .p rd value s = .next (s.raise .divByZero none)) ∧
    (run.snap.n ≠ 0 → y % run.snap.n = 0 → fieldCommand .n rd value s = .next (s.raise .divByZero none)) ∧
    (run.snap.p ≠ 0 → y % run.snap.p ≠ 0 → fieldCommand .p rd value s = .next { s with
      r := s.r.set rd (f run.snap.p), status := { s.status with done := true }, engine := .idle }) ∧
    (run.snap.n ≠ 0 → y % run.snap.n ≠ 0 → fieldCommand .n rd value s = .next { s with
      r := s.r.set rd (f run.snap.n), status := { s.status with done := true }, engine := .idle }) :=
  ⟨fieldCommand_badModulus .p hr, fieldCommand_badModulus .n hr,
    fun hm hy => fieldCommand_error .p hr hm (hz hy), fun hm hy => fieldCommand_error .n hr hm (hz hy),
    fun hm hy => fieldCommand_ok .p hr hm (hv hy), fun hm hy => fieldCommand_ok .n hr hm (hv hy)⟩

end

/-- Settles O9: FADD is the field command whose value is the sum. -/
theorem faddCommand : Obligations.FaddCommand :=
  ⟨fieldEncodedAs_fadd, fun _ run _ ra rb hr =>
    fieldCommand_forms_of_ok hr (fun m => fieldAdd m run.snap.r[ra] run.snap.r[rb]) fun _ => rfl⟩

/-- Settles O10: FSUB is the field command whose value is the difference. -/
theorem fsubCommand : Obligations.FsubCommand :=
  ⟨fieldEncodedAs_fsub, fun _ run _ ra rb hr =>
    fieldCommand_forms_of_ok hr (fun m => fieldSub m run.snap.r[ra] run.snap.r[rb]) fun _ => rfl⟩

/-- Settles O11: FMUL is the field command whose value is the product. -/
theorem fmulCommand : Obligations.FmulCommand :=
  ⟨fieldEncodedAs_fmul, fun _ run _ ra rb hr =>
    fieldCommand_forms_of_ok hr (fun m => fieldMul m run.snap.r[ra] run.snap.r[rb]) fun _ => rfl⟩

/-- Settles O12: FINV is the field command that ends as the inverse does. -/
theorem finvCommand : Obligations.FinvCommand :=
  ⟨fieldEncodedAs_finv, fun _ run _ ra hr =>
    fieldCommand_forms_of_invertible hr run.snap.r[ra] (fun m => run.snap.r[ra] ^ (m - 2) % m)
      fieldInv_of_mod_eq_zero fieldInv_of_mod_ne_zero⟩

/-- Settles O13: FDIV is the field command that ends as the division does, which fails on the divisor alone. -/
theorem fdivCommand : Obligations.FdivCommand :=
  ⟨fieldEncodedAs_fdiv, fun _ run _ ra rb hr =>
    fieldCommand_forms_of_invertible hr run.snap.r[rb] (fun m => run.snap.r[ra] * (run.snap.r[rb] ^ (m - 2) % m) % m)
      (fieldDiv_of_mod_eq_zero _) (fieldDiv_of_mod_ne_zero _)⟩

end Sys2Proof.Proofs
end

section
/-! PROOFS. The curve functions (41_curve.md R94 to R97, R102): the congruence, the formulas and the failures of the divisions
for every modulus, the turns of the multiplication loop, and on a good curve the closure and the laws of the Weierstrass curve's group. -/

namespace Sys2Proof.Proofs

open Sys2Proof Sys2Proof.Machine Sys2Proof.Laws
open WeierstrassCurve (Affine)

/-! ### The congruence (41_curve.md R94) -/

theorem ecOnCurve_coord_iff (c : Curve) (x y : Nat) :
    ecOnCurve c (.coord x y) = true ↔ y ^ 2 % c.p = (x ^ 3 + c.a * x + c.b) % c.p := by
  simp only [ecOnCurve, fieldMul, fieldAdd, Nat.mod_mul_mod, Nat.mod_add_mod, Nat.add_mod_mod, beq_iff_eq]
  rw [pow_two, pow_three']

/-- Settles O14: the inner reductions do not change the residues. -/
theorem onCurveIsTheCongruence : Obligations.OnCurveIsTheCongruence := fun c x y => ⟨rfl, ecOnCurve_coord_iff c x y⟩

/-! ### The branches of `ec_double` and `ec_add` (41_curve.md R95, R96) -/

theorem ecDouble_of_ne_zero (c : Curve) (x : Nat) {y : Nat} (hy : y ≠ 0) : ecDouble c (.coord x y) = tangentPoint c x y := if_neg hy

theorem identity_ecAdd (c : Curve) (P : Point) : ecAdd c .identity P = .ok P := rfl

theorem ecAdd_identity (c : Curve) (P : Point) : ecAdd c P .identity = .ok P := by cases P <;> rfl

theorem ecAdd_self (c : Curve) (P : Point) : ecAdd c P P = ecDouble c P := by
  cases P with
  | identity => rfl
  | coord x y => exact (if_pos rfl).trans (if_pos rfl)

theorem ecAdd_of_y_ne (c : Curve) (x : Nat) {y1 y2 : Nat} (hy : y1 ≠ y2) : ecAdd c (.coord x y1) (.coord x y2) = .ok .identity :=
  (if_pos rfl).trans (if_neg hy)

theorem ecAdd_of_x_ne (c : Curve) {x1 x2 : Nat} (y1 y2 : Nat) (hx : x1 ≠ x2) :
    ecAdd c (.coord x1 y1) (.coord x2 y2) = chordPoint c x1 y1 x2 y2 := if_neg hx

/-! ### The tangent and the chord in integers (41_curve.md R95, R96, R103) -/

/-- A field value that is an integer's residue is that integer modulo m. -/
theorem natCast_eq_emod {m v : Nat} [NeZero m] {z : Int} (h : v = (z : ZMod m).val) : (v : Int) = z % m := by
  rw [h, ZMod.val_intCast]

/-- The ordinate of a line's third point, for the tangent and the chord alike. -/
theorem thirdY_eq_int {m : Nat} [NeZero m] (s x x3 y : Nat) :
    (fieldSub m (fieldMul m s (fieldSub m x x3)) y : Int) = (s * ((x : Int) - x3) - y) % m :=
  natCast_eq_emod (by simp [fieldSub_eq_val, fieldMul_eq_val])

/-- A chord's slope, with the inverse w of its divisor. -/
theorem chordSlope_eq_int {m : Nat} [NeZero m] (x y w : Nat) :
    (fieldMul m (fieldSub m x y) w : Int) = ((x : Int) - y) * w % m :=
  natCast_eq_emod (by simp [fieldSub_eq_val, fieldMul_eq_val])

theorem exists_tangentPoint_eq {c : Curve} [NeZero c.p] (x : Nat) {y : Nat} (hy : 2 * y % c.p ≠ 0) :
    ∃ w m x3 y3 : Nat, w = (2 * y) ^ (c.p - 2) % c.p ∧ m = (3 * x ^ 2 + c.a) * w % c.p ∧
      (x3 : Int) = ((m : Int) ^ 2 - 2 * x) % c.p ∧ (y3 : Int) = (m * ((x : Int) - x3) - y) % c.p ∧
      tangentPoint c x y = .ok (.coord x3 y3) := by
  have hslope : fieldDiv c.p (fieldAdd c.p (fieldMul c.p 3 (fieldMul c.p x x)) c.a) (fieldMul c.p 2 y) =
      .ok ((3 * x ^ 2 + c.a) * ((2 * y) ^ (c.p - 2) % c.p) % c.p) := by
    rw [fieldDiv_of_mod_ne_zero _ (by rwa [fieldMul, Nat.mod_mod])]
    simp only [fieldAdd, fieldMul, ← Nat.pow_mod, Nat.mod_mul_mod, Nat.mul_mod_mod, Nat.mod_add_mod, pow_two]
  refine ⟨_, _, _, _, rfl, rfl, ?_, thirdY_eq_int _ x _ y, by rw [tangentPoint, hslope]; rfl⟩
  exact natCast_eq_emod (by simp [fieldSub_eq_val, fieldMul_eq_val, pow_two])

theorem exists_chordPoint_eq {c : Curve} [NeZero c.p] {x1 x2 : Nat} (y1 y2 : Nat) (hx : fieldSub c.p x2 x1 ≠ 0) :
    ∃ d w m x3 y3 : Nat, (d : Int) = ((x2 : Int) - x1) % c.p ∧ w = d ^ (c.p - 2) % c.p ∧
      (m : Int) = ((y2 : Int) - y1) * w % c.p ∧ (x3 : Int) = ((m : Int) ^ 2 - x1 - x2) % c.p ∧
      (y3 : Int) = (m * ((x1 : Int) - x3) - y1) % c.p ∧ chordPoint c x1 y1 x2 y2 = .ok (.coord x3 y3) := by
  have hlt : fieldSub c.p x2 x1 < c.p := fieldSub_lt (NeZero.pos c.p) x2 x1
  have hslope := fieldDiv_of_mod_ne_zero (fieldSub c.p y2 y1) (by rwa [Nat.mod_eq_of_lt hlt])
  refine ⟨_, _, _, _, _, fieldSub_eq_int (NeZero.pos c.p) x2 x1, rfl, chordSlope_eq_int y2 y1 _, ?_, thirdY_eq_int _ x1 _ y1,
    by rw [chordPoint, hslope]; rfl⟩
  exact natCast_eq_emod (by simp [fieldSub_eq_val, fieldMul_eq_val, pow_two])

/-! ### Where the divisions fail (41_curve.md R95, R96) -/

theorem inRange_coord_iff (p x y : Nat) : (Point.coord x y).inRange p = true ↔ x < p ∧ y < p := by
  simp [Point.inRange]

/-- Where its divisor vanishes, a doubling fails. -/
theorem ecDouble_of_two_mul_mod {c : Curve} (x : Nat) {y : Nat} (hy : y ≠ 0) (hmod : 2 * y % c.p = 0) :
    ecDouble c (.coord x y) = .error .divByZero := by
  rw [ecDouble_of_ne_zero c x hy, tangentPoint, fieldDiv_of_mod_eq_zero _ (by rwa [fieldMul, Nat.mod_mod])]
  rfl

/-- A doubling fails only where its divisor vanishes. -/
theorem two_mul_mod_of_ecDouble_error {c : Curve} {x y : Nat} {e : CmdError} (h : ecDouble c (.coord x y) = .error e) :
    y ≠ 0 ∧ 2 * y % c.p = 0 := by
  have hy : y ≠ 0 := by rintro rfl; cases h
  rw [ecDouble_of_ne_zero c x hy] at h
  rcases bind_error h with hdiv | ⟨_, _, hok⟩
  · exact ⟨hy, by simpa [fieldMul] using (fieldDiv_error hdiv).1⟩
  · cases hok

/-- Reduced and not 0, an ordinate's double is 0 mod m at m/2 alone. -/
theorem two_mul_mod_eq_zero_iff {m y : Nat} (hy : y ≠ 0) (hlt : y < m) : 2 * y % m = 0 ↔ 2 * y = m := by
  rw [← Nat.dvd_iff_mod_eq_zero]
  constructor
  · exact fun hdvd => Nat.eq_of_dvd_of_lt_two_mul (by omega) hdvd (by omega)
  · rintro rfl
    exact dvd_rfl

theorem ecDouble_error_iff (c : Curve) (x : Nat) {y : Nat} (hlt : y < c.p) :
    (∃ e, ecDouble c (.coord x y) = .error e) ↔ y ≠ 0 ∧ 2 * y = c.p := by
  constructor
  · rintro ⟨e, h⟩
    obtain ⟨hy, hmod⟩ := two_mul_mod_of_ecDouble_error h
    exact ⟨hy, (two_mul_mod_eq_zero_iff hy hlt).mp hmod⟩
  · rintro ⟨hy, h2⟩
    exact ⟨_, ecDouble_of_two_mul_mod x hy ((two_mul_mod_eq_zero_iff hy hlt).mpr h2)⟩

/-- A point in range whose doubling fails is the one of R100, and p is even. -/
theorem even_and_half_of_ecDouble_error {c : Curve} {P : Point} {e : CmdError} (hP : P.inRange c.p = true)
    (h : ecDouble c P = .error e) : c.p % 2 = 0 ∧ ∃ x, P = .coord x (c.p / 2) := by
  cases P with
  | identity => cases h
  | coord x y =>
    obtain ⟨-, hlt⟩ := (inRange_coord_iff c.p x y).mp hP
    obtain ⟨-, h2⟩ := (ecDouble_error_iff c x hlt).mp ⟨e, h⟩
    exact ⟨by omega, x, by rw [← h2, Nat.mul_div_cancel_left y two_pos]⟩

theorem fieldSub_ne_zero {m x y : Nat} (hx : x < m) (hy : y < m) (hne : x ≠ y) : fieldSub m x y ≠ 0 := by
  have : NeZero m := ⟨by omega⟩
  rw [fieldSub_eq_val, Ne, ZMod.val_eq_zero, sub_eq_zero, ZMod.natCast_eq_natCast_iff', Nat.mod_eq_of_lt hx, Nat.mod_eq_of_lt hy]
  exact hne

theorem chordPoint_ok {c : Curve} {x1 x2 : Nat} (y1 y2 : Nat) (h1 : x1 < c.p) (h2 : x2 < c.p) (hne : x1 ≠ x2) :
    ∃ V, chordPoint c x1 y1 x2 y2 = .ok V := by
  have : NeZero c.p := ⟨by omega⟩
  obtain ⟨_, _, _, x3, y3, -, -, -, -, -, h⟩ := exists_chordPoint_eq y1 y2 (fieldSub_ne_zero h2 h1 hne.symm)
  exact ⟨_, h⟩

/-- An addition in range fails only through its doubling branch: a chord's divisor does not vanish. -/
theorem eq_and_ecDouble_error_of_ecAdd_error {c : Curve} {P Q : Point} {e : CmdError} (hP : P.inRange c.p = true)
    (hQ : Q.inRange c.p = true) (h : ecAdd c P Q = .error e) : P = Q ∧ ecDouble c P = .error e := by
  cases P with
  | identity => cases h
  | coord x1 y1 =>
    cases Q with
    | identity => cases h
    | coord x2 y2 =>
      by_cases hx : x1 = x2
      · subst hx
        by_cases hy : y1 = y2
        · subst hy
          exact ⟨rfl, (ecAdd_self c _).symm.trans h⟩
        · cases (ecAdd_of_y_ne c x1 hy).symm.trans h
      · obtain ⟨h1, -⟩ := (inRange_coord_iff c.p x1 y1).mp hP
        obtain ⟨h2, -⟩ := (inRange_coord_iff c.p x2 y2).mp hQ
        obtain ⟨V, hV⟩ := chordPoint_ok y1 y2 h1 h2 hx
        cases (hV.symm.trans (ecAdd_of_x_ne c y1 y2 hx).symm).trans h

/-- Settles O15: a tangent's divisor vanishes at p/2, a chord's nowhere. -/
theorem curveDivisionFailures : Obligations.CurveDivisionFailures := by
  refine ⟨fun c x y hlt => ⟨ecDouble_error_iff c x hlt, fun hy h2 => ?_⟩,
    fun c P Q e hP hQ h => eq_and_ecDouble_error_of_ecAdd_error hP hQ h⟩
  exact ecDouble_of_two_mul_mod x hy ((two_mul_mod_eq_zero_iff hy hlt).mpr h2)

/-! ### The turns of `ec_scalar_mult` (41_curve.md R97) -/

theorem ecScalarMult_of_two_le (c : Curve) (P : Point) {k : Nat} (hk : 2 ≤ k) : ecScalarMult c P k = mulFinish c (MulLoop.start P k) := by
  rw [ecScalarMult, if_neg (by omega), if_neg (by omega)]

/-- A turn of the loop: the addition, then the doubling, then the loop on e / 2; the first failure ends it. -/
theorem mulFinish_turn (c : Curve) (R A : Point) {e : Nat} (he : 0 < e) :
    mulFinish c ⟨R, A, e⟩ = (mulAddend c ⟨R, A, e⟩).bind fun R' =>
      (ecDouble c A).bind fun A' => mulFinish c ⟨R', A', e / 2⟩ := by
  rw [mulFinish_step c _ he.ne', mulStep]
  cases mulAddend c ⟨R, A, e⟩ with
  | error _ => rfl
  | ok _ => cases ecDouble c A <;> rfl

theorem bitLen_le_of_lt_two_pow {k width : Nat} (h : k < 2 ^ width) : bitLen k ≤ width := by
  unfold bitLen
  split
  case isTrue => exact Nat.zero_le _
  case isFalse hk => exact (Nat.log2_lt hk).mpr h

/-- Fuel beyond the scalar's bits is not used. -/
theorem mulRun_eq_mulFinish (c : Curve) {fuel : Nat} {l : MulLoop} (h : bitLen l.rem ≤ fuel) : mulRun c fuel l = mulFinish c l := by
  induction fuel generalizing l with
  | zero => rw [mulFinish, Nat.le_zero.mp h]
  | succ fuel ih =>
    rw [mulRun]
    split
    case isTrue h0 => exact (mulFinish_done c l h0).symm
    case isFalse h0 =>
      rw [mulFinish_step c l h0]
      cases hs : mulStep c l with
      | error _ => rfl
      | ok l' =>
        rw [bitLen_half _ h0, ← mulStep_rem hs] at h
        exact ih (Nat.le_of_succ_le_succ h)

/-- Settles O16: the loop is one turn and then the loop on half the scalar, which has one bit less. -/
theorem scalarMultNeedsAtMostWidthIterations : Obligations.ScalarMultNeedsAtMostWidthIterations := by
  refine ⟨fun c P k hk => ecScalarMult_of_two_le c P hk, fun c R A => mulFinish_done c _ rfl,
    fun c R A e he => mulFinish_turn c R A he, fun c P k width hk hlt => ?_⟩
  have hbits : bitLen k ≤ width := bitLen_le_of_lt_two_pow hlt
  exact ⟨hbits, (mulRun_eq_mulFinish c hbits).trans (ecScalarMult_of_two_le c P hk).symm⟩

/-! ### Closure and the group laws on a good curve (41_curve.md R102) -/

section

variable {c : Curve} [Fact c.p.Prime]

theorem ecOnCurve_of_equation {x y : ZMod c.p} (h : (weierstrass c).Equation x y) : ecOnCurve c (.coord x.val y.val) = true := by
  rw [ecOnCurve_coord_iff, ← ZMod.natCast_eq_natCast_iff']
  rw [Affine.equation_iff] at h
  simp only [weierstrass] at h
  push_cast
  simp only [ZMod.natCast_zmod_val]
  linear_combination h

/-- Every point of the Weierstrass curve is in range and on the block's curve. -/
theorem on_ofAffine (A : (weierstrass c).Point) : c.On (ofAffine A) := by
  cases A with
  | zero => exact ⟨rfl, rfl⟩
  | some x y hA => exact ⟨(inRange_coord_iff _ _ _).mpr ⟨ZMod.val_lt x, ZMod.val_lt y⟩, ecOnCurve_of_equation hA.left⟩

theorem negate_ofAffine (A : (weierstrass c).Point) : negate c.p (ofAffine A) = ofAffine (-A) := by
  cases A with
  | zero => rfl
  | some x y hA =>
    rw [Affine.Point.neg_some]
    simp only [ofAffine, negate, weierstrass_negY, ZMod.neg_val']

end

/-- Settles O17: the points come from the group of the Weierstrass curve, and so do their sum, double and multiple. -/
theorem goodCurveIsClosed : Obligations.GoodCurveIsClosed := by
  intro c P Q k hc hP hQ
  have ⟨hprime, hodd, _⟩ := hc
  have : Fact c.p.Prime := ⟨hprime⟩
  obtain ⟨A, rfl⟩ := exists_ofAffine_eq hc hP
  obtain ⟨B, rfl⟩ := exists_ofAffine_eq hc hQ
  exact ⟨⟨_, ecAdd_ofAffine hodd A B, on_ofAffine _⟩, ⟨_, ecDouble_ofAffine hodd A, on_ofAffine _⟩,
    ⟨_, ecScalarMult_ofAffine hodd A k, on_ofAffine _⟩⟩

/-- Settles O18: the identity laws are branches of `ec_add`, and the others are laws of the Weierstrass curve's group. -/
theorem groupLaws : Obligations.GroupLaws := by
  refine ⟨fun c P => ⟨identity_ecAdd c P, ecAdd_identity c P, rfl, rfl⟩, fun c P Q R hc hP hQ hR => ?_⟩
  have ⟨hprime, hodd, _⟩ := hc
  have : Fact c.p.Prime := ⟨hprime⟩
  obtain ⟨A, rfl⟩ := exists_ofAffine_eq hc hP
  obtain ⟨B, rfl⟩ := exists_ofAffine_eq hc hQ
  obtain ⟨C, rfl⟩ := exists_ofAffine_eq hc hR
  refine ⟨?_, ?_, ?_⟩
  · rw [negate_ofAffine, ecAdd_ofAffine hodd, add_neg_cancel]
    rfl
  · rw [ecAdd_ofAffine hodd, ecAdd_ofAffine hodd, add_comm]
  · simp only [ecAdd_ofAffine hodd, Except.bind, add_assoc]

end Sys2Proof.Proofs
end

section
/-! PROOFS. The curve commands (41_curve.md R92, R93, R98 to R101): a command's checks fail, or it ends as its curve function does,
with the function's error or with its value in PT[rd] or RESULT. -/

namespace Sys2Proof.Proofs

open Sys2Proof Sys2Proof.Machine Sys2Proof.Laws

/-! ### A point operand and its checks (10_state.md R21; 41_curve.md R92, R93) -/

section

variable {S : Snapshot} {ra : RegIdx}

theorem point_of_inf (h : S.pt[ra].inf = true) : S.point ra = .identity := if_pos h

theorem point_of_reset (h : S.pt[ra] = ⟨false, 0, 0⟩) : S.point ra = .coord 0 0 := by
  rw [Snapshot.point, h]
  rfl

theorem checkedPoint_badModulus (hp : S.p = 0) : S.checkedPoint ra = .error .badModulus := by
  simp only [Snapshot.checkedPoint, Snapshot.checkP, if_pos hp, error_bind]

theorem checkedPoint_of_ne_zero (hp : S.p ≠ 0) : S.checkedPoint ra = S.rangeCheck (S.point ra) >>= fun _ => .ok (S.point ra) := by
  simp only [Snapshot.checkedPoint, Snapshot.checkP, if_neg hp, ok_bind]
  rfl

theorem checkedPoint_pointRange (hp : S.p ≠ 0) (h : (S.point ra).inRange S.p = false) : S.checkedPoint ra = .error .pointRange := by
  rw [checkedPoint_of_ne_zero hp, Snapshot.rangeCheck, if_neg (by rw [h]; exact Bool.false_ne_true), error_bind]

theorem checkedPoint_inRange (hp : S.p ≠ 0) (h : (S.point ra).inRange S.p = true) : S.checkedPoint ra = .ok (S.point ra) := by
  rw [checkedPoint_of_ne_zero hp, Snapshot.rangeCheck, if_pos h, ok_bind]

end

/-! ### A command that ends as a curve function does -/

section

variable {s : State} {run : Running} {rd ra rb : RegIdx}

theorem finish_toPoint_error (rd : RegIdx) {o : Except CmdError Point} {e : CmdError} (h : o = .error e) :
    s.finish (Commit.toPoint rd <$> o) = .next (s.raise e none) := by
  rw [h]
  rfl

theorem finish_toPoint_ok (rd : RegIdx) {o : Except CmdError Point} {V : Point} (h : o = .ok V) :
    s.finish (Commit.toPoint rd <$> o) =
      .next { s with pt := s.pt.set rd (PointReg.ofPoint V), status := { s.status with done := true }, engine := .idle } := by
  rw [h]
  rfl

/-- A command whose first check fails ends with the check's error. -/
theorem finish_checkedPoint_error (rd : RegIdx) {S : Snapshot} {f : Point → Except CmdError Point} {e : CmdError}
    (h : S.checkedPoint ra = .error e) : s.finish (Commit.toPoint rd <$> (S.checkedPoint ra >>= f)) = .next (s.raise e none) :=
  finish_toPoint_error rd (by rw [h, error_bind])

theorem exec_oncurve_eq (hr : s.engine = .busy run) :
    exec (.oncurve ra) s = s.finish ((Commit.flag ∘ ecOnCurve run.snap.curve) <$> run.snap.checkedPoint ra) := by
  simp only [exec, execOncurve, withCommand_busy hr, bind_pure_comp]
  rfl

theorem exec_padd_eq (hr : s.engine = .busy run) :
    exec (.padd rd ra rb) s = s.finish (Commit.toPoint rd <$>
      (run.snap.checkedPoint ra >>= fun P => run.snap.checkedPoint rb >>= ecAdd run.snap.curve P)) := by
  simp only [exec, execPadd, withCommand_busy hr, bind_pure_comp, map_bind]

theorem exec_pdbl_eq (hr : s.engine = .busy run) :
    exec (.pdbl rd ra) s = s.finish (Commit.toPoint rd <$> (run.snap.checkedPoint ra >>= ecDouble run.snap.curve)) := by
  simp only [exec, execPdbl, withCommand_busy hr, bind_pure_comp, map_bind]

theorem exec_pmul_eq (hr : s.engine = .busy run) :
    exec (.pmul rd ra rb) s = s.finish (Commit.toPoint rd <$>
      (run.snap.checkedPoint ra >>= fun P => firstMul run.snap.curve P (run.snap.scalar rb) run.progress.mul)) := by
  simp only [exec, execPmul, withCommand_busy hr, bind_pure_comp, map_bind]

theorem exec_oncurve_error (hr : s.engine = .busy run) {e : CmdError} (h : run.snap.checkedPoint ra = .error e) :
    exec (.oncurve ra) s = .next (s.raise e none) := by
  rw [exec_oncurve_eq hr, h]
  rfl

theorem exec_oncurve_ok (hr : s.engine = .busy run) (hp : run.snap.p ≠ 0) (hP : (run.snap.point ra).inRange run.snap.p = true) :
    exec (.oncurve ra) s = .next { s with
      status := { s.status with done := true, result := ecOnCurve run.snap.curve (run.snap.point ra) }, engine := .idle } := by
  rw [exec_oncurve_eq hr, checkedPoint_inRange hp hP]
  rfl

theorem exec_padd_inRange (hr : s.engine = .busy run) (hp : run.snap.p ≠ 0) (hP : (run.snap.point ra).inRange run.snap.p = true)
    (hQ : (run.snap.point rb).inRange run.snap.p = true) :
    exec (.padd rd ra rb) s = s.finish (Commit.toPoint rd <$> ecAdd run.snap.curve (run.snap.point ra) (run.snap.point rb)) := by
  rw [exec_padd_eq hr, checkedPoint_inRange hp hP, ok_bind, checkedPoint_inRange hp hQ, ok_bind]

/-- The first operand out of range, or the second, ends PADD with POINT_RANGE. -/
theorem exec_padd_pointRange (hr : s.engine = .busy run) (hp : run.snap.p ≠ 0)
    (h : ((run.snap.point ra).inRange run.snap.p && (run.snap.point rb).inRange run.snap.p) = false) :
    exec (.padd rd ra rb) s = .next (s.raise .pointRange none) := by
  rw [exec_padd_eq hr]
  cases hP : (run.snap.point ra).inRange run.snap.p with
  | false => exact finish_checkedPoint_error rd (checkedPoint_pointRange hp hP)
  | true =>
    have hQ : (run.snap.point rb).inRange run.snap.p = false := by rwa [hP, Bool.true_and] at h
    rw [checkedPoint_inRange hp hP, ok_bind]
    exact finish_checkedPoint_error rd (checkedPoint_pointRange hp hQ)

theorem exec_pdbl_inRange (hr : s.engine = .busy run) (hp : run.snap.p ≠ 0) (hP : (run.snap.point ra).inRange run.snap.p = true) :
    exec (.pdbl rd ra) s = s.finish (Commit.toPoint rd <$> ecDouble run.snap.curve (run.snap.point ra)) := by
  rw [exec_pdbl_eq hr, checkedPoint_inRange hp hP, ok_bind]

/-- A faithful first multiplication ends as `ec_scalar_mult` does. -/
theorem firstMul_eq_ecScalarMult {i : Instr} {P : Point} {k : Nat} {next : Option (Point × Nat)} (hm : MulFaithful i run)
    (ho : mulOperands i run = some ((P, k), next)) :
    firstMul run.snap.curve P k run.progress.mul = ecScalarMult run.snap.curve P k := by
  simp only [MulFaithful, ho] at hm
  exact hm.1

theorem exec_pmul_inRange (hr : s.engine = .busy run) (hm : MulFaithful (.pmul rd ra rb) run) (hp : run.snap.p ≠ 0)
    (hP : (run.snap.point ra).inRange run.snap.p = true) :
    exec (.pmul rd ra rb) s = s.finish (Commit.toPoint rd <$> ecScalarMult run.snap.curve (run.snap.point ra) (run.snap.scalar rb)) := by
  have hcheck : run.snap.checkedPoint ra = .ok (run.snap.point ra) := checkedPoint_inRange hp hP
  have hops : mulOperands (.pmul rd ra rb) run = some ((run.snap.point ra, run.snap.scalar rb), none) := by
    simp only [mulOperands, hcheck]
  rw [exec_pmul_eq hr, hcheck, ok_bind, firstMul_eq_ecScalarMult hm hops]

end

/-- Settles O20: ONCURVE ends as `ec_on_curve` does, and the corner cases are its values at Identity and at (0, 0). -/
theorem oncurveCommand : Obligations.OncurveCommand := by
  refine ⟨plainEncodedAs_oncurve, fun p x y => ⟨rfl, inRange_coord_iff p x y⟩, fun s run ra P hr hP => ?_⟩
  change P = run.snap.point ra at hP
  subst hP
  refine ⟨fun hp => exec_oncurve_error hr (checkedPoint_badModulus hp),
    fun hp hrange => exec_oncurve_error hr (checkedPoint_pointRange hp hrange), exec_oncurve_ok hr,
    fun hp hinf => ?_, fun hp hreset => ?_⟩
  · have hpoint : run.snap.point ra = .identity := point_of_inf hinf
    rw [exec_oncurve_ok hr hp (by rw [hpoint]; rfl), hpoint]
    rfl
  · have hpoint : run.snap.point ra = .coord 0 0 := point_of_reset hreset
    have hp0 : 0 < run.snap.p := Nat.pos_of_ne_zero hp
    have hvalue : ecOnCurve run.snap.curve (.coord 0 0) = decide (run.snap.b % run.snap.p = 0) := by
      rw [Bool.eq_iff_iff, ecOnCurve_coord_iff, decide_eq_true_eq]
      simp [Snapshot.curve, eq_comm]
    rw [exec_oncurve_ok hr hp (by rw [hpoint, inRange_coord_iff]; exact ⟨hp0, hp0⟩), hpoint, hvalue]

/-- Settles O21: PADD ends as `ec_add` does on its two checked operands. -/
theorem paddCommand : Obligations.PaddCommand := by
  refine ⟨plainEncodedAs_padd, fun c P x1 y1 x2 y2 hx1 _ hx2 _ => ?_, fun s run rd ra rb P Q hr hP hQ => ?_⟩
  · have : NeZero c.p := ⟨by omega⟩
    refine ⟨identity_ecAdd c P, ecAdd_identity c P, ?_, ?_, fun hx => ?_⟩
    · rintro rfl rfl
      exact ecAdd_self c _
    · rintro rfl hy
      exact ecAdd_of_y_ne c x1 hy
    · rw [ecAdd_of_x_ne c y1 y2 hx]
      exact exists_chordPoint_eq y1 y2 (fieldSub_ne_zero hx2 hx1 hx.symm)
  · change P = run.snap.point ra at hP
    change Q = run.snap.point rb at hQ
    subst hP hQ
    refine ⟨fun hp => ?_, exec_padd_pointRange hr, fun hp hP hQ => ⟨fun e he => ?_, fun V hV => ?_⟩⟩
    · exact (exec_padd_eq hr).trans (finish_checkedPoint_error rd (checkedPoint_badModulus hp))
    · obtain rfl : e = .divByZero := ecAdd_error he
      obtain ⟨heq, hdouble⟩ := eq_and_ecDouble_error_of_ecAdd_error hP hQ he
      obtain ⟨heven, -⟩ := even_and_half_of_ecDouble_error hP hdouble
      exact ⟨rfl, heven, heq, (exec_padd_inRange hr hp hP hQ).trans (finish_toPoint_error rd he)⟩
    · exact (exec_padd_inRange hr hp hP hQ).trans (finish_toPoint_ok rd hV)

/-- Settles O22: PDBL ends as `ec_double` does on its checked operand. -/
theorem pdblCommand : Obligations.PdblCommand := by
  refine ⟨plainEncodedAs_pdbl, fun c x y hc => ?_, fun s run rd ra P hr hP => ?_⟩
  · have : NeZero c.p := ⟨hc.ne'⟩
    refine ⟨rfl, fun hy => if_pos hy, ecDouble_of_two_mul_mod x, fun hy hmod => ?_⟩
    rw [ecDouble_of_ne_zero c x hy]
    exact exists_tangentPoint_eq x hmod
  · change P = run.snap.point ra at hP
    subst hP
    refine ⟨fun hp => ?_, fun hp hrange => ?_, fun hp hP => ⟨fun x heven hx => ?_, fun e he => ?_, fun V hV => ?_⟩⟩
    · exact (exec_pdbl_eq hr).trans (finish_checkedPoint_error rd (checkedPoint_badModulus hp))
    · exact (exec_pdbl_eq hr).trans (finish_checkedPoint_error rd (checkedPoint_pointRange hp hrange))
    · have hfail : ecDouble run.snap.curve (.coord x (run.snap.p / 2)) = .error .divByZero :=
        ecDouble_of_two_mul_mod x (by omega) (by rw [Nat.mul_div_cancel' (Nat.dvd_of_mod_eq_zero heven)]; exact Nat.mod_self _)
      exact (exec_pdbl_inRange hr hp hP).trans (finish_toPoint_error rd (hx ▸ hfail))
    · obtain rfl : e = .divByZero := ecDouble_error he
      obtain ⟨heven, hhalf⟩ := even_and_half_of_ecDouble_error hP he
      exact ⟨rfl, heven, hhalf, (exec_pdbl_inRange hr hp hP).trans (finish_toPoint_error rd he)⟩
    · exact (exec_pdbl_inRange hr hp hP).trans (finish_toPoint_ok rd hV)

/-- Settles O23: PMUL, from wherever its accumulators stand, ends as `ec_scalar_mult` does on its checked operand. -/
theorem pmulCommand : Obligations.PmulCommand := by
  refine ⟨plainEncodedAs_pmul, fun s run rd ra rb P hr hm hP => ?_⟩
  change P = run.snap.point ra at hP
  subst hP
  refine ⟨fun hp => ?_, fun hp hrange => ?_, fun hp hP => ⟨fun e he => ?_, fun V hV => ?_⟩⟩
  · exact (exec_pmul_eq hr).trans (finish_checkedPoint_error rd (checkedPoint_badModulus hp))
  · exact (exec_pmul_eq hr).trans (finish_checkedPoint_error rd (checkedPoint_pointRange hp hrange))
  · obtain rfl : e = .divByZero := ecScalarMult_error he
    exact ⟨rfl, (exec_pmul_inRange hr hm hp hP).trans (finish_toPoint_error rd he)⟩
  · exact (exec_pmul_inRange hr hm hp hP).trans (finish_toPoint_ok rd hV)

end Sys2Proof.Proofs
end

section
/-! PROOFS. The ECDSA functions (42_ecdsa.md R104 to R107, R110, R113): what each check finds, the attempt's formulas, and `ecdsa_verify`
as a bind of its two products and their sum. -/

namespace Sys2Proof.Proofs

open Sys2Proof Sys2Proof.Machine Sys2Proof.Laws

/-! ### The checks and the nonce (42_ecdsa.md R104, R106, R107) -/

section

variable {S : Snapshot}

theorem rangeCheck_of_inRange {P : Point} (h : P.inRange S.p = true) : S.rangeCheck P = .ok () := if_pos h

theorem rangeCheck_pointRange {P : Point} (h : P.inRange S.p = false) : S.rangeCheck P = .error .pointRange :=
  if_neg (by rw [h]; exact Bool.false_ne_true)

theorem checkedGen_of_inRange (h : S.gen.inRange S.p = true) : S.checkedGen = .ok S.gen := by
  rw [Snapshot.checkedGen, rangeCheck_of_inRange h]
  rfl

theorem checkedGen_pointRange (h : S.gen.inRange S.p = false) : S.checkedGen = .error .pointRange := by
  rw [Snapshot.checkedGen, rangeCheck_pointRange h]
  rfl

theorem checkP_of_eq_zero (h : S.p = 0) : S.checkP = .error .badModulus := if_pos h

theorem checkP_of_ne_zero (h : S.p ≠ 0) : S.checkP = .ok () := if_neg h

theorem checkN_of_lt_two (h : S.n < 2) : S.checkN = .error .badOrder := if_pos h

theorem checkN_of_two_le (h : 2 ≤ S.n) : S.checkN = .ok () := if_neg (by omega)

theorem pubkeyChecks_badModulus (hp : S.p = 0) : S.pubkeyChecks = .error .badModulus := by
  rw [Snapshot.pubkeyChecks, checkP_of_eq_zero hp, error_bind]

theorem pubkeyChecks_of_ne_zero (hp : S.p ≠ 0) : S.pubkeyChecks = S.checkedGen := by
  rw [Snapshot.pubkeyChecks, checkP_of_ne_zero hp, ok_bind]

theorem nonceCommandChecks_badModulus (hp : S.p = 0) : S.nonceCommandChecks = .error .badModulus := by
  rw [Snapshot.nonceCommandChecks, checkP_of_eq_zero hp, error_bind]

theorem nonceCommandChecks_badOrder (hp : S.p ≠ 0) (hn : S.n < 2) : S.nonceCommandChecks = .error .badOrder := by
  rw [Snapshot.nonceCommandChecks, checkP_of_ne_zero hp, ok_bind, checkN_of_lt_two hn, error_bind]

theorem nonceCommandChecks_pointRange (hp : S.p ≠ 0) (hn : 2 ≤ S.n) (hG : S.gen.inRange S.p = false) :
    S.nonceCommandChecks = .error .pointRange := by
  rw [Snapshot.nonceCommandChecks, checkP_of_ne_zero hp, ok_bind, checkN_of_two_le hn, ok_bind, checkedGen_pointRange hG, error_bind]

/-- With the moduli and the generator in order, the host nonce is the last check. -/
theorem nonceCommandChecks_of_inRange (hp : S.p ≠ 0) (hn : 2 ≤ S.n) (hG : S.gen.inRange S.p = true) :
    S.nonceCommandChecks = S.nonceCheck >>= fun _ => .ok S.gen := by
  rw [Snapshot.nonceCommandChecks, checkP_of_ne_zero hp, ok_bind, checkN_of_two_le hn, ok_bind, checkedGen_of_inRange hG, ok_bind]
  rfl

theorem nonceCommandChecks_nonceRange (hp : S.p ≠ 0) (hn : 2 ≤ S.n) (hG : S.gen.inRange S.p = true) (hsrc : S.nonceSrc = true)
    (hk : S.kin = 0 ∨ S.n ≤ S.kin) : S.nonceCommandChecks = .error .nonceRange := by
  have hout : ¬ (1 ≤ S.kin ∧ S.kin ≤ S.n - 1) := by omega
  rw [nonceCommandChecks_of_inRange hp hn hG, Snapshot.nonceCheck, if_pos ⟨hsrc, hout⟩, error_bind]

theorem nonceCommandChecks_of_nonce (hp : S.p ≠ 0) (hn : 2 ≤ S.n) (hG : S.gen.inRange S.p = true)
    (hk : S.nonceSrc = true → 1 ≤ S.kin ∧ S.kin ≤ S.n - 1) : S.nonceCommandChecks = .ok S.gen := by
  rw [nonceCommandChecks_of_inRange hp hn hG, Snapshot.nonceCheck, if_neg fun ⟨hsrc, hout⟩ => hout (hk hsrc), ok_bind]

theorem nonceCommandChecks_of_rng (hp : S.p ≠ 0) (hn : 2 ≤ S.n) (hG : S.gen.inRange S.p = true) (hsrc : S.nonceSrc = false) :
    S.nonceCommandChecks = .ok S.gen :=
  nonceCommandChecks_of_nonce hp hn hG fun h => by cases hsrc.symm.trans h

end

section

variable {run : Running}

theorem draw_host (hsrc : run.snap.nonceSrc = true) : run.draw = .got run.snap.kin := if_pos hsrc

theorem draw_unasked (hsrc : run.snap.nonceSrc = false) (h : run.progress.nonce = .unasked) : run.draw = .ask := by
  simp [Running.draw, hsrc, h]

theorem draw_requested (hsrc : run.snap.nonceSrc = false) (h : run.progress.nonce = .requested) : run.draw = .wait := by
  simp [Running.draw, hsrc, h]

theorem draw_answered {k : Nat} (hsrc : run.snap.nonceSrc = false) (h : run.progress.nonce = .answered k) : run.draw = .got k := by
  simp [Running.draw, hsrc, h]

/-- Where the nonce k comes from, for KEYGEN and SIGN alike: K_IN in range, or the RNG's answer. -/
theorem checks_and_draw_of_nonce {k : Nat} (hp : run.snap.p ≠ 0) (hn : 2 ≤ run.snap.n) (hG : run.snap.gen.inRange run.snap.p = true)
    (hk : (run.snap.nonceSrc = true ∧ k = run.snap.kin ∧ 1 ≤ k ∧ k ≤ run.snap.n - 1) ∨
      (run.snap.nonceSrc = false ∧ run.progress.nonce = .answered k)) :
    run.snap.nonceCommandChecks = .ok run.snap.gen ∧ run.draw = .got k := by
  rcases hk with ⟨hsrc, rfl, hk⟩ | ⟨hsrc, hans⟩
  · exact ⟨nonceCommandChecks_of_nonce hp hn hG fun _ => hk, draw_host hsrc⟩
  · exact ⟨nonceCommandChecks_of_rng hp hn hG hsrc, draw_answered hsrc hans⟩

end

/-! ### `sign_attempt` (42_ecdsa.md R110) -/

section

variable {c : Curve} {n z d k : Nat} {G : Point}

theorem signAttempt_of_error {e : CmdError} (h : ecScalarMult c G k = .error e) : signAttempt c n G z d k = .error e := by
  rw [signAttempt, h, error_bind]

theorem signAttempt_of_ok {R : Point} (h : ecScalarMult c G k = .ok R) : signAttempt c n G z d k = signFromPoint n z d k R := by
  rw [signAttempt, h, ok_bind]

/-- The rejection with r = 0. -/
theorem signFromPoint_of_mod_eq_zero {x y : Nat} (hx : x % n = 0) : signFromPoint n z d k (.coord x y) = .ok none := if_pos hx

theorem signFromPoint_of_mod_ne_zero {x y : Nat} (hx : x % n ≠ 0) : signFromPoint n z d k (.coord x y) =
    (fun v => if v = 0 then none else some (x % n, v)) <$> fieldDiv n (fieldAdd n z (fieldMul n (x % n) d)) k := if_neg hx

/-- A signature comes from a point that is not Identity, with r and s not 0. -/
theorem signFromPoint_some {R : Point} {r v : Nat} (h : signFromPoint n z d k R = .ok (some (r, v))) :
    ∃ x y, R = .coord x y ∧ r = x % n ∧ r ≠ 0 ∧ fieldDiv n (fieldAdd n z (fieldMul n r d)) k = .ok v ∧ v ≠ 0 := by
  cases R with
  | identity => cases h
  | coord x y =>
    by_cases hx : x % n = 0
    · rw [signFromPoint_of_mod_eq_zero hx] at h
      cases h
    · rw [signFromPoint_of_mod_ne_zero hx] at h
      cases hdiv : fieldDiv n (fieldAdd n z (fieldMul n (x % n) d)) k with
      | error e => rw [hdiv] at h; cases h
      | ok u =>
        by_cases hu : u = 0
        · simp [hdiv, hu] at h
        · obtain ⟨rfl, rfl⟩ : x % n = r ∧ u = v := by simpa [hdiv, hu] using h
          exact ⟨x, y, rfl, rfl, hx, hdiv, hu⟩

theorem mod_ne_zero_of_pos_of_lt (hk : 1 ≤ k) (hkn : k < n) : k % n ≠ 0 := by
  rw [Nat.mod_eq_of_lt hkn]
  omega

end

/-- Settles O27: a nonce in [1, n-1] is not 0 mod n, so its division has a value. -/
theorem signAttemptFormula : Obligations.SignAttemptFormula := by
  intro c n G z d k hn hk hkn
  have hmod : k % n ≠ 0 := mod_ne_zero_of_pos_of_lt hk (by omega)
  refine ⟨fun e => signAttempt_of_error, fun h => signAttempt_of_ok h, fun x y h => ?_⟩
  rw [signAttempt_of_ok h]
  refine ⟨signFromPoint_of_mod_eq_zero, fun hx => ⟨_, _, fieldInv_of_mod_ne_zero hmod, rfl, fun hv => ?_, fun hv => ?_⟩⟩
  · rw [signFromPoint_of_mod_ne_zero hx, fieldDiv_of_mod_ne_zero _ hmod]
    exact congrArg Except.ok (if_pos hv)
  · rw [signFromPoint_of_mod_ne_zero hx, fieldDiv_of_mod_ne_zero _ hmod]
    exact congrArg Except.ok (if_neg hv)

/-! ### `ecdsa_verify` (42_ecdsa.md R113) -/

/-- The verdict on the point sum: its x mod n against r, and false for Identity. -/
def pointVerdict (n r : Nat) : Point → Bool
  | .identity => false
  | .coord x _ => decide (x % n = r)

theorem verifyVerdict_eq (c : Curve) (n r : Nat) (P1 P2 : Point) :
    verifyVerdict c n r P1 P2 = pointVerdict n r <$> ecAdd c P1 P2 := by
  rw [verifyVerdict]
  rcases ecAdd c P1 P2 with e | _ | ⟨x, y⟩ <;> rfl

section

variable {S : Snapshot} {H r s : Nat} {Q : Point}

theorem sigOutOfRange_iff (n r s : Nat) : sigOutOfRange n r s = true ↔ r = 0 ∨ n ≤ r ∨ s = 0 ∨ n ≤ s := by
  simp [sigOutOfRange, or_assoc]

theorem ecdsaVerify_outOfRange (h : r = 0 ∨ S.n ≤ r ∨ s = 0 ∨ S.n ≤ s) : ecdsaVerify S H r s Q = .ok false := by
  rw [ecdsaVerify, verifyPlan, if_pos ((sigOutOfRange_iff _ _ _).mpr h)]
  rfl

/-- The point checks come after the range test. -/
theorem ecdsaVerify_of_range (h : ¬ (r = 0 ∨ S.n ≤ r ∨ s = 0 ∨ S.n ≤ s)) : ecdsaVerify S H r s Q =
    S.checkedGen >>= fun G => S.rangeCheck Q >>= fun _ => fieldInv S.n s >>= fun w =>
      ecScalarMult S.curve G (H % S.n * w % S.n) >>= fun P1 => ecScalarMult S.curve Q (r * w % S.n) >>= fun P2 =>
        pointVerdict S.n r <$> ecAdd S.curve P1 P2 := by
  simp only [ecdsaVerify, verifyPlan, if_neg ((sigOutOfRange_iff _ _ _).not.mpr h), bind_assoc, pure_bind, verifyOutcome, firstMul,
    secondMul, verifyVerdict_eq, fieldMul]

theorem ecdsaVerify_pointRange (h : ¬ (r = 0 ∨ S.n ≤ r ∨ s = 0 ∨ S.n ≤ s)) (hP : (S.gen.inRange S.p && Q.inRange S.p) = false) :
    ecdsaVerify S H r s Q = .error .pointRange := by
  rw [ecdsaVerify_of_range h]
  cases hG : S.gen.inRange S.p with
  | false => rw [checkedGen_pointRange hG, error_bind]
  | true =>
    have hQ : Q.inRange S.p = false := by rwa [hG, Bool.true_and] at hP
    rw [checkedGen_of_inRange hG, ok_bind, rangeCheck_pointRange hQ, error_bind]

/-- With everything in range, the verdict is the sum's, with the inverse w of s. -/
theorem ecdsaVerify_inRange {w : Nat} (h : ¬ (r = 0 ∨ S.n ≤ r ∨ s = 0 ∨ S.n ≤ s)) (hG : S.gen.inRange S.p = true)
    (hQ : Q.inRange S.p = true) (hw : fieldInv S.n s = .ok w) : ecdsaVerify S H r s Q =
      ecScalarMult S.curve S.gen (H % S.n * w % S.n) >>= fun P1 => ecScalarMult S.curve Q (r * w % S.n) >>= fun P2 =>
        pointVerdict S.n r <$> ecAdd S.curve P1 P2 := by
  rw [ecdsaVerify_of_range h, checkedGen_of_inRange hG, ok_bind, rangeCheck_of_inRange hQ, ok_bind, hw, ok_bind]

end

/-- Settles O30: the range test decides first, then the point checks, and s in [1, n-1] has its inverse. -/
theorem ecdsaVerifyFunction : Obligations.EcdsaVerifyFunction := by
  intro S H r s Q _ _
  refine ⟨ecdsaVerify_outOfRange, fun _ _ _ _ => ecdsaVerify_pointRange (by omega), fun _ _ hs hsn hG hQ => ?_⟩
  have hw := fieldInv_of_mod_ne_zero (mod_ne_zero_of_pos_of_lt hs hsn)
  refine ⟨_, hw, ?_⟩
  rw [ecdsaVerify_inRange (by omega) hG hQ hw]
  refine ⟨fun e h1 => by rw [h1, error_bind], fun P1 e h1 h2 => by rw [h1, ok_bind, h2, error_bind], fun P1 P2 h1 h2 => ?_⟩
  rw [h1, ok_bind, h2, ok_bind]
  exact ⟨fun e h => by rw [h]; rfl, fun h => by rw [h]; rfl, fun x y h => by rw [h]; rfl⟩

end Sys2Proof.Proofs
end

section
/-! PROOFS. The ECDSA commands (42_ecdsa.md R108, R109, R111, R112, R114): a command's checks fail, or it asks for its nonce,
or it ends as its function does. -/

namespace Sys2Proof.Proofs

open Sys2Proof Sys2Proof.Machine Sys2Proof.Laws

section

variable {s : State} {run : Running} {rd ra rb rc : RegIdx}

/-! ### PUBKEY (42_ecdsa.md R108) -/

theorem exec_pubkey_eq (hr : s.engine = .busy run) :
    exec (.pubkey rd ra) s = s.finish (Commit.toPoint rd <$>
      (run.snap.pubkeyChecks >>= fun G => firstMul run.snap.curve G (run.snap.scalar ra) run.progress.mul)) := by
  simp only [exec, execPubkey, withCommand_busy hr, bind_pure_comp, map_bind]

theorem exec_pubkey_error (hr : s.engine = .busy run) {e : CmdError} (h : run.snap.pubkeyChecks = .error e) :
    exec (.pubkey rd ra) s = .next (s.raise e none) :=
  (exec_pubkey_eq hr).trans (finish_toPoint_error rd (by rw [h, error_bind]))

theorem exec_pubkey_inRange (hr : s.engine = .busy run) (hm : MulFaithful (.pubkey rd ra) run) (hp : run.snap.p ≠ 0)
    (hG : run.snap.gen.inRange run.snap.p = true) :
    exec (.pubkey rd ra) s = s.finish (Commit.toPoint rd <$> ecScalarMult run.snap.curve run.snap.gen (run.snap.scalar ra)) := by
  have hcheck : run.snap.pubkeyChecks = .ok run.snap.gen := (pubkeyChecks_of_ne_zero hp).trans (checkedGen_of_inRange hG)
  have hops : mulOperands (.pubkey rd ra) run = some ((run.snap.gen, run.snap.scalar ra), none) := by simp only [mulOperands, hcheck]
  rw [exec_pubkey_eq hr, hcheck, ok_bind, firstMul_eq_ecScalarMult hm hops]

/-! ### KEYGEN (42_ecdsa.md R109) -/

/-- The key pair (d, d·G) as KEYGEN writes it. -/
def keyPair (rd : RegIdx) (d : Nat) (Q : Point) : Commit := { scalars := [(rd, d)], point := some (rd, Q) }

theorem exec_keygen_error (hr : s.engine = .busy run) {e : CmdError} (hc : run.snap.nonceCommandChecks = .error e) :
    exec (.keygen rd) s = .next (s.raise e none) := by
  simp only [exec, execKeygen, withCommand_busy hr, hc]

theorem exec_keygen_ask (hr : s.engine = .busy run) {G : Point} (hc : run.snap.nonceCommandChecks = .ok G) (hd : run.draw = .ask) :
    exec (.keygen rd) s = .next (s.requestNonce run 0) := by
  simp only [exec, execKeygen, withCommand_busy hr, hc, hd]

theorem exec_keygen_wait (hr : s.engine = .busy run) {G : Point} (hc : run.snap.nonceCommandChecks = .ok G) (hd : run.draw = .wait) :
    exec (.keygen rd) s = .next s := by
  simp only [exec, execKeygen, withCommand_busy hr, hc, hd]

theorem exec_keygen_got (hr : s.engine = .busy run) (hm : MulFaithful (.keygen rd) run) {G : Point} {d : Nat}
    (hc : run.snap.nonceCommandChecks = .ok G) (hd : run.draw = .got d) :
    exec (.keygen rd) s = s.finish (keyPair rd d <$> ecScalarMult run.snap.curve G d) := by
  have hops : mulOperands (.keygen rd) run = some ((G, d), none) := by simp only [mulOperands, hc, hd]
  simp only [exec, execKeygen, withCommand_busy hr, hc, hd, firstMul_eq_ecScalarMult hm hops, bind_pure_comp]
  rfl

/-! ### SIGN (42_ecdsa.md R111, R112) -/

theorem exec_sign_error (hr : s.engine = .busy run) {e : CmdError} (hc : run.snap.nonceCommandChecks = .error e) :
    exec (.sign rd ra rb rc) s = .next (s.raise e (some 0)) := by
  simp only [exec, execSign, withCommand_busy hr, hc]

theorem exec_sign_ask (hr : s.engine = .busy run) {G : Point} (hc : run.snap.nonceCommandChecks = .ok G) (hd : run.draw = .ask) :
    exec (.sign rd ra rb rc) s = .next (s.requestNonce run run.progress.rejected) := by
  simp only [exec, execSign, withCommand_busy hr, hc, hd]

theorem exec_sign_wait (hr : s.engine = .busy run) {G : Point} (hc : run.snap.nonceCommandChecks = .ok G) (hd : run.draw = .wait) :
    exec (.sign rd ra rb rc) s = .next s := by
  simp only [exec, execSign, withCommand_busy hr, hc, hd]

theorem exec_sign_got (hr : s.engine = .busy run) {G : Point} {k : Nat} (hc : run.snap.nonceCommandChecks = .ok G)
    (hd : run.draw = .got k) : exec (.sign rd ra rb rc) s = signSettle rd rc s run (run.signOutcome G ra rb k) := by
  simp only [exec, execSign, withCommand_busy hr, hc, hd]

/-- A faithful attempt is `sign_attempt` of the digest reduced mod n and the key. -/
theorem signOutcome_eq_signAttempt (hm : MulFaithful (.sign rd ra rb rc) run) {G : Point} {k : Nat}
    (hc : run.snap.nonceCommandChecks = .ok G) (hd : run.draw = .got k) : run.signOutcome G ra rb k =
      signAttempt run.snap.curve run.snap.n G (run.snap.scalar ra % run.snap.n) (run.snap.scalar rb) k := by
  have hops : mulOperands (.sign rd ra rb rc) run = some ((G, k), none) := by simp only [mulOperands, hc, hd]
  rw [Running.signOutcome, firstMul_eq_ecScalarMult hm hops, signAttempt]

/-- The attempt's number and the budget, from the source of the nonce. -/
theorem signTurn_and_signBudget {k t budget : Nat}
    (hk : (run.snap.nonceSrc = true ∧ k = run.snap.kin ∧ 1 ≤ k ∧ k ≤ run.snap.n - 1 ∧ t = 1 ∧ budget = 1) ∨
      (run.snap.nonceSrc = false ∧ run.progress.nonce = .answered k ∧ t = run.progress.rejected + 1 ∧
        budget = s.params.maxSignAttempts)) : t = signTurn run ∧ budget = signBudget s run := by
  rcases hk with ⟨hsrc, -, -, -, rfl, rfl⟩ | ⟨hsrc, -, rfl, rfl⟩ <;> simp [signTurn, signBudget, hsrc]

/-! ### VERIFY (42_ecdsa.md R114) -/

theorem exec_verify_eq (hr : s.engine = .busy run) : exec (.verify rd ra rb rc) s = s.finish (Commit.flag <$>
    (verifyStart rd ra rb rc run.snap >>= verifyOutcome run.snap (run.snap.scalar rb) run.progress.mul)) := by
  simp only [exec, execVerify, withCommand_busy hr, bind_pure_comp, map_bind]

theorem exec_verify_error (hr : s.engine = .busy run) {e : CmdError} (h : verifyStart rd ra rb rc run.snap = .error e) :
    exec (.verify rd ra rb rc) s = .next (s.raise e none) := by
  rw [exec_verify_eq hr, h]
  rfl

theorem verifyStart_badModulus {S : Snapshot} (hp : S.p = 0) : verifyStart rd ra rb rc S = .error .badModulus := by
  rw [verifyStart, checkP_of_eq_zero hp, error_bind]

theorem verifyStart_badOrder {S : Snapshot} (hp : S.p ≠ 0) (hn : S.n < 2) : verifyStart rd ra rb rc S = .error .badOrder := by
  rw [verifyStart, checkP_of_ne_zero hp, ok_bind, checkN_of_lt_two hn, error_bind]

theorem verifyStart_eq_verifyPlan {S : Snapshot} (hp : S.p ≠ 0) (hn : 2 ≤ S.n) :
    verifyStart rd ra rb rc S = verifyPlan S (S.scalar ra) (S.scalar rb) (S.scalar rc) (S.point rd) := by
  rw [verifyStart, checkP_of_ne_zero hp, ok_bind, checkN_of_two_le hn, ok_bind]

/-- Faithful products give the verdict that products from the start give. -/
theorem verifyOutcome_eq_notBegun (hm : MulFaithful (.verify rd ra rb rc) run) {o : Option VerifyPlan} (r : Nat)
    (ho : verifyStart rd ra rb rc run.snap = .ok o) :
    verifyOutcome run.snap r run.progress.mul o = verifyOutcome run.snap r .notBegun o := by
  cases o with
  | none => rfl
  | some w =>
    have hops : mulOperands (.verify rd ra rb rc) run = some ((w.gen, w.u1), some (w.key, w.u2)) := by simp only [mulOperands, ho]
    simp only [MulFaithful, hops] at hm
    obtain ⟨hfirst, hsecond⟩ := hm
    simp only [verifyOutcome, hfirst, hsecond _ _ rfl]
    rfl

/-- With its moduli in order, VERIFY ends as `ecdsa_verify` does. -/
theorem exec_verify_of_moduli (hr : s.engine = .busy run) (hm : MulFaithful (.verify rd ra rb rc) run) (hp : run.snap.p ≠ 0)
    (hn : 2 ≤ run.snap.n) : exec (.verify rd ra rb rc) s = s.finish (Commit.flag <$>
      ecdsaVerify run.snap (run.snap.scalar ra) (run.snap.scalar rb) (run.snap.scalar rc) (run.snap.point rd)) := by
  rw [exec_verify_eq hr, ecdsaVerify, ← verifyStart_eq_verifyPlan hp hn]
  cases ho : verifyStart rd ra rb rc run.snap with
  | error e => rfl
  | ok o => rw [ok_bind, ok_bind, verifyOutcome_eq_notBegun hm _ ho]

theorem exec_verify_verdict (hr : s.engine = .busy run) (hm : MulFaithful (.verify rd ra rb rc) run) (hp : run.snap.p ≠ 0)
    (hn : 2 ≤ run.snap.n) {v : Bool}
    (hv : ecdsaVerify run.snap (run.snap.scalar ra) (run.snap.scalar rb) (run.snap.scalar rc) (run.snap.point rd) = .ok v) :
    exec (.verify rd ra rb rc) s = .next { s with status := { s.status with done := true, result := v }, engine := .idle } := by
  rw [exec_verify_of_moduli hr hm hp hn, hv]
  rfl

end

/-- Settles O24: PUBKEY, from wherever its accumulators stand, ends as `ec_scalar_mult` of the checked generator does. -/
theorem pubkeyCommand : Obligations.PubkeyCommand := by
  refine ⟨plainEncodedAs_pubkey, fun s run rd ra hr hm => ⟨fun hp => ?_, fun hp hG => ?_, fun hp hG => ⟨fun e he => ?_, fun V hV => ?_⟩⟩⟩
  · exact exec_pubkey_error hr (pubkeyChecks_badModulus hp)
  · exact exec_pubkey_error hr ((pubkeyChecks_of_ne_zero hp).trans (checkedGen_pointRange hG))
  · obtain rfl : e = .divByZero := ecScalarMult_error he
    exact ⟨rfl, (exec_pubkey_inRange hr hm hp hG).trans (finish_toPoint_error rd he)⟩
  · exact (exec_pubkey_inRange hr hm hp hG).trans (finish_toPoint_ok rd hV)

/-- Settles O25: the checks fail in their order, and the nonce is asked for, awaited or multiplied by. -/
theorem keygenCommand : Obligations.KeygenCommand := by
  refine ⟨plainEncodedAs_keygen, fun s run rd hr hm =>
    ⟨fun hp => exec_keygen_error hr (nonceCommandChecks_badModulus hp),
      fun hp hn => exec_keygen_error hr (nonceCommandChecks_badOrder hp hn),
      fun hp hn hG => exec_keygen_error hr (nonceCommandChecks_pointRange hp hn hG),
      fun hp hn hG hsrc hk => exec_keygen_error hr (nonceCommandChecks_nonceRange hp hn hG hsrc hk),
      fun hp hn hG hsrc h => exec_keygen_ask hr (nonceCommandChecks_of_rng hp hn hG hsrc) (draw_unasked hsrc h),
      fun hp hn hG hsrc h => exec_keygen_wait hr (nonceCommandChecks_of_rng hp hn hG hsrc) (draw_requested hsrc h),
      fun d hp hn hG hd => ?_⟩⟩
  obtain ⟨hc, hdraw⟩ := checks_and_draw_of_nonce hp hn hG hd
  have hexec := exec_keygen_got hr hm hc hdraw
  refine ⟨fun e he => ?_, fun V hV => ?_⟩
  · obtain rfl : e = .divByZero := ecScalarMult_error he
    exact ⟨rfl, hexec.trans (congrArg (fun o => s.finish (keyPair rd d <$> o)) he)⟩
  · exact hexec.trans (congrArg (fun o => s.finish (keyPair rd d <$> o)) hV)

/-- Settles O26: the checks fail in their order, and an attempt with the nonce drawn settles as `sign_attempt` says. -/
theorem signCommand : Obligations.SignCommand := by
  refine ⟨plainEncodedAs_sign, fun s run rd ra rb rc hr hm =>
    ⟨fun hp => exec_sign_error hr (nonceCommandChecks_badModulus hp),
      fun hp hn => exec_sign_error hr (nonceCommandChecks_badOrder hp hn),
      fun hp hn hG => exec_sign_error hr (nonceCommandChecks_pointRange hp hn hG),
      fun hp hn hG hsrc hk => exec_sign_error hr (nonceCommandChecks_nonceRange hp hn hG hsrc hk),
      fun hp hn hG hsrc h => exec_sign_ask hr (nonceCommandChecks_of_rng hp hn hG hsrc) (draw_unasked hsrc h),
      fun hp hn hG hsrc h => exec_sign_wait hr (nonceCommandChecks_of_rng hp hn hG hsrc) (draw_requested hsrc h),
      fun k t budget hp hn hG hk => ?_⟩⟩
  obtain ⟨rfl, rfl⟩ := signTurn_and_signBudget hk
  obtain ⟨hc, hdraw⟩ := checks_and_draw_of_nonce hp hn hG
    (hk.imp (fun ⟨hsrc, hkin, h1, hkn, _⟩ => ⟨hsrc, hkin, h1, hkn⟩) fun ⟨hsrc, hans, _⟩ => ⟨hsrc, hans⟩)
  have hexec := exec_sign_got (rd := rd) (ra := ra) (rb := rb) (rc := rc) hr hc hdraw
  rw [signOutcome_eq_signAttempt hm hc hdraw] at hexec
  refine ⟨fun e he => hexec.trans (congrArg _ he), fun r v hv => hexec.trans (congrArg _ hv), fun hrej => ?_⟩
  have hsettle := hexec.trans (congrArg _ hrej)
  exact ⟨fun hlt => hsettle.trans (if_pos hlt), fun hle => hsettle.trans (if_neg (by omega))⟩

/-- Settles O31: VERIFY ends with the error of its checks or as `ecdsa_verify` does. -/
theorem verifyCommand : Obligations.VerifyCommand := by
  refine ⟨plainEncodedAs_verify, fun s run rd ra rb rc Q hr hm hQ => ?_⟩
  change Q = run.snap.point rd at hQ
  subst hQ
  refine ⟨fun hp => exec_verify_error hr (verifyStart_badModulus hp), fun hp hn => exec_verify_error hr (verifyStart_badOrder hp hn),
    fun hp hn => ⟨fun e he => ?_, fun v hv => exec_verify_verdict hr hm hp hn hv⟩⟩
  exact (exec_verify_of_moduli hr hm hp hn).trans (congrArg (fun o => s.finish (Commit.flag <$> o)) he)

end Sys2Proof.Proofs
end

section
/-! PROOFS. What a SIGN that succeeds leaves (42_ecdsa.md R112), and the signing loop of R111 as the engine runs it from one RNG answer to the next. -/

namespace Sys2Proof.Proofs

open Sys2Proof Sys2Proof.Machine Sys2Proof.Laws

/-! ### What a successful SIGN leaves (42_ecdsa.md R112) -/

section

variable {s t : State} {run : Running} {rd ra rb rc : RegIdx}

/-- The commit of attempt t's signature. -/
def signatureCommit (rd rc : RegIdx) (r v t : Nat) : Commit := { scalars := [(rd, r), (rc, v)], attempts := some t }

theorem signatureCommit_r_rc (s : State) (rd rc : RegIdx) (r v t : Nat) : (s.commit (signatureCommit rd rc r v t)).r[rc] = v := by
  simp [signatureCommit, writeScalars]

theorem signatureCommit_r_rd (s : State) {rd rc : RegIdx} (h : rd ≠ rc) (r v t : Nat) :
    (s.commit (signatureCommit rd rc r v t)).r[rd] = r := by
  have hne : rc.val ≠ rd.val := fun hc => h (Fin.ext hc.symm)
  simp [signatureCommit, writeScalars, Vector.getElem_set_ne _ _ hne]

/-- An attempt that ends the command without an error was neither rejected nor failed. -/
theorem signSettle_success {o : Except CmdError (Option (Nat × Nat))} (h : signSettle rd rc s run o = .next t) (hb : t.busy = false)
    (he : t.status.err = false) : ∃ r v, o = .ok (some (r, v)) ∧ t = s.commit (signatureCommit rd rc r v (signTurn run)) := by
  rcases o with e | _ | ⟨r, v⟩
  · cases h
    cases he
  · rw [signSettle] at h
    split at h
    · cases h
      cases hb
    · cases h
      cases he
  · cases h
    exact ⟨r, v, rfl, rfl⟩

/-- A SIGN that ends without an error had its preconditions met, drew a nonce and signed with it. -/
theorem exec_sign_success (hr : s.engine = .busy run) (h : exec (.sign rd ra rb rc) s = .next t)
    (hb : t.busy = false) (he : t.status.err = false) : ∃ G k r v, run.snap.nonceCommandChecks = .ok G ∧ run.draw = .got k ∧
      run.signOutcome G ra rb k = .ok (some (r, v)) ∧ t = s.commit (signatureCommit rd rc r v (signTurn run)) := by
  cases hc : run.snap.nonceCommandChecks with
  | error e =>
    cases (exec_sign_error hr hc).symm.trans h
    cases he
  | ok G =>
    cases hd : run.draw with
    | ask =>
      cases (exec_sign_ask hr hc hd).symm.trans h
      cases hb
    | wait =>
      cases (exec_sign_wait hr hc hd).symm.trans h
      rw [State.not_busy_iff, hr] at hb
      cases hb
    | got k =>
      obtain ⟨r, v, ho, ht⟩ := signSettle_success ((exec_sign_got hr hc hd).symm.trans h) hb he
      exact ⟨G, k, r, v, rfl, rfl, ho, ht⟩

end

/-- A signature's components are residues mod n, and an attempt with a zero one is rejected (42_ecdsa.md R110). -/
theorem signFromPoint_bounds {n z d k r v : Nat} {R : Point} (hn : 0 < n) (h : signFromPoint n z d k R = .ok (some (r, v))) :
    1 ≤ r ∧ r < n ∧ 1 ≤ v ∧ v < n := by
  obtain ⟨x, y, -, -, hr0, -, hv0⟩ := signFromPoint_some h
  obtain ⟨hr, hv⟩ := signFromPoint_lt hn h
  exact ⟨Nat.pos_of_ne_zero hr0, hr, Nat.pos_of_ne_zero hv0, hv⟩

/-- Settles O28: a SIGN that ends without an error leaves the signature of an attempt not rejected. -/
theorem signaturesAreInRange : Obligations.SignaturesAreInRange := by
  intro s t run rd ra rb rc hr hne _ h hb he
  obtain ⟨G, k, r, v, hc, -, ho, rfl⟩ := exec_sign_success hr h hb he
  obtain ⟨-, hn, -⟩ := nonceCommandChecks_ok hc
  obtain ⟨R, -, hR⟩ := bind_ok ho
  obtain ⟨hr1, hrn, hv1, hvn⟩ := signFromPoint_bounds (by omega) hR
  rw [signatureCommit_r_rd s hne, signatureCommit_r_rc]
  omega

/-! ### The retry loop (42_ecdsa.md R111; 20_memory.md R44) -/

/-- The running SIGN in attempt t, with the events that are left: its nonce is asked for or drawn, and t requests were issued. -/
def inAttempt (s : State) (run : Running) (nonce : NonceState) (t : Nat) (events : List Event) : State :=
  { s with
    engine := .busy { run with progress := ⟨t - 1, nonce, .notBegun⟩ }
    schedule := events
    rngRequests := s.rngRequests + t }

/-- The state a signing loop leaves, with the events that are left. -/
def signEndState (s : State) (run : Running) (rd rc : RegIdx) (rest : List Event) : SignEnd → State
  | .signature r v t => { s.commit (signatureCommit rd rc r v t) with schedule := rest, rngRequests := s.rngRequests + t }
  | .failed e t => { s.raise e (some t) with schedule := rest, rngRequests := s.rngRequests + t }
  | .waiting t => inAttempt s run .requested t rest

/-- What attempt t leads to, with the events that are left. -/
def afterAttempt (s : State) (run : Running) (rd rc : RegIdx) (t : Nat) (events : List Event) :
    Except CmdError (Option (Nat × Nat)) → State
  | .error e => signEndState s run rd rc events (.failed e t)
  | .ok (some (r, v)) => signEndState s run rd rc events (.signature r v t)
  | .ok none =>
    if t < s.params.maxSignAttempts then inAttempt s run .requested (t + 1) events
    else signEndState s run rd rc events (.failed .signFail s.params.maxSignAttempts)

/-- A run of the machine begins with a step (Host/Core.lean). -/
theorem run_step {s s' : State} (h : step s = .next s') (k : Nat) :
    Host.Core.run Sys2Proof.core (k + 1) s = Host.Core.run Sys2Proof.core k s' :=
  run_succ (M := Sys2Proof.core) (s := s) (s' := s') h k

/-- Answers that come after the command's end, and the engine's moves after them, do nothing (70_reset_and_hazards.md R138). -/
theorem run_answerEvents_of_idle {rest : List Event} (ks : List Nat) : ∀ (m : Nat) (s : State), s.engine = .idle →
    s.schedule = answerEvents m ks ++ rest → Host.Core.run Sys2Proof.core (2 * ks.length) s = .next { s with schedule := rest } := by
  induction ks with
  | nil => rintro m s - rfl; rfl
  | cons k ks ih =>
    intro m s hi hs
    let left : State := { s with schedule := answerEvents (m + 1) ks ++ rest }
    have hanswer : step s = .next { left with schedule := .run :: left.schedule } :=
      (step_cons hs).trans (rngAnswer_none (by simp [State.rngRequest, hi]) m k)
    have hmove : step { left with schedule := .run :: left.schedule } = .next left := engineRun_of_idle (s := left) hi
    exact (run_step hanswer _).trans ((run_step hmove _).trans (ih (m + 1) left hi rfl))

section

variable {s : State} {run : Running} {rd ra rb rc : RegIdx} {G : Point}

/-- The answer to the request in flight is the attempt's nonce. -/
theorem step_inAttempt_answer {t k : Nat} {events : List Event} (hk : 1 ≤ k ∧ k ≤ run.snap.n - 1) :
    step (inAttempt s run .requested t (.rng (s.rngRequests + t) k :: events)) =
      .next (inAttempt s run (.answered k) t events) :=
  (rngAnswer_requested (s := inAttempt s run .requested t events) rfl rfl k).trans (if_pos hk)

theorem signSettle_inAttempt {nonce : NonceState} {t : Nat} {events : List Event} (hsrc : run.snap.nonceSrc = false)
    (h1 : 1 ≤ t) (ht : t ≤ s.params.maxSignAttempts) (o : Except CmdError (Option (Nat × Nat))) :
    signSettle rd rc (inAttempt s run nonce t events) { run with progress := ⟨t - 1, nonce, .notBegun⟩ } o =
      .next (afterAttempt s run rd rc t events o) := by
  have hturn : signTurn { run with progress := ⟨t - 1, nonce, .notBegun⟩ } = t := by
    simp [signTurn, hsrc, Nat.sub_add_cancel h1]
  have hbudget : signBudget (inAttempt s run nonce t events) { run with progress := ⟨t - 1, nonce, .notBegun⟩ } =
      s.params.maxSignAttempts := by simp [signBudget, hsrc, inAttempt]
  rcases o with e | _ | ⟨r, v⟩
  · rw [signSettle, hturn]
    rfl
  · rw [signSettle, hturn, hbudget, afterAttempt]
    split
    case isTrue => rfl
    case isFalse hlast =>
      rw [Nat.le_antisymm (Nat.not_lt.mp hlast) ht]
      rfl
  · rw [signSettle, hturn]
    rfl

/-- The engine's move with the nonce k makes attempt t. -/
theorem step_inAttempt_run {t k : Nat} {events : List Event} (hd : decode run.word = .ok (.sign rd ra rb rc))
    (hsrc : run.snap.nonceSrc = false) (hc : run.snap.nonceCommandChecks = .ok G) (h1 : 1 ≤ t)
    (ht : t ≤ s.params.maxSignAttempts) :
    step (inAttempt s run (.answered k) t (.run :: events)) = .next (afterAttempt s run rd rc t events
      (signAttempt run.snap.curve run.snap.n G (run.snap.scalar ra % run.snap.n) (run.snap.scalar rb) k)) := by
  let run' : Running := { run with progress := ⟨t - 1, .answered k, .notBegun⟩ }
  have hr : (inAttempt s run (.answered k) t events).engine = .busy run' := rfl
  have hdraw : run'.draw = .got k := draw_answered hsrc rfl
  have houtcome := signOutcome_eq_signAttempt (run := run') (mulFaithful_notBegun (.sign rd ra rb rc) rfl) hc hdraw
  calc step (inAttempt s run (.answered k) t (.run :: events))
    _ = exec (.sign rd ra rb rc) (inAttempt s run (.answered k) t events) := engineRun_of_decode hr hd
    _ = signSettle rd rc (inAttempt s run (.answered k) t events) run' (run'.signOutcome G ra rb k) := exec_sign_got hr hc hdraw
    _ = _ := (signSettle_inAttempt hsrc h1 ht _).trans (congrArg _ (congrArg _ houtcome))

/-- From the request of attempt t on, the engine does what `sign_loop` does with the answers. -/
theorem run_inAttempt {rest : List Event} (hd : decode run.word = .ok (.sign rd ra rb rc)) (hsrc : run.snap.nonceSrc = false)
    (hc : run.snap.nonceCommandChecks = .ok G) (ks : List Nat) : ∀ t, 1 ≤ t → t ≤ s.params.maxSignAttempts →
    (∀ k ∈ ks, 1 ≤ k ∧ k ≤ run.snap.n - 1) →
    Host.Core.run Sys2Proof.core (2 * ks.length) (inAttempt s run .requested t (answerEvents (s.rngRequests + t) ks ++ rest)) =
      .next (signEndState s run rd rc rest (signLoop run.snap.curve run.snap.n G (run.snap.scalar ra % run.snap.n)
        (run.snap.scalar rb) s.params.maxSignAttempts t ks)) := by
  induction ks with
  | nil => intro t _ _ _; rfl
  | cons k ks ih =>
    intro t h1 ht hks
    obtain ⟨hk, hks⟩ := List.forall_mem_cons.mp hks
    refine (run_step (step_inAttempt_answer hk) (2 * ks.length + 1)).trans ?_
    refine (run_step (step_inAttempt_run hd hsrc hc h1 ht) (2 * ks.length)).trans ?_
    rw [signLoop]
    rcases signAttempt run.snap.curve run.snap.n G (run.snap.scalar ra % run.snap.n) (run.snap.scalar rb) k with e | _ | ⟨r, v⟩
    · exact run_answerEvents_of_idle ks _ (afterAttempt s run rd rc t _ (.error e)) rfl rfl
    · rw [afterAttempt]
      by_cases hlt : t < s.params.maxSignAttempts
      · simp only [if_pos hlt]
        exact ih (t + 1) (by omega) hlt hks
      · simp only [if_neg hlt]
        exact run_answerEvents_of_idle ks _ (signEndState s run rd rc _ (.failed .signFail s.params.maxSignAttempts)) rfl rfl
    · exact run_answerEvents_of_idle ks _ (afterAttempt s run rd rc t _ (.ok (some (r, v)))) rfl rfl

/-- An accepted SIGN with the RNG source begins with the request of attempt 1. -/
theorem step_sign_start {events : List Event} (hr : s.engine = .busy run) (hd : decode run.word = .ok (.sign rd ra rb rc))
    (hstart : run.progress = .start) (hsrc : run.snap.nonceSrc = false) (hc : run.snap.nonceCommandChecks = .ok G)
    (hs : s.schedule = .run :: events) : step s = .next (inAttempt s run .requested 1 events) := by
  have hr' : ({ s with schedule := events } : State).engine = .busy run := hr
  have hask := exec_sign_ask (rd := rd) (ra := ra) (rb := rb) (rc := rc) hr' hc (draw_unasked hsrc (by rw [hstart]; rfl))
  rw [hstart] at hask
  exact (step_cons hs).trans ((engineRun_of_decode hr' hd).trans hask)

end

/-- Settles O29: the first move asks for a nonce, and each answer makes one turn of `sign_loop`. -/
theorem signRunsTheRetryLoop : Obligations.SignRunsTheRetryLoop := by
  intro s run rd ra rb rc G answers rest hr hd hstart hsrc hc hmax hanswers hs
  rw [Nat.add_comm]
  refine (run_step (step_sign_start hr hd hstart hsrc hc hs) _).trans ?_
  refine (run_inAttempt hd hsrc hc answers 1 le_rfl hmax hanswers).trans ?_
  cases signLoop run.snap.curve run.snap.n G (run.snap.scalar ra % run.snap.n) (run.snap.scalar rb) s.params.maxSignAttempts 1 answers <;>
    rfl

end Sys2Proof.Proofs
end

section
/-! PROOFS. ECDSA on a good curve (42_ecdsa.md R114, R115): the scalars of a point of order n count mod n, so n - s gives the negated sum,
and the sum of a signature's two products is the point its nonce gave. -/

namespace Sys2Proof.Proofs

open Sys2Proof Sys2Proof.Machine Sys2Proof.Laws
open WeierstrassCurve (Affine)

/-! ### Scalars mod n -/

section

variable {A : Type} [AddGroup A] {n : Nat} {P : A}

/-- Where n • P = 0, the multiples of P depend on the scalar mod n only. -/
theorem nsmul_eq_of_natCast_eq (hP : n • P = 0) {j k : Nat} (h : (j : ZMod n) = k) : j • P = k • P :=
  nsmul_eq_nsmul_iff_modEq.mpr (((ZMod.natCast_eq_natCast_iff j k n).mp h).of_dvd (addOrderOf_dvd_of_nsmul_eq_zero hP))

theorem nsmul_eq_neg_of_natCast_eq_neg (hP : n • P = 0) {j k : Nat} (h : (j : ZMod n) = -k) : j • P = -(k • P) := by
  have hsum : ((j + k : Nat) : ZMod n) = (0 : Nat) := by rw [Nat.cast_add, h, neg_add_cancel, Nat.cast_zero]
  exact eq_neg_of_add_eq_zero_left (by rw [← add_nsmul, nsmul_eq_of_natCast_eq hP hsum, zero_nsmul])

end

section

variable {n : Nat} [Fact n.Prime]

/-- The scalar t·s⁻¹ mod n of a verification, as a residue. -/
def verifyScalar (n t s : Nat) : Nat := t * (s : ZMod n)⁻¹.val % n

theorem natCast_verifyScalar (t s : Nat) : (verifyScalar n t s : ZMod n) = t * (s : ZMod n)⁻¹ := by
  rw [verifyScalar, ZMod.natCast_mod, Nat.cast_mul, ZMod.natCast_zmod_val]

/-- With n - s for s, both scalars are negated. -/
theorem natCast_verifyScalar_sub {s : Nat} (t : Nat) (hsn : s < n) :
    (verifyScalar n t (n - s) : ZMod n) = -(verifyScalar n t s : ZMod n) := by
  rw [natCast_verifyScalar, natCast_verifyScalar, Nat.cast_sub hsn.le, ZMod.natCast_self, zero_sub, inv_neg, mul_neg]

/-- A signature's s solves `s·k = z + r·d`, so u1 + u2·d is k (42_ecdsa.md R115). -/
theorem natCast_verifyScalars_of_sign {z r d k v : Nat} (hv : fieldDiv n (fieldAdd n z (fieldMul n r d)) k = .ok v) (hv0 : v ≠ 0) :
    ((verifyScalar n z v + verifyScalar n r v * d : Nat) : ZMod n) = k := by
  have hk : k % n ≠ 0 := fun h => by simp [fieldDiv_of_mod_eq_zero _ h] at hv
  have hk0 : (k : ZMod n) ≠ 0 := natCast_ne_zero_of_mod_ne_zero hk
  rw [fieldDiv_eq_val hk0, fieldAdd_eq_val, fieldMul_eq_val, ZMod.natCast_zmod_val, ZMod.natCast_zmod_val] at hv
  obtain rfl := Except.ok.inj hv
  have hnum : (z + r * d : ZMod n) ≠ 0 := fun h => hv0 (by rw [h, zero_div, ZMod.val_zero])
  rw [Nat.cast_add, Nat.cast_mul, natCast_verifyScalar, natCast_verifyScalar, ZMod.natCast_zmod_val]
  field_simp

end

/-! ### `ecdsa_verify` in the group -/

theorem ofAffine_eq_identity {c : Curve} {A : (weierstrass c).Point} (h : ofAffine A = .identity) : A = 0 := by
  cases A with
  | zero => rfl
  | some x y hA => cases h

theorem nsmul_eq_zero_of_ecScalarMult {c : Curve} [Fact c.p.Prime] {A : (weierstrass c).Point} {n : Nat} (hodd : c.p % 2 = 1)
    (h : ecScalarMult c (ofAffine A) n = .ok .identity) : n • A = 0 := by
  rw [ecScalarMult_ofAffine hodd] at h
  exact ofAffine_eq_identity (Except.ok.inj h)

/-- Negation keeps the abscissa, and so the verdict. -/
theorem pointVerdict_neg {c : Curve} (n r : Nat) (A : (weierstrass c).Point) :
    pointVerdict n r (ofAffine (-A)) = pointVerdict n r (ofAffine A) := by
  cases A with
  | zero => rfl
  | some x y hA => rw [Affine.Point.neg_some]; rfl

section

variable {S : Snapshot} [Fact S.curve.p.Prime] [Fact S.n.Prime] {H r s : Nat} {A B : (weierstrass S.curve).Point}

/-- With a signature in range, the verdict is on u1·G + u2·Q in the group of the Weierstrass curve. -/
theorem ecdsaVerify_ofAffine (hodd : S.curve.p % 2 = 1) (hG : S.gen = ofAffine A) (hr : 1 ≤ r) (hrn : r < S.n) (hs : 1 ≤ s)
    (hsn : s < S.n) : ecdsaVerify S H r s (ofAffine B) =
      .ok (pointVerdict S.n r (ofAffine (verifyScalar S.n (H % S.n) s • A + verifyScalar S.n r s • B))) := by
  have hGrange : S.gen.inRange S.p = true := hG ▸ (on_ofAffine A).1
  have hQrange : (ofAffine B).inRange S.p = true := (on_ofAffine B).1
  rw [ecdsaVerify_inRange (by omega) hGrange hQrange (fieldInv_eq_val (mod_ne_zero_of_pos_of_lt hs hsn)), hG,
    ecScalarMult_ofAffine hodd, ok_bind, ecScalarMult_ofAffine hodd, ok_bind, ecAdd_ofAffine hodd]
  rfl

theorem ecdsaVerify_sub (hodd : S.curve.p % 2 = 1) (hG : S.gen = ofAffine A) (hA : S.n • A = 0) (hB : S.n • B = 0) (hs : 1 ≤ s)
    (hsn : s < S.n) : ecdsaVerify S H r (S.n - s) (ofAffine B) = ecdsaVerify S H r s (ofAffine B) := by
  by_cases hr : 1 ≤ r ∧ r < S.n
  · obtain ⟨hr, hrn⟩ := hr
    rw [ecdsaVerify_ofAffine hodd hG hr hrn (by omega) (by omega), ecdsaVerify_ofAffine hodd hG hr hrn hs hsn,
      nsmul_eq_neg_of_natCast_eq_neg hA (natCast_verifyScalar_sub _ hsn),
      nsmul_eq_neg_of_natCast_eq_neg hB (natCast_verifyScalar_sub _ hsn), ← neg_add, pointVerdict_neg]
  · rw [ecdsaVerify_outOfRange (by omega), ecdsaVerify_outOfRange (by omega)]

end

/-- The digest integer counts mod n. -/
theorem ecdsaVerify_congr {S : Snapshot} {H H' r s : Nat} {Q : Point} (h : H % S.n = H' % S.n) :
    ecdsaVerify S H r s Q = ecdsaVerify S H' r s Q := by
  simp only [ecdsaVerify, verifyPlan, h]

/-- Settles O32: only H mod n is read, and n - s gives the negated sum. -/
theorem verifyVerdictSymmetries : Obligations.VerifyVerdictSymmetries := by
  refine fun S H H' r s Q => ⟨ecdsaVerify_congr, fun hc hn hG hGn hQ hQn hs hsn => ?_⟩
  have ⟨hprime, hodd, _⟩ := hc
  have : Fact S.curve.p.Prime := ⟨hprime⟩
  have : Fact S.n.Prime := ⟨hn⟩
  obtain ⟨A, hA⟩ := exists_ofAffine_eq hc hG
  obtain ⟨B, rfl⟩ := exists_ofAffine_eq hc hQ
  rw [← hA] at hGn
  exact ecdsaVerify_sub hodd hA.symm (nsmul_eq_zero_of_ecScalarMult hodd hGn) (nsmul_eq_zero_of_ecScalarMult hodd hQn) hs hsn

/-! ### The round trip (42_ecdsa.md R115) -/

/-- A signature of `sign_attempt` verifies under the key d·G, on the functions. -/
theorem ecdsaVerify_signAttempt {S : Snapshot} {H d k r v : Nat} {Q : Point} (hc : S.curve.Good) (hn : S.n.Prime)
    (hG : S.curve.On S.gen) (hGn : ecScalarMult S.curve S.gen S.n = .ok .identity) (hQ : ecScalarMult S.curve S.gen d = .ok Q)
    (hsign : signAttempt S.curve S.n S.gen (H % S.n) d k = .ok (some (r, v))) : ecdsaVerify S H r v Q = .ok true := by
  have ⟨hprime, hodd, _⟩ := hc
  have : Fact S.curve.p.Prime := ⟨hprime⟩
  have : Fact S.n.Prime := ⟨hn⟩
  obtain ⟨A, hA⟩ := exists_ofAffine_eq hc hG
  rw [← hA, ecScalarMult_ofAffine hodd] at hGn hQ
  obtain rfl := Except.ok.inj hQ
  rw [← hA, signAttempt_of_ok (ecScalarMult_ofAffine hodd A k)] at hsign
  obtain ⟨x, y, hpoint, hrx, -, hdiv, hv0⟩ := signFromPoint_some hsign
  obtain ⟨hr, hrn, hv, hvn⟩ := signFromPoint_bounds hn.pos hsign
  have hsum : verifyScalar S.n (H % S.n) v • A + verifyScalar S.n r v • d • A = k • A := by
    rw [smul_smul, ← add_nsmul]
    exact nsmul_eq_of_natCast_eq (ofAffine_eq_identity (Except.ok.inj hGn)) (natCast_verifyScalars_of_sign hdiv hv0)
  rw [ecdsaVerify_ofAffine hodd hA.symm hr hrn hv hvn, hsum, hpoint]
  exact congrArg Except.ok (decide_eq_true hrx.symm)

/-- Settles O33: what a successful SIGN leaves is a signature of `sign_attempt`, and VERIFY ends as `ecdsa_verify` does. -/
theorem ecdsaRoundTrip : Obligations.EcdsaRoundTrip := by
  intro s t s' run run' rd ra rb rc q va vb vc Q hr hm hne _ _ hc hn hG _ hGn _ _ hQ h hb he hr' hm' hcurve hn' hgen hH hsigr hsigs hkey
  obtain ⟨G, k, r, v, hcheck, hdraw, ho, rfl⟩ := exec_sign_success hr h hb he
  obtain ⟨-, -, rfl, -⟩ := nonceCommandChecks_ok hcheck
  rw [signOutcome_eq_signAttempt hm hcheck hdraw] at ho
  rw [signatureCommit_r_rd s hne] at hsigr
  rw [signatureCommit_r_rc] at hsigs
  rw [← hcurve, ← hn', ← hgen, ← hH] at ho
  rw [← hcurve, ← hgen] at hG hGn hQ
  rw [← hn'] at hGn hn
  rw [← hcurve] at hc
  refine exec_verify_verdict hr' hm' hc.1.ne_zero hn.two_le ?_
  rw [hsigr, hsigs, hkey]
  exact ecdsaVerify_signAttempt hc hn hG hGn hQ ho

end Sys2Proof.Proofs
end

section
/-! PROOFS. Errors and interrupts (60_exceptions.md): a command that ends with an error has raised it, from the codes its checks and functions give;
the irq line; and a host write of 1 to DONE before and after a completion. -/

namespace Sys2Proof.Proofs

open Sys2Proof Sys2Proof.Machine Sys2Proof.Laws

/-! ### Errors are precise (60_exceptions.md R120) -/

/-- A command that ends with an error has raised it: a commit, a request and a wait leave ERR. -/
theorem exec_raised {i : Instr} {s t : State} (h : exec i s = .next t) (hs : s.status.err = false) (ht : t.status.err = true) :
    ∃ e n, t = s.raise e n ∧ (isSign i = false → n = none) := by
  have hne : s.status.err ≠ true := ne_true_of_eq_false hs
  obtain ⟨run, -, hway⟩ := exec_way h
  cases hway with
  | commit w => exact absurd ht hne
  | raise e n hn => exact ⟨e, n, rfl, hn⟩
  | request n => exact absurd ht hne
  | wait => exact absurd ht hne

/-- Settles O35: an error is raised, and `raise` writes ERRCODE, ERR, DONE, ATTEMPTS and the engine alone. -/
theorem errorsArePrecise : Obligations.ErrorsArePrecise := by
  refine ⟨fun s e n => by cases n <;> rfl, fun i s t h hs ht => ?_⟩
  obtain ⟨e, n, rfl, hn⟩ := exec_raised h hs ht
  exact ⟨e, rfl, fun hi => by simp [hn hi]⟩

/-! ### The errors a computation can end with -/

/-- Every error of o is one of l. -/
def RaisesOnly {α : Type} (l : List CmdError) (o : Except CmdError α) : Prop := ∀ e, o = .error e → e ∈ l

theorem raisesOnly_pure {α : Type} (a : α) : RaisesOnly [] (pure a : Except CmdError α) := nofun

theorem RaisesOnly.bind {α β : Type} {l l' : List CmdError} {x : Except CmdError α} {f : α → Except CmdError β} (hx : RaisesOnly l x)
    (hf : ∀ a, RaisesOnly l' (f a)) : RaisesOnly (l ++ l') (x >>= f) := fun e h =>
  List.mem_append.mpr <| (bind_error h).imp (hx e) fun ⟨a, _, ha⟩ => hf a e ha

theorem RaisesOnly.mono {α : Type} {l l' : List CmdError} {o : Except CmdError α} (h : RaisesOnly l o) (hl : l ⊆ l') : RaisesOnly l' o :=
  fun e he => hl (h e he)

theorem raisesOnly_singleton {α : Type} {e : CmdError} {o : Except CmdError α} (h : ∀ {e'}, o = .error e' → e' = e) : RaisesOnly [e] o :=
  fun _ he => List.mem_singleton.mpr (h he)

/-- A check that answers or fails with e. -/
theorem raisesOnly_ite {e : CmdError} {α : Type} {a : α} {c : Prop} [Decidable c] :
    RaisesOnly [e] (if c then .error e else .ok a : Except CmdError α) := by
  refine raisesOnly_singleton fun h => ?_
  split at h <;> cases h
  rfl

/-! ### The checks (40_field.md R79; 41_curve.md R92, R93; 42_ecdsa.md R104, R107) -/

theorem raisesOnly_checkedModulus (S : Snapshot) (sel : ModSel) : RaisesOnly [.badModulus] (S.checkedModulus sel) := raisesOnly_ite

theorem raisesOnly_checkP (S : Snapshot) : RaisesOnly [.badModulus] S.checkP := raisesOnly_ite

theorem raisesOnly_checkN (S : Snapshot) : RaisesOnly [.badOrder] S.checkN := raisesOnly_ite

theorem raisesOnly_nonceCheck (S : Snapshot) : RaisesOnly [.nonceRange] S.nonceCheck := raisesOnly_ite

theorem raisesOnly_rangeCheck (S : Snapshot) (P : Point) : RaisesOnly [.pointRange] (S.rangeCheck P) := by
  refine raisesOnly_singleton fun h => ?_
  unfold Snapshot.rangeCheck at h
  split at h <;> cases h
  rfl

theorem raisesOnly_checkedPoint (S : Snapshot) (ra : RegIdx) : RaisesOnly [.badModulus, .pointRange] (S.checkedPoint ra) :=
  (raisesOnly_checkP S).bind fun _ => (raisesOnly_rangeCheck S _).bind fun _ => raisesOnly_pure _

theorem raisesOnly_checkedGen (S : Snapshot) : RaisesOnly [.pointRange] S.checkedGen :=
  (raisesOnly_rangeCheck S _).bind fun _ => raisesOnly_pure _

theorem raisesOnly_pubkeyChecks (S : Snapshot) : RaisesOnly [.badModulus, .pointRange] S.pubkeyChecks :=
  (raisesOnly_checkP S).bind fun _ => raisesOnly_checkedGen S

theorem raisesOnly_nonceCommandChecks (S : Snapshot) :
    RaisesOnly [.badModulus, .badOrder, .pointRange, .nonceRange] S.nonceCommandChecks :=
  (raisesOnly_checkP S).bind fun _ => (raisesOnly_checkN S).bind fun _ => (raisesOnly_checkedGen S).bind fun _ =>
    (raisesOnly_nonceCheck S).bind fun _ => raisesOnly_pure _

/-! ### The functions: every division is by an inverse, and only an inverse fails (40_field.md R83) -/

theorem raisesOnly_fieldInv (m y : Nat) : RaisesOnly [.divByZero] (fieldInv m y) := raisesOnly_singleton fun h => (fieldInv_error h).2

theorem raisesOnly_fieldDiv (m x y : Nat) : RaisesOnly [.divByZero] (fieldDiv m x y) := raisesOnly_singleton fun h => (fieldDiv_error h).2

theorem raisesOnly_addValue (ra rb : RegIdx) (m : Nat) (S : Snapshot) : RaisesOnly [] (addValue ra rb m S) := raisesOnly_pure _

theorem raisesOnly_subValue (ra rb : RegIdx) (m : Nat) (S : Snapshot) : RaisesOnly [] (subValue ra rb m S) := raisesOnly_pure _

theorem raisesOnly_mulValue (ra rb : RegIdx) (m : Nat) (S : Snapshot) : RaisesOnly [] (mulValue ra rb m S) := raisesOnly_pure _

theorem raisesOnly_invValue (ra : RegIdx) (m : Nat) (S : Snapshot) : RaisesOnly [.divByZero] (invValue ra m S) := raisesOnly_fieldInv m _

theorem raisesOnly_divValue (ra rb : RegIdx) (m : Nat) (S : Snapshot) : RaisesOnly [.divByZero] (divValue ra rb m S) :=
  raisesOnly_fieldDiv m _ _

theorem raisesOnly_ecAdd (c : Curve) (P Q : Point) : RaisesOnly [.divByZero] (ecAdd c P Q) := raisesOnly_singleton ecAdd_error

theorem raisesOnly_ecDouble (c : Curve) (P : Point) : RaisesOnly [.divByZero] (ecDouble c P) := raisesOnly_singleton ecDouble_error

theorem raisesOnly_firstMul (c : Curve) (P : Point) (k : Nat) (g : MulProgress) : RaisesOnly [.divByZero] (firstMul c P k g) :=
  raisesOnly_singleton firstMul_error

theorem raisesOnly_secondMul (c : Curve) (P : Point) (k : Nat) (g : MulProgress) : RaisesOnly [.divByZero] (secondMul c P k g) :=
  raisesOnly_singleton secondMul_error

theorem raisesOnly_signFromPoint (n z d k : Nat) (R : Point) : RaisesOnly [.divByZero] (signFromPoint n z d k R) := by
  cases R with
  | identity => exact nofun
  | coord x y =>
    by_cases hx : x % n = 0
    · rw [signFromPoint_of_mod_eq_zero hx]
      exact nofun
    · rw [signFromPoint, if_neg hx]
      exact (raisesOnly_fieldDiv n _ k).bind fun _ => raisesOnly_pure _

theorem raisesOnly_signOutcome (run : Running) (G : Point) (ra rb : RegIdx) (k : Nat) :
    RaisesOnly [.divByZero] (run.signOutcome G ra rb k) :=
  ((raisesOnly_firstMul _ G k _).bind fun R => raisesOnly_signFromPoint _ _ _ k R).mono (by decide)

theorem raisesOnly_verifyPlan (S : Snapshot) (H r s : Nat) (Q : Point) : RaisesOnly [.pointRange, .divByZero] (verifyPlan S H r s Q) := by
  unfold verifyPlan
  split
  · exact nofun
  · exact ((raisesOnly_checkedGen S).bind fun _ => (raisesOnly_rangeCheck S Q).bind fun _ =>
      (raisesOnly_fieldInv S.n s).bind fun _ => raisesOnly_pure _).mono (by decide)

theorem raisesOnly_verifyStart (rd ra rb rc : RegIdx) (S : Snapshot) :
    RaisesOnly [.badModulus, .badOrder, .pointRange, .divByZero] (verifyStart rd ra rb rc S) :=
  (raisesOnly_checkP S).bind fun _ => (raisesOnly_checkN S).bind fun _ => raisesOnly_verifyPlan S _ _ _ _

theorem raisesOnly_verifyOutcome (S : Snapshot) (r : Nat) (g : MulProgress) (o : Option VerifyPlan) :
    RaisesOnly [.divByZero] (verifyOutcome S r g o) := by
  cases o with
  | none => exact nofun
  | some w =>
    exact ((raisesOnly_firstMul _ _ _ g).bind fun P1 => (raisesOnly_secondMul _ _ _ g).bind fun P2 =>
      (raisesOnly_ecAdd _ P1 P2).bind fun _ => raisesOnly_pure _).mono (by decide)

/-! ### The errors of each command (60_exceptions.md R117) -/

/-- Where ERR = 1, ERRCODE is one of l. -/
def ShowsOnly (l : List CmdError) (t : State) : Prop := t.status.err = true → ∃ e, t.status.errcode = some e ∧ e ∈ l

section
variable {s t : State} {l l' : List CmdError}

theorem ShowsOnly.mono (h : ShowsOnly l t) (hl : l ⊆ l') : ShowsOnly l' t := fun ht =>
  have ⟨e, he, hmem⟩ := h ht
  ⟨e, he, hl hmem⟩

theorem showsOnly_of_err_eq_false (h : s.status.err = false) : ShowsOnly l s := fun he => absurd he (ne_true_of_eq_false h)

theorem showsOnly_raise {e : CmdError} {n : Option Nat} (h : e ∈ l) : ShowsOnly l (s.raise e n) := fun _ => ⟨e, rfl, h⟩

theorem showsOnly_finish {o : Except CmdError Commit} (hs : s.status.err = false) (ho : RaisesOnly l o) (hl : l ⊆ l')
    (h : s.finish o = .next t) : ShowsOnly l' t := by
  rcases finish_next h with ⟨w, -, rfl⟩ | ⟨e, rfl, rfl⟩
  · exact showsOnly_of_err_eq_false (s := s.commit w) hs
  · exact showsOnly_raise (hl (ho e rfl))

/-- BAD_MODULUS and the errors of the field function (40_field.md R79, R85 to R89). -/
theorem showsOnly_fieldCommand {sel : ModSel} {rd : RegIdx} {value : Nat → Snapshot → Except CmdError Nat}
    (hv : ∀ m S, RaisesOnly l (value m S)) (hs : s.status.err = false) (h : fieldCommand sel rd value s = .next t) :
    ShowsOnly (.badModulus :: l) t := by
  obtain ⟨run, -, h⟩ := withCommand_next h
  exact showsOnly_finish hs ((raisesOnly_checkedModulus _ sel).bind fun m => (hv m _).bind fun _ => raisesOnly_pure _) (by simp) h

theorem showsOnly_keygen {rd : RegIdx} (hs : s.status.err = false) (h : exec (.keygen rd) s = .next t) :
    ShowsOnly (allowedErrors (.keygen rd)) t := by
  obtain ⟨run, -, h⟩ := withCommand_next h
  split at h
  case h_1 e hc =>
    cases h
    exact showsOnly_raise ((raisesOnly_nonceCommandChecks _).mono (by simp [allowedErrors]) e hc)
  case h_2 G _ =>
    split at h
    case h_1 | h_2 => cases h; exact showsOnly_of_err_eq_false hs
    case h_3 d _ => exact showsOnly_finish hs ((raisesOnly_firstMul _ G d _).bind fun _ => raisesOnly_pure _) (by simp [allowedErrors]) h

/-- SIGN_FAIL, or the attempt's own error (42_ecdsa.md R111). -/
theorem showsOnly_signSettle {rd rc : RegIdx} {run : Running} {o : Except CmdError (Option (Nat × Nat))} (hs : s.status.err = false)
    (ho : RaisesOnly l o) (h : signSettle rd rc s run o = .next t) : ShowsOnly (.signFail :: l) t := by
  rcases o with e | _ | ⟨r, v⟩
  · cases h; exact showsOnly_raise (List.mem_cons_of_mem _ (ho e rfl))
  · simp only [signSettle] at h
    split at h
    · cases h; exact showsOnly_of_err_eq_false hs
    · cases h; exact showsOnly_raise List.mem_cons_self
  · cases h; exact showsOnly_of_err_eq_false hs

theorem showsOnly_sign {rd ra rb rc : RegIdx} (hs : s.status.err = false) (h : exec (.sign rd ra rb rc) s = .next t) :
    ShowsOnly (allowedErrors (.sign rd ra rb rc)) t := by
  obtain ⟨run, -, h⟩ := withCommand_next h
  split at h
  case h_1 e hc =>
    cases h
    exact showsOnly_raise ((raisesOnly_nonceCommandChecks _).mono (by simp [allowedErrors]) e hc)
  case h_2 G _ =>
    split at h
    case h_1 | h_2 => cases h; exact showsOnly_of_err_eq_false hs
    case h_3 k _ => exact (showsOnly_signSettle hs (raisesOnly_signOutcome run G ra rb k) h).mono (by simp [allowedErrors])

/-- Column "raised by" of R117, command by command: the errors of its checks and of the functions it calls. -/
theorem exec_showsOnly {i : Instr} (hs : s.status.err = false) (h : exec i s = .next t) : ShowsOnly (allowedErrors i) t := by
  cases i with
  | faddP rd ra rb => exact showsOnly_fieldCommand (raisesOnly_addValue ra rb) hs h
  | faddN rd ra rb => exact showsOnly_fieldCommand (raisesOnly_addValue ra rb) hs h
  | fsubP rd ra rb => exact showsOnly_fieldCommand (raisesOnly_subValue ra rb) hs h
  | fsubN rd ra rb => exact showsOnly_fieldCommand (raisesOnly_subValue ra rb) hs h
  | fmulP rd ra rb => exact showsOnly_fieldCommand (raisesOnly_mulValue ra rb) hs h
  | fmulN rd ra rb => exact showsOnly_fieldCommand (raisesOnly_mulValue ra rb) hs h
  | finvP rd ra => exact showsOnly_fieldCommand (raisesOnly_invValue ra) hs h
  | finvN rd ra => exact showsOnly_fieldCommand (raisesOnly_invValue ra) hs h
  | fdivP rd ra rb => exact showsOnly_fieldCommand (raisesOnly_divValue ra rb) hs h
  | fdivN rd ra rb => exact showsOnly_fieldCommand (raisesOnly_divValue ra rb) hs h
  | oncurve ra =>
    obtain ⟨run, -, h⟩ := withCommand_next h
    exact showsOnly_finish hs ((raisesOnly_checkedPoint _ ra).bind fun _ => raisesOnly_pure _) (by simp [allowedErrors]) h
  | padd rd ra rb =>
    obtain ⟨run, -, h⟩ := withCommand_next h
    exact showsOnly_finish hs ((raisesOnly_checkedPoint _ ra).bind fun P => (raisesOnly_checkedPoint _ rb).bind fun Q =>
      (raisesOnly_ecAdd _ P Q).bind fun _ => raisesOnly_pure _) (by simp [allowedErrors]) h
  | pdbl rd ra =>
    obtain ⟨run, -, h⟩ := withCommand_next h
    exact showsOnly_finish hs ((raisesOnly_checkedPoint _ ra).bind fun P => (raisesOnly_ecDouble _ P).bind fun _ => raisesOnly_pure _)
      (by simp [allowedErrors]) h
  | pmul rd ra rb =>
    obtain ⟨run, -, h⟩ := withCommand_next h
    exact showsOnly_finish hs ((raisesOnly_checkedPoint _ ra).bind fun P => (raisesOnly_firstMul _ P _ _).bind fun _ => raisesOnly_pure _)
      (by simp [allowedErrors]) h
  | pubkey rd ra =>
    obtain ⟨run, -, h⟩ := withCommand_next h
    exact showsOnly_finish hs ((raisesOnly_pubkeyChecks _).bind fun G => (raisesOnly_firstMul _ G _ _).bind fun _ => raisesOnly_pure _)
      (by simp [allowedErrors]) h
  | keygen rd => exact showsOnly_keygen hs h
  | sign rd ra rb rc => exact showsOnly_sign hs h
  | verify rd ra rb rc =>
    obtain ⟨run, -, h⟩ := withCommand_next h
    exact showsOnly_finish hs ((raisesOnly_verifyStart rd ra rb rc _).bind fun w =>
      (raisesOnly_verifyOutcome _ _ _ w).bind fun _ => raisesOnly_pure _) (by simp [allowedErrors]) h

end

/-- Settles O36: the codes are read off, and a command shows the errors of its checks and functions. -/
theorem errorTaxonomy : Obligations.ErrorTaxonomy :=
  ⟨⟨rfl, rfl, rfl, rfl, rfl, rfl, rfl⟩, fun _ _ _ h hs => exec_showsOnly hs h⟩

/-! ### The irq line (60_exceptions.md R125) -/

theorem irq_accept (s : State) (c : Word) : (s.accept c).irq = (s.status.err && s.ctrl.errIe) := rfl

theorem irq_acknowledge (s : State) (v : Word) : (s.acknowledge v).irq =
    (s.status.done && !v.getLsbD 1 && s.ctrl.doneIe || s.status.err && !v.getLsbD 2 && s.ctrl.errIe) := rfl

theorem irq_writeTarget_ctrl (s : State) (v : Word) : (s.writeTarget .ctrl v).irq =
    (s.status.done && v.getLsbD 1 || s.status.err && v.getLsbD 2) := rfl

/-- Settles O39: in each clause the bits written make one source, the other or both false. -/
theorem irqLine : Obligations.IrqLine := by
  intro s
  refine ⟨by simp [State.irq], fun _ => rfl, irq_accept s, ?_, ?_, ?_, ?_, ?_⟩
  · intro v hdone herr
    rw [irq_acknowledge, hdone, herr]
    simp
  · intro v hdone herr
    rw [irq_acknowledge, hdone, herr]
    simp
  · intro v hdone herr
    rw [irq_acknowledge, hdone, herr]
    simp
  · intro v hdoneIe
    rw [irq_writeTarget_ctrl, hdoneIe, Bool.and_false, Bool.false_or]
  · intro v herrIe
    rw [irq_writeTarget_ctrl, herrIe, Bool.and_false, Bool.or_false]

/-! ### A completion and the host's acknowledgement (60_exceptions.md R128) -/

/-- A move that leaves a running command's engine IDLE is a commit or a raise, and so completes from every state. -/
theorem Move.apply_completes {run : Running} {s : State} {m : Move} (hb : s.busy = true) (h : (m.apply run s).busy = false) (s' : State) :
    (m.apply run s').status.done = true ∧ (m.apply run s').busy = false := by
  cases m with
  | commit w => exact ⟨rfl, rfl⟩
  | raise e n => exact ⟨rfl, rfl⟩
  | request n => exact Bool.noConfusion (h : true = false)
  | wait => exact absurd hb (ne_true_of_eq_false h)

/-- Whether the engine's move completes its command is fixed by the running command and the parameters (10_state.md R34, R35). -/
theorem engineRun_completes {s s' t : State} (he : s'.engine = s.engine) (hp : s'.params = s.params) (hb : s.busy = true)
    (h : s.engineRun = .next t) (ht : t.busy = false) :
    ∃ t', s'.engineRun = .next t' ∧ t'.status.done = true ∧ t'.busy = false := by
  rcases engineRun_cases s with ⟨hi, -⟩ | ⟨run, e, hr, hd, -⟩ | ⟨run, i, hr, hd, hx⟩
  · exact absurd hb (ne_true_of_eq_false ((State.not_busy_iff s).mpr hi))
  · exact ⟨_, engineRun_illegal (he.trans hr) hd, rfl, rfl⟩
  · obtain ⟨run', m, hr', -, hm, rfl⟩ := exec_next_move (hx.symm.trans h)
    exact ⟨_, (engineRun_of_decode (he.trans hr) hd).trans (hm s' (he.trans hr') hp), m.apply_completes hb ht s'⟩

/-- Settles O58: a running command has DONE = 0, so an early write clears nothing, and the move does not look at STATUS. -/
theorem completionAndAcknowledgeRace : Obligations.CompletionAndAcknowledgeRace := by
  intro s t v hinv hb hv h ht
  obtain ⟨run, hr⟩ := (State.busy_iff s).mp hb
  obtain ⟨hdone, -⟩ := (hinv.running run hr).quiet
  exact ⟨by simp [hdone], engineRun_completes (s := s) rfl rfl hb h ht, by simp [hv]⟩

end Sys2Proof.Proofs
end

section
/-! PROOFS. Reset and hazards (70_reset_and_hazards.md): what the engine's move always answers and keeps, who can change the configuration,
and the requests a reset abandons. -/

namespace Sys2Proof.Proofs

open Sys2Proof Sys2Proof.Machine Sys2Proof.Laws Sys2Proof.Config

/-! ### The request in flight (20_memory.md R44) -/

theorem rngRequest_of_requested {s : State} {run : Running} (hr : s.engine = .busy run) (hq : run.progress.nonce = .requested) :
    s.rngRequest = some run.snap.n := by
  simp [State.rngRequest, hr, hq]

theorem rngRequest_of_not_requested {s : State} {run : Running} (hr : s.engine = .busy run) (hq : run.progress.nonce ≠ .requested) :
    s.rngRequest = none := by
  simp [State.rngRequest, hr, hq]

/-- The request is read off the engine alone. -/
theorem rngRequest_congr {s t : State} (h : t.engine = s.engine) : t.rngRequest = s.rngRequest := by
  simp only [State.rngRequest, h]

theorem nonce_of_draw_wait {run : Running} (h : run.draw = .wait) : run.progress.nonce = .requested := by
  unfold Running.draw at h
  split at h
  · cases h
  · split at h <;> cases h
    assumption

/-! ### A running command moves on (70_reset_and_hazards.md R149) -/

/-- The command has completed, or its request for a nonce below the order n is in flight. -/
def MovedOn (n : Nat) (t : State) : Prop := t.busy = false ∨ t.rngRequest = some n

section
variable {s t : State} {run : Running} {i : Instr}

theorem movedOn_requestNonce (rejected : Nat) : MovedOn run.snap.n (s.requestNonce run rejected) :=
  Or.inr (by simp [State.rngRequest])

theorem movedOn_of_draw_wait (hr : s.engine = .busy run) (hd : run.draw = .wait) : MovedOn run.snap.n s :=
  Or.inr (rngRequest_of_requested hr (nonce_of_draw_wait hd))

theorem finish_completes {o : Except CmdError Commit} (h : s.finish o = .next t) : t.busy = false := by
  rcases finish_next h with ⟨w, -, rfl⟩ | ⟨e, -, rfl⟩ <;> rfl

/-- A command that draws no nonce completes in one move. -/
theorem exec_completes_of_not_drawsNonce (hi : drawsNonce i = false) (h : exec i s = .next t) : t.busy = false := by
  obtain ⟨run, -, hway⟩ := exec_way h
  cases hway with
  | commit w => rfl
  | raise e n => rfl
  | request n hdraws => exact absurd hdraws (ne_true_of_eq_false hi)
  | wait hdraws => exact absurd hdraws (ne_true_of_eq_false hi)

theorem keygen_movedOn {rd : RegIdx} (hr : s.engine = .busy run) (h : exec (.keygen rd) s = .next t) : MovedOn run.snap.n t := by
  rw [exec, execKeygen, withCommand_busy hr] at h
  split at h
  case h_1 e _ => cases h; exact Or.inl rfl
  case h_2 G _ =>
    split at h
    case h_1 => cases h; exact movedOn_requestNonce 0
    case h_2 hd => cases h; exact movedOn_of_draw_wait hr hd
    case h_3 d _ => exact Or.inl (finish_completes h)

/-- A rejected attempt asks for the next nonce or ends with SIGN_FAIL (42_ecdsa.md R111). -/
theorem signSettle_movedOn {rd rc : RegIdx} {o : Except CmdError (Option (Nat × Nat))} (h : signSettle rd rc s run o = .next t) :
    MovedOn run.snap.n t := by
  rcases o with e | _ | ⟨r, v⟩
  · cases h; exact Or.inl rfl
  · simp only [signSettle] at h
    split at h <;> cases h
    · exact movedOn_requestNonce _
    · exact Or.inl rfl
  · cases h; exact Or.inl rfl

theorem sign_movedOn {rd ra rb rc : RegIdx} (hr : s.engine = .busy run) (h : exec (.sign rd ra rb rc) s = .next t) :
    MovedOn run.snap.n t := by
  rw [exec, execSign, withCommand_busy hr] at h
  split at h
  case h_1 e _ => cases h; exact Or.inl rfl
  case h_2 G _ =>
    split at h
    case h_1 => cases h; exact movedOn_requestNonce _
    case h_2 hd => cases h; exact movedOn_of_draw_wait hr hd
    case h_3 k _ => exact signSettle_movedOn h

theorem exec_movedOn (hr : s.engine = .busy run) (h : exec i s = .next t) : MovedOn run.snap.n t := by
  cases i with
  | keygen rd => exact keygen_movedOn hr h
  | sign rd ra rb rc => exact sign_movedOn hr h
  | _ => exact Or.inl (exec_completes_of_not_drawsNonce rfl h)

/-- The engine's move answers whatever command runs. -/
theorem engineRun_movedOn (hr : s.engine = .busy run) : ∃ t, s.engineRun = .next t ∧ MovedOn run.snap.n t := by
  cases hd : decode run.word with
  | error e => exact ⟨_, engineRun_illegal hr hd, Or.inl rfl⟩
  | ok i =>
    obtain ⟨m, -, hm⟩ := exec_move i s.params run
    exact ⟨_, (engineRun_of_decode hr hd).trans (hm s hr rfl), exec_movedOn hr (hm s hr rfl)⟩

end

/-- The engine's move writes no parameter and no configuration register (10_state.md R35). -/
theorem engineRun_frame {s t : State} (h : s.engineRun = .next t) : t.params = s.params ∧ t.cfg = s.cfg := by
  rcases engineRun_cases s with ⟨-, hw⟩ | ⟨run, e, -, -, hw⟩ | ⟨run, i, -, -, hw⟩ <;> rw [hw] at h
  · cases h; exact ⟨rfl, rfl⟩
  · cases h; exact ⟨rfl, rfl⟩
  · obtain ⟨hparams, hcfg, -⟩ := commandFrame i s t h
    exact ⟨hparams, hcfg⟩

/-- Settles O56: the move completes the command or leaves its request in flight, and the invariant, which it keeps, bounds the attempts. -/
theorem engineAlwaysMovesOn : Obligations.EngineAlwaysMovesOn := by
  intro s run hr
  obtain ⟨t, ht, hmoved⟩ := engineRun_movedOn hr
  refine ⟨t, ht, hmoved, fun hinv run' hr' => ?_⟩
  rw [← (engineRun_frame ht).1]
  exact ((inv_engineRun hinv ht).running run' hr').rejected

/-! ### The configuration registers (10_state.md R37, 70_reset_and_hazards.md R137) -/

/-- A transaction that changes the configuration is a write to an IDLE engine. -/
theorem busTxn_cfg {s t : State} {txn : BusTxn} (h : s.busTxn txn = .next t) (hne : t.cfg ≠ s.cfg) :
    (∃ addr enables v, txn = .write addr enables v) ∧ s.busy = false := by
  unfold State.busTxn at h
  split at h <;> cases h
  cases txn with
  | read addr width => exact absurd (by simp only [State.busAt]; split <;> rfl) hne
  | write addr enables v =>
    refine ⟨⟨addr, enables, v, rfl⟩, ?_⟩
    simp only [State.busAt] at hne
    split at hne
    · by_contra hb
      obtain ⟨-, -, -, -, -, hbusy⟩ := writeTarget_keeps s (targetOf _) v
      obtain ⟨-, -, hcfg, -⟩ := hbusy (eq_true_of_ne_false hb)
      exact hne hcfg
    · exact absurd rfl hne

/-- Settles O50: event by event, only a bus write while IDLE and the two resets reach the configuration. -/
theorem configChangesOnlyByHostOrReset : Obligations.ConfigChangesOnlyByHostOrReset := by
  intro s t ht hne
  rcases step_cases s with ⟨-, hs⟩ | ⟨e, rest, he, hs⟩ <;> rw [hs] at ht
  · exact absurd (engineRun_frame ht).2 hne
  · cases e with
    | host txn =>
      obtain ⟨⟨addr, enables, v, rfl⟩, hb⟩ := busTxn_cfg ht hne
      exact Or.inl ⟨addr, enables, v, rest, he, hb⟩
    | work => cases ht; exact absurd (by simp) hne
    | run => exact absurd (engineRun_frame ht).2 hne
    | rng m k =>
      rcases rngAnswer_next ht with rfl | ⟨run, -, -, -, -, -, rfl⟩ <;> exact absurd rfl hne
    | reset => exact Or.inr (Or.inl ⟨rest, he⟩)
    | resetDuring txn => exact Or.inr (Or.inr ⟨txn, rest, he⟩)

/-! ### Abandoned requests (70_reset_and_hazards.md R138) -/

section
variable {s t : State} {m : Nat}

/-- With no request in flight, every request issued is abandoned. -/
theorem abandoned_of_rngRequest_none (hm : m ≤ s.rngRequests) (hq : s.rngRequest = none) : s.Abandoned m :=
  ⟨hm, fun h => absurd hq h⟩

theorem abandoned_congr (h : s.Abandoned m) (hn : t.rngRequests = s.rngRequests) (hq : t.rngRequest = s.rngRequest) :
    t.Abandoned m := by
  rwa [State.Abandoned, hn, hq]

/-- The request in flight has a later number than an abandoned one, so the RNG's answer to the latter is no answer to it. -/
theorem rngAnswer_of_abandoned (h : s.Abandoned m) (k : Nat) : s.rngAnswer m k = .next s := by
  by_cases hq : s.rngRequest = none
  · exact rngAnswer_none hq m k
  · exact rngAnswer_stale (h.2 hq).ne k

theorem writeTarget_rngRequests (s : State) (t : Target) (v : Word) : (s.writeTarget t v).rngRequests = s.rngRequests := by
  have hdropped : ∀ u : State, u.rngRequests = s.rngRequests → (s.unlessBusy u).rngRequests = s.rngRequests := fun u hu => by
    cases hb : s.busy <;> simp [hb, hu]
  cases t with
  | id | param | ctrl | status | lastcmd | reserved => rfl
  | cmd => rcases offerCommand_cases s v with ⟨-, ho⟩ | ⟨-, -, ho⟩ <;> rw [State.writeTarget, ho] <;> rfl
  | genInf | ptInf i => exact hdropped _ rfl
  | big b j =>
    simp only [State.writeTarget]
    split
    · exact hdropped _ (State.writeBig_rngRequests s b _)
    · rfl

/-- A write of CMD may start a command, which has asked for nothing yet; any other write leaves the engine. -/
theorem abandoned_writeTarget (h : s.Abandoned m) (t : Target) (v : Word) : (s.writeTarget t v).Abandoned m := by
  by_cases ht : t = .cmd
  · subst ht
    rcases offerCommand_cases s v with ⟨-, ho⟩ | ⟨-, -, ho⟩ <;> rw [State.writeTarget, ho]
    · exact h
    · exact abandoned_of_rngRequest_none h.1 (rngRequest_of_not_requested (State.accept_engine s v) nofun)
  · obtain ⟨-, -, -, hkeep, -⟩ := writeTarget_keeps s t v
    exact abandoned_congr h (writeTarget_rngRequests s t v) (rngRequest_congr (hkeep ht).1)

theorem abandoned_busTxn {txn : BusTxn} (h : s.Abandoned m) (ht : s.busTxn txn = .next t) : t.Abandoned m := by
  unfold State.busTxn at ht
  split at ht <;> cases ht
  cases txn with
  | read addr width => simp only [State.busAt]; split <;> exact h
  | write addr enables v =>
    simp only [State.busAt]
    split
    · exact abandoned_writeTarget h _ v
    · exact h

/-- A request the engine issues gets a later number; a completion leaves none in flight. -/
theorem abandoned_engineRun (h : s.Abandoned m) (ht : s.engineRun = .next t) : t.Abandoned m := by
  rcases engineRun_cases s with ⟨-, hw⟩ | ⟨run, e, -, -, hw⟩ | ⟨run, i, -, -, hw⟩ <;> rw [hw] at ht
  · cases ht; exact h
  · cases ht; exact abandoned_of_rngRequest_none h.1 rfl
  · obtain ⟨run, -, hway⟩ := exec_way ht
    cases hway with
    | commit w => exact abandoned_of_rngRequest_none h.1 rfl
    | raise e n => exact abandoned_of_rngRequest_none h.1 rfl
    | request n => exact ⟨Nat.le_succ_of_le h.1, fun _ => Nat.lt_succ_of_le h.1⟩
    | wait => exact h

theorem abandoned_resetBlock (hm : m ≤ s.rngRequests) : s.resetBlock.Abandoned m := abandoned_of_rngRequest_none hm rfl

theorem abandoned_perform {e : Event} (h : s.Abandoned m) (ht : s.perform e = .next t) : t.Abandoned m := by
  cases e with
  | host txn => exact abandoned_busTxn h ht
  | work => cases ht; exact abandoned_congr h (State.engineWork_rngRequests s) (engineWork_rngRequest s)
  | run => exact abandoned_engineRun h ht
  | rng request k =>
    rcases rngAnswer_next ht with rfl | ⟨run, -, -, -, -, -, rfl⟩
    · exact h
    · exact abandoned_of_rngRequest_none h.1 (rngRequest_of_not_requested (State.withProgress_engine s run _) nofun)
  | reset => cases ht; exact abandoned_resetBlock h.1
  | resetDuring txn =>
    cases resetOverlapped_next ht
    exact abandoned_resetBlock h.1

theorem abandoned_step (h : s.Abandoned m) (ht : step s = .next t) : t.Abandoned m := by
  rcases step_cases s with ⟨-, hs⟩ | ⟨e, rest, -, hs⟩ <;> rw [hs] at ht
  · exact abandoned_engineRun h ht
  · exact abandoned_perform (s := { s with schedule := rest }) h ht

theorem resetOverlapped_in_window {txn : BusTxn} {off : Nat} (hoff : off < windowSize) (ha : txn.addr = s.params.base + off) :
    s.resetOverlapped txn =
      .next { s.resetBlock with response := some (overlapResponse s.freeCount txn), freeCount := s.freeCount + 1 } := by
  rw [State.resetOverlapped, ha, windowOffset_base _ hoff]

end

/-- Settles O49: a reset leaves the engine IDLE, so no request is in flight; and later requests have later numbers. -/
theorem resetAbandonsEverything : Obligations.ResetAbandonsEverything :=
  ⟨fun _ => ⟨rfl, rngAnswer_none rfl, fun _ _ hoff ha => ⟨_, resetOverlapped_in_window hoff ha⟩, fun _ => abandoned_resetBlock⟩,
    fun _ _ h => ⟨rngAnswer_of_abandoned h, fun _ => abandoned_step h⟩⟩

end Sys2Proof.Proofs
end
